-- ==== Sys2Proof/Word.lean ====
section
/-! DEFINITION. The words and sequences of 00_scope.md R10 to R12: bytes, finite byte sequences, finite bit sequences. -/

namespace Sys2Proof

/-- One 8-bit value: a sample, a payload byte, a frame byte (R10). Bit 0 is the least significant bit. -/
abbrev Byte := BitVec 8

/-- The value a host access carries: one 64-bit slot (R20, R61). -/
abbrev Word64 := BitVec 64

/-- A 32-bit command word (R85). -/
abbrev CmdWord := BitVec 32

/-- `Bytes` of R11: a finite sequence of 8-bit values, indexed from 0. -/
abbrev Bytes := List Byte

/-- `Bits` of R11: a finite sequence of single bits; `true` is the bit 1. -/
abbrev Bits := List Bool

end Sys2Proof
end

