-- ==== Sys2Proof/Syntax.lean ====
section
/-! DEFINITION. The ten commands of 30_encoding.md R87, one constructor per row of the opcode table. No command word
carries an operand (R85, R89), so no constructor has an argument. -/

namespace Sys2Proof

inductive Instr where
  /-- `B2BITS`: frame bytes to bit stream (R113). -/
  | b2bits
  /-- `BITS2B`: bit stream to bytes (R114). -/
  | bits2b
  /-- `CAPQ`: capacity report (R121). -/
  | capq
  /-- `FBUILD`: frame Build, with the compression stage (R130). -/
  | fbuild
  /-- `FPARSE`: frame Parse from the first 40 bits (R131). -/
  | fparse
  /-- `FBODY`: truncate, decompress when flagged (R132). -/
  | fbody
  /-- `LSBW`: write the bit stream into sample LSBs (R152). -/
  | lsbw
  /-- `LSBR`: read bits from sample LSBs (R153). -/
  | lsbr
  /-- `EMBED`: top-level Embed (R180). -/
  | embed
  /-- `EXTRACT`: top-level Extract (R181). -/
  | extract
deriving DecidableEq, Repr

end Sys2Proof
end

