-- ==== Sys2Proof/Decode.lean ====
section
/-! DEFINITION. The command word CMD32: decoder and encoder (30_encoding.md R85 to R88). -/

namespace Sys2Proof

/-- Why a command word is illegal (R86, R88). Either way the engine reports `IllegalCommand`. -/
inductive IllegalWord where
  /-- `RSV`, bits 31:8, is not zero, whatever the low byte (R88). -/
  | reservedBits (w : CmdWord)
  /-- bits 31:8 are zero and `OPC` is none of the ten opcodes (R88). -/
  | unassignedOpcode (opc : Byte)
deriving DecidableEq, Repr

/-- The field `RSV`, bits 31:8 (R85). -/
def fieldRsv (w : CmdWord) : BitVec 24 := w.extractLsb' 8 24

/-- The field `OPC`, bits 7:0 (R85). -/
def fieldOpc (w : CmdWord) : Byte := w.extractLsb' 0 8

/-- The opcode map of R87. -/
def decodeOpc (opc : Byte) : Option Instr :=
  match opc.toNat with
  | 0x01 => some .b2bits
  | 0x02 => some .bits2b
  | 0x03 => some .capq
  | 0x04 => some .fbuild
  | 0x05 => some .fparse
  | 0x06 => some .fbody
  | 0x07 => some .lsbw
  | 0x08 => some .lsbr
  | 0x10 => some .embed
  | 0x11 => some .extract
  | _ => none

/-- Decoding (R86): total on all 2^32 words, and a function of the word alone. -/
def decode (w : CmdWord) : Except IllegalWord Instr :=
  if fieldRsv w ≠ 0 then .error (.reservedBits w)
  else match decodeOpc (fieldOpc w) with
    | some i => .ok i
    | none => .error (.unassignedOpcode (fieldOpc w))

/-- The opcode of a command, the column `OPC` of R87. -/
def opcode : Instr → Byte
  | .b2bits => 0x01
  | .bits2b => 0x02
  | .capq => 0x03
  | .fbuild => 0x04
  | .fparse => 0x05
  | .fbody => 0x06
  | .lsbw => 0x07
  | .lsbr => 0x08
  | .embed => 0x10
  | .extract => 0x11

/-- The command word: `RSV` zero above the opcode (R85). -/
def encode (i : Instr) : CmdWord := (opcode i).setWidth 32

/-- The instruction the decoder reads from a table row's bits. A command word is delivered whole by the `CMD` write
(R76), so there is no byte order to lay out; bits above `nbits` are zero. -/
def decodeTableWord (nbits w : Nat) : Option Instr :=
  match decode (BitVec.ofNat 32 (w % 2 ^ nbits)) with
  | .ok i => some i
  | .error _ => none

end Sys2Proof
end

