-- ==== Sys2Proof/Config.lean ====
section
/-! DEFINITION. The implementation parameters of 00_scope.md R7 and R8, and the free values of the buffers after reset (R52, R231). -/

namespace Sys2Proof

/-- The parameters that are plain data (R7, R8): the four buffer depths and whether a compressor is built in.
A state carries them as constants, so a statement about every state is one about every choice of them (log 1). -/
structure Params where
  /-- `PIX_DEPTH`, number of samples of `PIX` (R7). -/
  pixDepth : Nat
  /-- `PAY_DEPTH`, number of bytes of `PAY` (R7). -/
  payDepth : Nat
  /-- `FRM_DEPTH`, number of bytes of `FRM` (R7). -/
  frmDepth : Nat
  /-- `BIT_DEPTH`, number of bits of `BITS` (R7). -/
  bitDepth : Nat
  /-- `DEFLATE_PRESENT` (R8); `true` is 1. -/
  deflatePresent : Bool
deriving DecidableEq, Repr

/-- The compressor and decompressor of R8 as built in when `DEFLATE_PRESENT = 1`: total functions of their input
bytes, `none` being `FAIL`, with `CODEC_INVERSE` the only property assumed of them. -/
structure Codec where
  compress : Bytes → Option Bytes := fun _ => none
  decompress : Bytes → Option Bytes := fun _ => none
  /-- `CODEC_INVERSE` (R8): what `Compress` gives, `Decompress` undoes. -/
  inverse : ∀ x y, compress x = some y → decompress y = some x := by
    intro x y h
    cases h
deriving Inhabited

/-- The block's own codec: a parameter nothing is known of but `CODEC_INVERSE` (R8, U1; log 3). -/
opaque Config.codec : Codec

/-- `DEFLATE_PRESENT` of the machine `State.reset` (R8): a free value (log 3). -/
opaque Config.deflatePresent : Bool

/-- The parameters of the machine `State.reset`. DESIGN CHOICE (log 2): R7 lets a model take every depth at its upper
bound; nothing is stated that rests on these numbers. -/
def Config.params : Params :=
  { pixDepth := 2 ^ 32 - 1, payDepth := 2 ^ 32 - 1, frmDepth := 2 ^ 32 + 4, bitDepth := 8 * (2 ^ 32 + 4),
    deflatePresent := Config.deflatePresent }

/-- What entry `i` of `PIX` holds after the `n`-th reset until it is written: any value (R52, R231; log 4). -/
opaque Config.freePix : Nat → Nat → Byte

/-- What entry `i` of `PAY` holds after the `n`-th reset until it is written: any value (R52, R231; log 4). -/
opaque Config.freePay : Nat → Nat → Byte

/-- What entry `i` of `FRM` holds after the `n`-th reset until it is written: any value (R52, R231; log 4). -/
opaque Config.freeFrm : Nat → Nat → Byte

/-- What entry `i` of `BITS` holds after the `n`-th reset until it is written: any value (R52, R231; log 4). -/
opaque Config.freeBit : Nat → Nat → Bool

end Sys2Proof
end

