-- ==== Sys2Proof/Machine/State.lean ====
section
/-! DEFINITION. The architectural state of LSBPK (10_state.md R20 to R52), the host's actions (20_memory.md R61, R62),
the error kinds (60_exceptions.md R210), and the state after reset (70_reset_and_hazards.md R231). -/

namespace Sys2Proof.Machine

/-- The four buffer spaces (R60). The register space is reached by offsets, not by one of these. -/
inductive Space where
  | pix
  | pay
  | frm
  | bits
deriving DecidableEq, Repr

/-- The twenty registers in slot order (R20). `metadata` is `META`. -/
inductive Reg where
  | cmd | status | result | ctrl | config | bpp | nsamp | paylen | frmlen | bitlen
  | bitpos | cnt | dlen | metadata | hbpp | capbits | capbytes | hdrbits | avail | req
deriving DecidableEq, Repr

/-- What the host can do at its port, one action at a time (R16, R101, R230, R243). -/
inductive HostAction where
  /-- `RegRead(off)` (R61). -/
  | regRead (off : Nat)
  /-- `RegWrite(off, v)` (R61); at the offset of `CMD` it starts a command (R21). -/
  | regWrite (off : Nat) (v : Word64)
  /-- `HostRead(S, a)` (R62). -/
  | bufRead (sp : Space) (a : Nat)
  /-- `HostWrite(S, a, v)` (R62). -/
  | bufWrite (sp : Space) (a : Nat) (v : Word64)
  /-- assert and release the reset input (R101, R230). -/
  | reset
deriving DecidableEq, Repr

/-- The nine error kinds (R200, R210). -/
inductive ErrorKind where
  | invalidParameter
  | imageDecodeError
  | capacityExceeded
  | corruptHeader
  | invalidDataLength
  | insufficientData
  | decompressionError
  | illegalCommand
  | resourceExceeded
deriving DecidableEq, Repr

/-- `STATUS` as its three flags (R22, R44). -/
structure Status where
  /-- bit 0, `DONE` -/
  done : Bool
  /-- bit 1, `ERR` -/
  err : Bool
  /-- bit 2, `BUSY` -/
  busy : Bool
deriving DecidableEq, Repr

/-- The machine's state. Registers of R20 by name, except `CONFIG` and `HDRBITS`, which are hard-wired and held by no
field (log 9); the buffers of R45 to R48 as the entries written since the last reset, indices strictly rising (log 4);
and four fields of the model's own: `params`, `epoch`, `host`, `dataOut`. -/
structure State where
  /-- the implementation parameters, constant (R7, R8; log 1) -/
  params : Params
  cmd : BitVec 32
  status : Status
  result : BitVec 4
  ctrl : BitVec 1
  bpp : BitVec 32
  nsamp : BitVec 64
  paylen : BitVec 64
  frmlen : BitVec 64
  bitlen : BitVec 64
  bitpos : BitVec 64
  cnt : BitVec 64
  dlen : BitVec 32
  /-- `META` -/
  metadata : BitVec 8
  hbpp : BitVec 2
  capbits : BitVec 64
  capbytes : BitVec 64
  avail : BitVec 64
  req : BitVec 64
  pix : List Host.Cell
  pay : List Host.Cell
  frm : List Host.Cell
  bits : List (Nat × Bool)
  /-- how many resets have happened: it selects the free values of unwritten entries (log 4) -/
  epoch : Nat
  /-- the host's actions still to be performed, the next one first (log 5) -/
  host : List HostAction
  /-- the value the last host read returned (log 6) -/
  dataOut : Word64
deriving DecidableEq, Repr

/-- What stops the machine. Nothing does: every command is total (R18), and an error is an outcome reported in
`RESULT` and `STATUS`, a next state (R200, R215). So no constructor exists and no meaning can raise one; safe (log 12). -/
inductive Fault where
deriving DecidableEq, Repr

/-- What the model does not admit. -/
inductive Refusal where
  /-- An instruction with no meaning yet. No arm of `exec` raises it; safe. -/
  | notModelled (mnemonic : String)
  /-- A host register access at an offset other than 0x00, 0x08, ..., 0x98, which the spec gives no meaning (R61,
  U3 `refuse`; log 8). Raised by the step that would perform it; safe: the model stops. -/
  | noSuchRegister (off : Nat)
  /-- A host buffer access at an index at or above the buffer's depth, which the spec gives no meaning (R62,
  U3 `refuse`; log 8). Raised by the step that would perform it; safe: the model stops. -/
  | noSuchEntry (sp : Space) (a : Nat)
deriving DecidableEq, Repr

/-- The machine with parameters `p` right after its first reset (R52, R231): every register at the reset value of R20,
every buffer entry unwritten, nothing asked of the port yet. -/
def State.resetWith (p : Params) : State :=
  { params := p
    cmd := 0, status := ⟨false, false, false⟩, result := 0, ctrl := 0, bpp := 0, nsamp := 0, paylen := 0, frmlen := 0
    bitlen := 0, bitpos := 0, cnt := 0, dlen := 0, metadata := 0, hbpp := 0, capbits := 0, capbytes := 0, avail := 0
    req := 0, pix := [], pay := [], frm := [], bits := [], epoch := 0, host := [], dataOut := 0 }

/-- The machine right after reset (R231), with the parameters of `Config.params` (log 2, log 3). -/
def State.reset : State := State.resetWith Config.params

end Sys2Proof.Machine
end

