-- ==== Sys2Proof/Machine/Flags.lean ====
section
/-! DEFINITION. The flags of `STATUS` (10_state.md R22, R44), the error codes (60_exceptions.md R210) and the flag
`META.C` (30_encoding.md R92). -/

namespace Sys2Proof.Machine

/-- The code of an error kind (R210). -/
def ErrorKind.code : ErrorKind → BitVec 4
  | .invalidParameter => 1
  | .imageDecodeError => 2
  | .capacityExceeded => 3
  | .corruptHeader => 4
  | .invalidDataLength => 5
  | .insufficientData => 6
  | .decompressionError => 7
  | .illegalCommand => 8
  | .resourceExceeded => 9

/-- The flags at a successful end: `DONE <- 1`, `ERR <- 0`, `BUSY <- 0` (R215). -/
def Status.success : Status := { done := true, err := false, busy := false }

/-- The flags of error entry: `DONE <- 1`, `ERR <- 1`, `BUSY <- 0` (R215). -/
def Status.error : Status := { done := true, err := true, busy := false }

/-- The flags from the write of `CMD` until the command completes: `BUSY` is 1, the others as they were (R22, R248). -/
def Status.started (st : Status) : Status := { st with busy := true }

/-- `STATUS` read as a word: bit 0 `DONE`, bit 1 `ERR`, bit 2 `BUSY` (R22). -/
def Status.toWord (st : Status) : BitVec 3 :=
  BitVec.ofNat 3 (st.done.toNat + 2 * st.err.toNat + 4 * st.busy.toNat)

/-- `CTRL.CDIS`, bit 0 of `CTRL` (R24). -/
def State.cdis (s : State) : Bool := s.ctrl.getLsbD 0

/-- `META.C`, the compression flag, bit 7 of `META` (R34, R92). -/
def State.metaC (s : State) : Bool := s.metadata.getLsbD 7

end Sys2Proof.Machine
end

