-- ==== Sys2Proof/Machine/Ops.lean ====
section
/-! DEFINITION. The shared operations: the entries of a buffer, `MemRead` and `MemWrite` (00_scope.md R13, 10_state.md
R49), error entry and successful end (60_exceptions.md R215), and the flow of a command's pseudocode (R13, R214). -/

namespace Sys2Proof.Machine

/-! ### Buffers -/

/-- The entry written at index `a` since the last reset, if any. -/
def lookup {α : Type} : List (Nat × α) → Nat → Option α
  | [], _ => none
  | (k, v) :: m, a => if k = a then some v else lookup m a

/-- The entries `v` gives at indices `a`, `a+1`, ... -/
def indexed {α : Type} (a : Nat) : List α → List (Nat × α)
  | [] => []
  | x :: v => (a, x) :: indexed (a + 1) v

/-- `MemWrite(S, a, len(v), v)` on the entries of one buffer: `v` at `[a..a+len(v))`, every other entry as it was
(R13, R49). The indices stay strictly rising. -/
def memWrite {α : Type} (m : List (Nat × α)) (a : Nat) (v : List α) : List (Nat × α) :=
  m.filter (fun e => e.1 < a) ++ indexed a v ++ m.filter (fun e => a + v.length ≤ e.1)

/-- `MemRead(S, a, n)`: the `n` consecutive entries from index `a`, `rd` reading one entry (R13). -/
def memRead {α : Type} (rd : Nat → α) (a n : Nat) : List α := (List.range n).map (fun j => rd (a + j))

/-- The canonical form of one buffer of `depth` entries: indices strictly rising and all below the depth (log 4). -/
def bufferWf {α : Type} (depth : Nat) (m : List (Nat × α)) : Bool :=
  decide ((m.map Prod.fst).Pairwise (· < ·)) && m.all (fun e => decide (e.1 < depth))

/-- The canonical form of the four buffers. -/
def Memory.wf (s : State) : Bool :=
  bufferWf s.params.pixDepth s.pix && bufferWf s.params.payDepth s.pay &&
    bufferWf s.params.frmDepth s.frm && bufferWf s.params.bitDepth s.bits

/-- `PIX[a]`; an entry not written since the last reset holds a free value (R45, R52; log 4). -/
def State.readPix (s : State) (a : Nat) : Byte := (lookup s.pix a).getD (Config.freePix s.epoch a)

/-- `PAY[a]` (R46, R52; log 4). -/
def State.readPay (s : State) (a : Nat) : Byte := (lookup s.pay a).getD (Config.freePay s.epoch a)

/-- `FRM[a]` (R47, R52; log 4). -/
def State.readFrm (s : State) (a : Nat) : Byte := (lookup s.frm a).getD (Config.freeFrm s.epoch a)

/-- `BITS[a]` (R48, R52; log 4). -/
def State.readBit (s : State) (a : Nat) : Bool := (lookup s.bits a).getD (Config.freeBit s.epoch a)

/-- `MemWrite(PIX, a, len(v), v)`. -/
def State.writePix (s : State) (a : Nat) (v : Bytes) : State := { s with pix := memWrite s.pix a v }

/-- `MemWrite(PAY, 0, len(v), v) ; PAYLEN <- len(v)`, how every command delivers to `PAY` (R28, R132). -/
def State.putPay (s : State) (v : Bytes) : State :=
  { s with pay := memWrite s.pay 0 v, paylen := BitVec.ofNat 64 v.length }

/-- `MemWrite(FRM, 0, len(v), v) ; FRMLEN <- len(v)`, how every command delivers to `FRM` (R29). -/
def State.putFrm (s : State) (v : Bytes) : State :=
  { s with frm := memWrite s.frm 0 v, frmlen := BitVec.ofNat 64 v.length }

/-- `MemWrite(BITS, 0, len(v), v) ; BITLEN <- len(v)`, how every command delivers to `BITS` (R30). -/
def State.putBits (s : State) (v : Bits) : State :=
  { s with bits := memWrite s.bits 0 v, bitlen := BitVec.ofNat 64 v.length }

/-! ### The end of a command -/

/-- Error entry, `raise K` (R215): what the hardware has in place of taking an exception. Nothing else is saved, and
there is no return (R216). -/
def State.raise (s : State) (k : ErrorKind) : State := { s with result := k.code, status := Status.error }

/-- A successful end (R215). -/
def State.succeed (s : State) : State := { s with result := 0, status := Status.success }

/-- Where a command's pseudocode stands: it goes on in a state, or a `raise` has ended it in a state (R13, R214). -/
inductive Flow where
  | goOn (s : State)
  | ended (s : State)
deriving DecidableEq, Repr

/-- The next statements of the pseudocode; none of them runs after a `raise` (R13, R215). -/
def Flow.andThen (f : Flow) (g : State → Flow) : Flow :=
  match f with
  | .goOn s => g s
  | .ended s => .ended s

/-- The end of the pseudocode: success unless a `raise` has ended the command (R215). -/
def Flow.finish : Flow → State
  | .goOn s => s.succeed
  | .ended s => s

/-! ### Constants fixed by the source (R9) -/

/-- `HDR_BYTES` -/
def hdrBytes : Nat := 5
/-- `HDR_BITS` -/
def hdrBits : Nat := 40
/-- `MAX_DLEN` -/
def maxDlen : Nat := 10000000
/-- `CTHRESH` -/
def cThresh : Nat := 100
/-- `MIN_SAMPLES` -/
def minSamples : Nat := 40

/-- `ceil8(n) = (n + 7) div 8` (R12). -/
def ceil8 (n : Nat) : Nat := (n + 7) / 8

end Sys2Proof.Machine
end

