-- ==== Sys2Proof/Machine/Operands.lean ====
section
/-! DEFINITION. The operands: the register map and its accesses (10_state.md R20, 20_memory.md R61), the buffers' host
accesses (R62), and the operand forms of the commands (30_encoding.md R89). -/

namespace Sys2Proof.Machine

/-! ### The register map -/

/-- The slot number of a register; its offset is eight times this (R20). -/
def Reg.slot : Reg → Nat
  | .cmd => 0 | .status => 1 | .result => 2 | .ctrl => 3 | .config => 4 | .bpp => 5 | .nsamp => 6 | .paylen => 7
  | .frmlen => 8 | .bitlen => 9 | .bitpos => 10 | .cnt => 11 | .dlen => 12 | .metadata => 13 | .hbpp => 14
  | .capbits => 15 | .capbytes => 16 | .hdrbits => 17 | .avail => 18 | .req => 19

/-- The byte offset of a register (R20). -/
def Reg.offset (r : Reg) : Nat := 8 * r.slot

/-- The register at a byte offset; none at any offset but 0x00, 0x08, ..., 0x98 (R61, R72). -/
def Reg.ofOffset (off : Nat) : Option Reg :=
  match off with
  | 0x00 => some .cmd
  | 0x08 => some .status
  | 0x10 => some .result
  | 0x18 => some .ctrl
  | 0x20 => some .config
  | 0x28 => some .bpp
  | 0x30 => some .nsamp
  | 0x38 => some .paylen
  | 0x40 => some .frmlen
  | 0x48 => some .bitlen
  | 0x50 => some .bitpos
  | 0x58 => some .cnt
  | 0x60 => some .dlen
  | 0x68 => some .metadata
  | 0x70 => some .hbpp
  | 0x78 => some .capbits
  | 0x80 => some .capbytes
  | 0x88 => some .hdrbits
  | 0x90 => some .avail
  | 0x98 => some .req
  | _ => none

/-- The width of a register (R20). -/
def Reg.width : Reg → Nat
  | .cmd => 32 | .status => 3 | .result => 4 | .ctrl => 1 | .config => 1 | .bpp => 32 | .nsamp => 64 | .paylen => 64
  | .frmlen => 64 | .bitlen => 64 | .bitpos => 64 | .cnt => 64 | .dlen => 32 | .metadata => 8 | .hbpp => 2
  | .capbits => 64 | .capbytes => 64 | .hdrbits => 64 | .avail => 64 | .req => 64

/-- "RO" of R20: a host write is ignored. -/
def Reg.readOnly : Reg → Bool
  | .status | .result | .config | .hbpp | .capbits | .capbytes | .hdrbits | .avail | .req => true
  | .cmd | .ctrl | .bpp | .nsamp | .paylen | .frmlen | .bitlen | .bitpos | .cnt | .dlen | .metadata => false

/-- `RegRead`: the 64-bit value of a slot, zeros above the register's width (R20, R61). `HDRBITS` reads 40 always
(R38); `CONFIG` reads `DEFLATE_PRESENT` (R25). -/
def State.regRead (s : State) : Reg → Word64
  | .cmd => s.cmd.setWidth 64
  | .status => s.status.toWord.setWidth 64
  | .result => s.result.setWidth 64
  | .ctrl => s.ctrl.setWidth 64
  | .config => (BitVec.ofBool s.params.deflatePresent).setWidth 64
  | .bpp => s.bpp.setWidth 64
  | .nsamp => s.nsamp
  | .paylen => s.paylen
  | .frmlen => s.frmlen
  | .bitlen => s.bitlen
  | .bitpos => s.bitpos
  | .cnt => s.cnt
  | .dlen => s.dlen.setWidth 64
  | .metadata => s.metadata.setWidth 64
  | .hbpp => s.hbpp.setWidth 64
  | .capbits => s.capbits
  | .capbytes => s.capbytes
  | .hdrbits => BitVec.ofNat 64 hdrBits
  | .avail => s.avail
  | .req => s.req

/-- `RegWrite` as far as it stores: the low `w` bits of the value in a register of width `w`; a read-only register
ignores the write (R20). What a `CMD` write does besides storing is `hostStep`'s (R21). -/
def State.regWrite (s : State) (r : Reg) (v : Word64) : State :=
  match r with
  | .cmd => { s with cmd := v.setWidth 32 }
  | .ctrl => { s with ctrl := v.setWidth 1 }
  | .bpp => { s with bpp := v.setWidth 32 }
  | .nsamp => { s with nsamp := v }
  | .paylen => { s with paylen := v }
  | .frmlen => { s with frmlen := v }
  | .bitlen => { s with bitlen := v }
  | .bitpos => { s with bitpos := v }
  | .cnt => { s with cnt := v }
  | .dlen => { s with dlen := v.setWidth 32 }
  | .metadata => { s with metadata := v.setWidth 8 }
  | .status | .result | .config | .hbpp | .capbits | .capbytes | .hdrbits | .avail | .req => s

/-! ### Host accesses to the buffers -/

/-- The depth of a buffer space (R7, R60). -/
def depthOf (p : Params) : Space → Nat
  | .pix => p.pixDepth
  | .pay => p.payDepth
  | .frm => p.frmDepth
  | .bits => p.bitDepth

/-- `HostRead(S, a)`: the entry, zeros above its width (R62). -/
def State.hostRead (s : State) (sp : Space) (a : Nat) : Word64 :=
  match sp with
  | .pix => (s.readPix a).setWidth 64
  | .pay => (s.readPay a).setWidth 64
  | .frm => (s.readFrm a).setWidth 64
  | .bits => (BitVec.ofBool (s.readBit a)).setWidth 64

/-- `HostWrite(S, a, v)`: the low 8 bits of `v`, for `BITS` its bit 0 (R62). -/
def State.hostWrite (s : State) (sp : Space) (a : Nat) (v : Word64) : State :=
  match sp with
  | .pix => { s with pix := memWrite s.pix a [v.setWidth 8] }
  | .pay => { s with pay := memWrite s.pay a [v.setWidth 8] }
  | .frm => { s with frm := memWrite s.frm a [v.setWidth 8] }
  | .bits => { s with bits := memWrite s.bits a [v.getLsbD 0] }

/-! ### Operands of the commands (R89) -/

/-- `BPP in {1, 2, 3}` (R26, R201). -/
def State.bppLegal (s : State) : Bool := s.bpp == 1 || s.bpp == 2 || s.bpp == 3

/-- `NSAMP * BPP`, the number of bit slots of the image, `TotalBits` of R120, not wrapped (R12). -/
def State.slots (s : State) : Nat := s.nsamp.toNat * s.bpp.toNat

/-- The secret, `PAY[0..PAYLEN)` (R28). -/
def State.secret (s : State) : Bytes := memRead s.readPay 0 s.paylen.toNat

/-- `FRM[0..n)` (R29). -/
def State.frmBytes (s : State) (n : Nat) : Bytes := memRead s.readFrm 0 n

/-- `BITS[0..n)` (R30). -/
def State.stream (s : State) (n : Nat) : Bits := memRead s.readBit 0 n

end Sys2Proof.Machine
end

