-- ==== Sys2Proof/Machine/Capacity.lean ====
section
/-! DEFINITION. Capacity calculator (41_capacity.md): the formulas and `CAPQ`. -/

namespace Sys2Proof.Machine

/-- `CapBits(N, bpp) = max(0, N * bpp - 40)` (R120); the subtraction of `Nat` saturates at 0. -/
def capBits (n bpp : Nat) : Nat := n * bpp - hdrBits

/-- `CapBytes(N, bpp) = CapBits(N, bpp) div 8` (R120). -/
def capBytes (n bpp : Nat) : Nat := capBits n bpp / 8

/-- The value `CAPBITS <- max(0, NSAMP * BPP - 40)` stores (R121): the usable capacity modulo 2^64, as every register write
does (R12). It is the capacity itself for every legal `NSAMP` (R27, R41); for the others see log 10. -/
def capRegister (nsamp : Word64) (bpp : BitVec 32) : Word64 := BitVec.ofNat 64 (capBits nsamp.toNat bpp.toNat)

/-- The statements `CAPQ` (R121) and step 4 of `EMBED` (R180) share. `CAPBYTES` is the register `CAPBITS` div 8 (R37). -/
def reportCapacity (s : State) : Flow :=
  if s.nsamp = 0 then .ended (s.raise .imageDecodeError)
  else
    let cap := capRegister s.nsamp s.bpp
    .goOn { s with capbits := cap, capbytes := BitVec.ofNat 64 (cap.toNat / 8) }

/-- `CAPQ` (R121). -/
def capq (s : State) : State :=
  if !s.bppLegal then s.raise .invalidParameter
  else (reportCapacity s).finish

/-- The meaning of `CAPQ` (R121). -/
def execCapq (s : State) : Host.Outcome State Fault Refusal := .next (capq s)

end Sys2Proof.Machine
end

