-- ==== Sys2Proof/Machine/BitPack.lean ====
section
/-! DEFINITION. Bit-packing primitives (40_bitpack.md): the two functions, `B2BITS` and `BITS2B`. -/

namespace Sys2Proof.Machine

/-- The eight bits of a byte, most significant first (R65). -/
def byteBits (d : Byte) : Bits := (List.range 8).map (fun b => d.getLsbD (7 - b))

/-- `bytesToBits` (R110). -/
def bytesToBits (d : Bytes) : Bits := d.flatMap byteBits

/-- One byte of R111: the sum over `b = 0..7` of `bit(b) << (7 - b)`, where `bit(b)` is 0 past the end of `g`. -/
def packByte (g : Bits) : Byte :=
  BitVec.ofNat 8 (((List.range 8).map (fun b => (g.getD b false).toNat <<< (7 - b))).sum)

/-- `n` bytes packed from consecutive groups of eight bits of `s`. -/
def packBytes : Nat → Bits → Bytes
  | 0, _ => []
  | n + 1, s => packByte (s.take 8) :: packBytes n (s.drop 8)

/-- `bitsToBytes` (R111): zero bits pad the last byte on the right. -/
def bitsToBytes (s : Bits) : Bytes := packBytes (ceil8 s.length) s

/-- The statements `B2BITS` (R113) and step 3 of `EMBED` (R180) share. -/
def frameToBits (s : State) : Flow :=
  if 8 * s.frmlen.toNat > s.params.bitDepth then .ended (s.raise .resourceExceeded)
  else .goOn (s.putBits (bytesToBits (s.frmBytes s.frmlen.toNat)))

/-- `B2BITS` (R113). -/
def b2bits (s : State) : State :=
  if s.frmlen.toNat > s.params.frmDepth then s.raise .resourceExceeded
  else (frameToBits s).finish

/-- The meaning of `B2BITS` (R113): total, so always a next state (R18). -/
def execB2bits (s : State) : Host.Outcome State Fault Refusal := .next (b2bits s)

/-- `BITS2B` (R114). -/
def bits2b (s : State) : State :=
  if s.bitlen.toNat > s.params.bitDepth then s.raise .resourceExceeded
  else if ceil8 s.bitlen.toNat > s.params.frmDepth then s.raise .resourceExceeded
  else (s.putFrm (bitsToBytes (s.stream s.bitlen.toNat))).succeed

/-- The meaning of `BITS2B` (R114). -/
def execBits2b (s : State) : Host.Outcome State Fault Refusal := .next (bits2b s)

end Sys2Proof.Machine
end

