-- ==== Sys2Proof/Machine/Compression.lean ====
section
/-! DEFINITION. The optional compression stage (44_compression.md). -/

namespace Sys2Proof.Machine

/-- `Compress` of R8: fails always when `DEFLATE_PRESENT = 0`. -/
def compress (codec : Codec) (present : Bool) (x : Bytes) : Option Bytes :=
  if present then codec.compress x else none

/-- `Decompress` of R8: fails always when `DEFLATE_PRESENT = 0`. -/
def decompress (codec : Codec) (present : Bool) (y : Bytes) : Option Bytes :=
  if present then codec.decompress y else none

/-- `CompressStage(secret, cdis)` (R170): the body to be framed and the compression flag. -/
def compressStage (codec : Codec) (present : Bool) (secret : Bytes) (cdis : Bool) : Bytes × Bool :=
  if cdis then (secret, false)
  else if secret.length ≤ cThresh then (secret, false)
  else match compress codec present secret with
    | none => (secret, false)
    | some y => if y.length < secret.length then (y, true) else (secret, false)

/-- `DecompressStage(body, c)` (R174); `none` is its `raise DecompressionError`, which the calling command performs. -/
def decompressStage (codec : Codec) (present : Bool) (body : Bytes) (c : Bool) : Option Bytes :=
  if c then decompress codec present body else some body

end Sys2Proof.Machine
end

