-- ==== Sys2Proof/Machine/Frame.lean ====
section
/-! DEFINITION. Frame codec: the wire format (30_encoding.md R90 to R97), `FBUILD`, `FPARSE`, `FBODY` (42_frame.md). -/

namespace Sys2Proof.Machine

/-- The metadata byte Build packs, `(c << 7) | (bpp & 0x07)` (R92, R93). -/
def metadataByte (c : Bool) (bpp : BitVec 32) : Byte :=
  ((BitVec.ofBool c).setWidth 8 <<< 7) ||| (bpp.setWidth 8 &&& 0x07)

/-- `PackHeader(L, c, bpp)` (R93): the length big-endian, then the metadata byte. -/
def packHeader (len : BitVec 32) (c : Bool) (bpp : BitVec 32) : Bytes :=
  [len.extractLsb' 24 8, len.extractLsb' 16 8, len.extractLsb' 8 8, len.extractLsb' 0 8, metadataByte c bpp]

/-- What `ParseHeader` yields (R96). -/
structure Header where
  /-- `L`, the body length -/
  len : BitVec 32
  /-- the metadata byte as found -/
  metadata : Byte
  /-- the compression flag -/
  c : Bool
  /-- the bits-per-pixel field after the fallback -/
  hbpp : BitVec 2
deriving DecidableEq, Repr

/-- The fallback of R96, R97: the field `BPPF` when it is 1, 2 or 3, else 1. -/
def headerBpp (m : Byte) : BitVec 2 :=
  let f := m.extractLsb' 0 3
  if f = 1 ∨ f = 2 ∨ f = 3 then f.setWidth 2 else 1

/-- `ParseHeader(b)` (R96). -/
def parseHeader (b : Bits) : Header :=
  let h := bitsToBytes b
  let m := h.getD 4 0
  { len := h.getD 0 0 ++ h.getD 1 0 ++ h.getD 2 0 ++ h.getD 3 0
    metadata := m
    c := m.getLsbD 7
    hbpp := headerBpp m }

/-- The statements `FBUILD` (R130) and step 2 of `EMBED` (R180) share. -/
def buildFrame (codec : Codec) (s : State) : Flow :=
  if s.paylen.toNat > s.params.payDepth then .ended (s.raise .resourceExceeded)
  else
    let (body, c) := compressStage codec s.params.deflatePresent s.secret s.cdis
    if hdrBytes + body.length > s.params.frmDepth then .ended (s.raise .resourceExceeded)
    else
      let len := BitVec.ofNat 32 body.length
      .goOn { s.putFrm (packHeader len c s.bpp ++ body) with dlen := len, metadata := metadataByte c s.bpp }

/-- `FBUILD` (R130) with a given codec. -/
def fbuild (codec : Codec) (s : State) : State := (buildFrame codec s).finish

/-- The meaning of `FBUILD` (R130). -/
def execFbuild (s : State) : Host.Outcome State Fault Refusal := .next (fbuild Config.codec s)

/-- The statements `FPARSE` (R131) and step 2 of `EXTRACT` (R181) share: a header's 40 bits parsed and latched. -/
def latchHeader (b : Bits) (s : State) : Flow :=
  let h := parseHeader b
  if h.len.toNat > maxDlen then .ended (s.raise .invalidDataLength)
  else .goOn { s with dlen := h.len, metadata := h.metadata, hbpp := h.hbpp }

/-- `FPARSE` (R131). -/
def fparse (s : State) : State :=
  if s.bitlen.toNat > s.params.bitDepth then s.raise .resourceExceeded
  else if s.bitlen.toNat < hdrBits then s.raise .corruptHeader
  else (latchHeader (s.stream hdrBits) s).finish

/-- The meaning of `FPARSE` (R131). -/
def execFparse (s : State) : Host.Outcome State Fault Refusal := .next (fparse s)

/-- The statements `FBODY` (R132) and step 5 of `EXTRACT` (R181) share: a body of `n` bytes of `FRM` finished into
`PAY`, decompressed when `META[7]` is set. -/
def deliverBody (codec : Codec) (n : Nat) (s : State) : Flow :=
  match decompressStage codec s.params.deflatePresent (s.frmBytes n) s.metaC with
  | none => .ended (s.raise .decompressionError)
  | some out =>
    if out.length > s.params.payDepth then .ended (s.raise .resourceExceeded)
    else .goOn (s.putPay out)

/-- `FBODY` (R132) with a given codec. -/
def fbody (codec : Codec) (s : State) : State :=
  if s.frmlen.toNat > s.params.frmDepth then s.raise .resourceExceeded
  else (deliverBody codec (min s.frmlen.toNat s.dlen.toNat) s).finish

/-- The meaning of `FBODY` (R132). -/
def execFbody (s : State) : Host.Outcome State Fault Refusal := .next (fbody Config.codec s)

end Sys2Proof.Machine
end

