-- ==== Sys2Proof/Machine/Lsb.lean ====
section
/-! DEFINITION. Pixel-buffer LSB write and read (43_lsb.md): the two loops, `LSBW` and `LSBR`. -/

namespace Sys2Proof.Machine

/-- `SlotAddr(i, bpp)` (30_encoding.md R98): the sample index and the slot, slot 0 being the LSB. -/
def slotAddr (i bpp : Nat) : Nat × Nat := (i / bpp, i % bpp)

/-- One sample with slot `t` cleared and the bit `b` ored in, at width 8 (R150). -/
def setSlot (x : Byte) (t : Nat) (b : Bool) : Byte :=
  (x &&& ~~~(1#8 <<< t)) ||| ((BitVec.ofBool b).setWidth 8 <<< t)

/-- `WriteBits(p, bits, bpp)` (R150): one read-modify-write of a sample per bit, positions `p`, `p+1`, ... -/
def writeBits (bpp : Nat) : Nat → Bits → State → State
  | _, [], s => s
  | p, b :: bs, s =>
    let (q, t) := slotAddr p bpp
    writeBits bpp (p + 1) bs (s.writePix q [setSlot (s.readPix q) t b])

/-- The bit at a global bit position: `(PIX[s] >> t) & 1` (R151). -/
def State.readSlot (s : State) (bpp i : Nat) : Bool :=
  let (q, t) := slotAddr i bpp
  (s.readPix q).getLsbD t

/-- `ReadBits(p, n, bpp)` (R151). -/
def readBits (bpp p n : Nat) (s : State) : Bits := memRead (s.readSlot bpp) p n

/-- `MemWrite(BITS, 0, n, v) ; BITLEN <- n ; BITPOS <- p + n` for the `n` bits `v` read from position `p` (R153, R181). -/
def latchBits (v : Bits) (p : Nat) (s : State) : State :=
  { s.putBits v with bitpos := BitVec.ofNat 64 (p + v.length) }

/-- `LSBW` (R152). -/
def lsbw (s : State) : State :=
  if !s.bppLegal then s.raise .invalidParameter
  else if s.nsamp.toNat > s.params.pixDepth then s.raise .resourceExceeded
  else if s.bitlen.toNat > s.params.bitDepth then s.raise .resourceExceeded
  else if s.bitpos.toNat + s.bitlen.toNat > s.slots then s.raise .capacityExceeded
  else
    let t := writeBits s.bpp.toNat s.bitpos.toNat (s.stream s.bitlen.toNat) s
    { t with bitpos := BitVec.ofNat 64 (s.bitpos.toNat + s.bitlen.toNat) }.succeed

/-- The meaning of `LSBW` (R152). -/
def execLsbw (s : State) : Host.Outcome State Fault Refusal := .next (lsbw s)

/-- `LSBR` (R153). -/
def lsbr (s : State) : State :=
  if !s.bppLegal then s.raise .invalidParameter
  else if s.nsamp.toNat > s.params.pixDepth then s.raise .resourceExceeded
  else if s.cnt.toNat > s.params.bitDepth then s.raise .resourceExceeded
  else if s.bitpos.toNat + s.cnt.toNat > s.slots then s.raise .insufficientData
  else (latchBits (readBits s.bpp.toNat s.bitpos.toNat s.cnt.toNat s) s.bitpos.toNat s).succeed

/-- The meaning of `LSBR` (R153). -/
def execLsbr (s : State) : Host.Outcome State Fault Refusal := .next (lsbr s)

end Sys2Proof.Machine
end

