-- ==== Sys2Proof/Machine/Orchestration.lean ====
section
/-! DEFINITION. Top-level Embed and Extract (45_orchestration.md): `EMBED` and `EXTRACT`. -/

namespace Sys2Proof.Machine

/-- The comparison of step 4 of `EMBED` (R180), with the report in `AVAIL` and `REQ` (R39, R40). -/
def checkFits (s : State) : Flow :=
  if s.bitlen.toNat > s.slots then
    .ended ({ s with avail := s.capbytes, req := s.dlen.setWidth 64 }.raise .capacityExceeded)
  else .goOn s

/-- Step 5 of `EMBED` (R180): the stream written from position 0. -/
def writeFrame (s : State) : Flow :=
  .goOn { writeBits s.bpp.toNat 0 (s.stream s.bitlen.toNat) s with bitpos := s.bitlen }

/-- `EMBED` (R180) with a given codec. -/
def embed (codec : Codec) (s : State) : State :=
  if !s.bppLegal then s.raise .invalidParameter
  else if s.nsamp.toNat > s.params.pixDepth then s.raise .resourceExceeded
  else ((((buildFrame codec s).andThen frameToBits).andThen reportCapacity).andThen checkFits).andThen writeFrame
    |>.finish

/-- The meaning of `EMBED` (R180). -/
def execEmbed (s : State) : Host.Outcome State Fault Refusal := .next (embed Config.codec s)

/-- Steps 3 and 4 of `EXTRACT` (R181): the body's bits read from position 40 into `BITS`, their bytes into `FRM`. The
length `L` is the value step 2 left in `DLEN`. -/
def readBody (s : State) : Flow :=
  let len := s.dlen.toNat
  if hdrBits + 8 * len > s.slots then .ended (s.raise .insufficientData)
  else if 8 * len > s.params.bitDepth then .ended (s.raise .resourceExceeded)
  else
    let bb := readBits s.bpp.toNat hdrBits (8 * len) s
    let s' := latchBits bb hdrBits s
    if len > s.params.frmDepth then .ended (s'.raise .resourceExceeded)
    else .goOn (s'.putFrm (bitsToBytes bb))

/-- Step 5 of `EXTRACT` (R181): the body of `FBODY` on `L` bytes. -/
def finishBody (codec : Codec) (s : State) : Flow := deliverBody codec s.dlen.toNat s

/-- `EXTRACT` (R181) with a given codec. -/
def extract (codec : Codec) (s : State) : State :=
  if !s.bppLegal then s.raise .invalidParameter
  else if s.nsamp.toNat > s.params.pixDepth then s.raise .resourceExceeded
  else if s.nsamp.toNat < minSamples then s.raise .insufficientData
  else
    let hb := readBits s.bpp.toNat 0 hdrBits s
    ((latchHeader hb (latchBits hb 0 s)).andThen readBody).andThen (finishBody codec) |>.finish

/-- The meaning of `EXTRACT` (R181). -/
def execExtract (s : State) : Host.Outcome State Fault Refusal := .next (extract Config.codec s)

end Sys2Proof.Machine
end

