-- ==== Sys2Proof/Machine/Dispatch.lean ====
section
/-! DEFINITION. One arm per command of Instr. -/

namespace Sys2Proof.Machine

def exec (i : Instr) (s : State) : Host.Outcome State Fault Refusal :=
  match i with
  | .b2bits => Sys2Proof.Machine.execB2bits s
  | .bits2b => Sys2Proof.Machine.execBits2b s
  | .capq => Sys2Proof.Machine.execCapq s
  | .fbuild => Sys2Proof.Machine.execFbuild s
  | .fparse => Sys2Proof.Machine.execFparse s
  | .fbody => Sys2Proof.Machine.execFbody s
  | .lsbw => Sys2Proof.Machine.execLsbw s
  | .lsbr => Sys2Proof.Machine.execLsbr s
  | .embed => Sys2Proof.Machine.execEmbed s
  | .extract => Sys2Proof.Machine.execExtract s

end Sys2Proof.Machine
end

