-- ==== Sys2Proof/Machine/HostPort.lean ====
section
/-! DEFINITION. What the machine does with one host action (20_memory.md R61, R62, R71, R74; 70_reset_and_hazards.md
R230 to R232). -/

namespace Sys2Proof.Machine

/-- The `CMD` write itself: the low 32 bits stored, `BUSY` set until the command completes (R21, R22). -/
def State.startCommand (s : State) (v : Word64) : State :=
  { s with cmd := v.setWidth 32, status := s.status.started }

/-- The command in `CMD` decoded and executed; an illegal word raises `IllegalCommand` and nothing else (R21, R86, R88). -/
def runCommand (s : State) : Host.Outcome State Fault Refusal :=
  match decode s.cmd with
  | .ok i => exec i s
  | .error _ => .next (s.raise .illegalCommand)

/-- Reset (R230, R231): the registers at their reset values, every buffer entry any value anew, no command started.
The parameters are the block's; the host's queue and what it last read are the host's (log 15). -/
def State.assertReset (s : State) : State :=
  { State.resetWith s.params with epoch := s.epoch + 1, host := s.host, dataOut := s.dataOut }

/-- One host action (R243). A register access off the map or a buffer access at or above the depth is not admitted
(U3; log 8). -/
def performAction (a : HostAction) (s : State) : Host.Outcome State Fault Refusal :=
  match a with
  | .regRead off =>
    match Reg.ofOffset off with
    | some r => .next { s with dataOut := s.regRead r }
    | none => .refused (.noSuchRegister off)
  | .regWrite off v =>
    match Reg.ofOffset off with
    | some .cmd => runCommand (s.startCommand v)
    | some r => .next (s.regWrite r v)
    | none => .refused (.noSuchRegister off)
  | .bufRead sp i =>
    if i < depthOf s.params sp then .next { s with dataOut := s.hostRead sp i } else .refused (.noSuchEntry sp i)
  | .bufWrite sp i v =>
    if i < depthOf s.params sp then .next (s.hostWrite sp i v) else .refused (.noSuchEntry sp i)
  | .reset => .next s.assertReset

/-- The next host action, taken from the queue and performed whole (R74). With none, the engine does nothing (R232). -/
def hostStep (s : State) : Host.Outcome State Fault Refusal :=
  match s.host with
  | [] => .next s
  | a :: rest => performAction a { s with host := rest }

end Sys2Proof.Machine
end

