-- ==== Sys2Proof/Machine/Step.lean ====
section
/-! DEFINITION. One step of the machine: one host action (00_scope.md R19). -/

namespace Sys2Proof.Machine

/-- One step: the next host action performed whole; `CMD` writes run their command within it (R19, R74). -/
def step (s : State) : Host.Outcome State Fault Refusal := hostStep s

/-- `s` with the command word `w` as the host's next action, a write to `CMD` (R21, R76): there is no program counter
and no instruction memory, so this is where the machine takes its next instruction from (log 5). -/
def State.withFetchWord (s : State) (nbits w : Nat) : State :=
  { s with host := .regWrite 0x00 (BitVec.ofNat 64 (w % 2 ^ nbits)) :: s.host }

end Sys2Proof.Machine
end

