-- ==== Sys2Proof/WellFormed.lean ====
section
/-! DEFINITION. What is well formed: a command, a command word, the parameters (00_scope.md R7), a host action (U3). -/

namespace Sys2Proof

/-- A command has no operand field (30_encoding.md R85), so each of the ten is well formed. -/
def Instr.wf : Instr → Bool
  | .b2bits | .bits2b | .capq | .fbuild | .fparse | .fbody | .lsbw | .lsbr | .embed | .extract => true

/-- A command word the decoder maps to a command: bits 31:8 zero, bits 7:0 one of 0x01 to 0x08, 0x10, 0x11 (R86, R88). -/
def wordWf (w : CmdWord) : Bool :=
  w.toNat / 256 = 0 && ((1 ≤ w.toNat % 256 && w.toNat % 256 ≤ 8) || w.toNat % 256 = 0x10 || w.toNat % 256 = 0x11)

/-- The constraints of R7 on the four depths. -/
def Params.wf (p : Params) : Bool :=
  decide (1 ≤ p.pixDepth) && decide (p.pixDepth ≤ 2 ^ 32 - 1) && decide (p.payDepth ≤ 2 ^ 32 - 1) &&
    decide (5 ≤ p.frmDepth) && decide (p.frmDepth ≤ 2 ^ 32 + 4) &&
    decide (40 ≤ p.bitDepth) && decide (p.bitDepth ≤ 8 * (2 ^ 32 + 4))

end Sys2Proof

namespace Sys2Proof.Machine

/-- The host actions the spec gives a meaning: register accesses at an offset of the map, buffer accesses at an index
below the depth, and reset (R61, R62, U3). -/
def HostAction.wf (p : Params) : HostAction → Bool
  | .regRead off | .regWrite off _ => (Reg.ofOffset off).isSome
  | .bufRead sp a | .bufWrite sp a _ => decide (a < depthOf p sp)
  | .reset => true

end Sys2Proof.Machine
end

