-- ==== Sys2Proof/Safety.lean ====
section
/-! DEFINITION. What counts as a safe state of the machine, and the terms the statements use: what a register or a buffer
holds, said entry by entry through the machine's reads. -/

namespace Sys2Proof.Machine

/-- What the registers and buffers satisfy between host actions: the parameters keep R7; the buffers keep their
canonical form; no command is running (R22); `ERR` is exactly `RESULT != 0` (R22); `RESULT` is a code of R210; an error
has been reported only if a command has completed (R22, R23); and `CAPBYTES` is `CAPBITS div 8` (R37). -/
structure State.Inv (s : State) : Prop where
  paramsWf : s.params.wf = true
  memoryWf : Memory.wf s = true
  notBusy : s.status.busy = false
  errIffResult : s.status.err = true ↔ s.result ≠ 0
  resultIsCode : s.result.toNat ≤ 9
  errOnlyWhenDone : s.result ≠ 0 → s.status.done = true
  capbytesOfCapbits : s.capbytes.toNat = s.capbits.toNat / 8

/-- `BPP` is 1, 2 or 3 (R26). -/
abbrev State.BppIs123 (s : State) : Prop := s.bpp = 1 ∨ s.bpp = 2 ∨ s.bpp = 3

/-- The state error entry leaves: `RESULT` the code, `DONE` and `ERR` set, `BUSY` clear, nothing else changed (R215). -/
abbrev State.withError (s : State) (code : BitVec 4) : State := { s with result := code, status := ⟨true, true, false⟩ }

/-- The flags after a success (R215). -/
abbrev okStatus : Status := ⟨true, false, false⟩

/-- The flags after an error (R215). -/
abbrev errStatus : Status := ⟨true, true, false⟩

/-- `FRM`, `FRMLEN`, `DLEN` and `META` of `t` hold the frame of `body` with flag `c` and `BPP` of `s` (R90, R92); entries
of `FRM` past the frame are those of `s` (R49). -/
structure FrameHeld (body : Bytes) (c : Bool) (s t : State) : Prop where
  frmlen : t.frmlen.toNat = 5 + body.length
  dlen : t.dlen.toNat = body.length
  metadata : t.metadata.toNat = 128 * c.toNat + s.bpp.toNat % 8
  length3 : (t.readFrm 0).toNat = body.length / 2 ^ 24
  length2 : (t.readFrm 1).toNat = body.length / 2 ^ 16 % 256
  length1 : (t.readFrm 2).toNat = body.length / 2 ^ 8 % 256
  length0 : (t.readFrm 3).toNat = body.length % 256
  metaByte : t.readFrm 4 = t.metadata
  bodyBytes : ∀ j (h : j < body.length), t.readFrm (5 + j) = body[j]
  stale : ∀ j, 5 + body.length ≤ j → t.readFrm j = s.readFrm j

/-- `BITS` and `BITLEN` of `t` hold the stream of `FRM[0..FRMLEN)` of `t`, most significant bit first (R65, R110);
entries of `BITS` past it are those of `s` (R49). -/
structure StreamHeld (s t : State) : Prop where
  bitlen : t.bitlen.toNat = 8 * t.frmlen.toNat
  streamBits : ∀ k, k < 8 * t.frmlen.toNat → t.readBit k = (t.readFrm (k / 8)).getLsbD (7 - k % 8)
  stale : ∀ k, 8 * t.frmlen.toNat ≤ k → t.readBit k = s.readBit k

/-- `PIX` of `t` is `PIX` of `s` with the `n` bits `bit 0`, `bit 1`, ... at the positions `p`, `p+1`, ...: position
`q * bpp + u` is slot `u` of sample `q`, and every other bit of every sample is as it was (R98, R150, R154). -/
def SlotsHold (bpp p n : Nat) (bit : Nat → Bool) (s t : State) : Prop :=
  ∀ q u, u < 8 → (t.readPix q).getLsbD u =
    if u < bpp ∧ p ≤ q * bpp + u ∧ q * bpp + u < p + n then bit (q * bpp + u - p) else (s.readPix q).getLsbD u

/-- The bit at global position `i` of the image (R98, R151). -/
def State.slotBit (s : State) (i : Nat) : Bool := (s.readPix (i / s.bpp.toNat)).getLsbD (i % s.bpp.toNat)

/-- `PAY` and `PAYLEN` of `t` hold `out`; entries of `PAY` past it are those of `s` (R46, R49). -/
structure PayloadHeld (out : Bytes) (s t : State) : Prop where
  paylen : t.paylen.toNat = out.length
  bytes : ∀ j (h : j < out.length), t.readPay j = out[j]
  stale : ∀ j, out.length ≤ j → t.readPay j = s.readPay j

/-- Forty bits spell a header of length field `len` and metadata byte `m`, most significant bits first (R65, R90). -/
structure HeaderSpelt (bit : Nat → Bool) (len : BitVec 32) (m : Byte) : Prop where
  len : ∀ k, k < 32 → len.getLsbD (31 - k) = bit k
  metadata : ∀ k, k < 8 → m.getLsbD (7 - k) = bit (32 + k)

/-- Bits spell the bytes of `body`, most significant bit first (R65). -/
def BytesSpelt (bit : Nat → Bool) (body : Bytes) : Prop :=
  ∀ j b (h : j < body.length), b < 8 → body[j].getLsbD (7 - b) = bit (8 * j + b)

/-- The bits-per-pixel a header's metadata byte stands for, with the fallback (R96, R97). -/
def fallbackBpp (m : Byte) : Nat := if m.toNat % 8 = 1 ∨ m.toNat % 8 = 2 ∨ m.toNat % 8 = 3 then m.toNat % 8 else 1

end Sys2Proof.Machine
end

