-- ==== Sys2Proof/Certificates/Slice0/Obligations.lean ====
section
/-! DEFINITION. The statements for the provers. Buffers are spoken of through the reads of single entries; a frame is
said as `t = { s with ... }`, naming the fields that may differ. -/

open Sys2Proof Sys2Proof.Machine

/-! ### Command words -/

/-- R87: the ten words and their commands. -/
def Obligations.CommandWordsDecodeToTheirCommands : Prop :=
  decode 0x00000001 = .ok .b2bits ∧ decode 0x00000002 = .ok .bits2b ∧ decode 0x00000003 = .ok .capq ∧
  decode 0x00000004 = .ok .fbuild ∧ decode 0x00000005 = .ok .fparse ∧ decode 0x00000006 = .ok .fbody ∧
  decode 0x00000007 = .ok .lsbw ∧ decode 0x00000008 = .ok .lsbr ∧ decode 0x00000010 = .ok .embed ∧
  decode 0x00000011 = .ok .extract

/-- Decode and encode agree in both directions, for every command and every one of the 2^32 words. -/
def Obligations.EncodeAndDecodeAgree : Prop :=
  (∀ i : Instr, i.wf = true → decode (encode i) = .ok i) ∧
  (∀ (w : CmdWord) (i : Instr), decode w = .ok i → encode i = w)

/-- R21: the step that performs a `CMD` write stores the low 32 bits, sets `BUSY`, and runs the command they encode.
-/
def Obligations.CmdWriteRunsTheDecodedCommand : Prop :=
  ∀ (s : State) (v : Word64) (rest : List HostAction) (i : Instr),
    s.host = .regWrite 0x00 v :: rest → decode (v.setWidth 32) = .ok i →
    step s = exec i { s with host := rest, cmd := v.setWidth 32, status := { s.status with busy := true } }

/-- R88, R208: every word with a bit set in 31:8, or with a low byte that is no opcode of R87, is illegal: `CMD` holds
the word, `RESULT` is 8, `DONE` and `ERR` are set, and nothing else changes. -/
def Obligations.IllegalWordChangesOnlyCmdStatusResult : Prop :=
  ∀ (s : State) (v : Word64) (rest : List HostAction),
    s.host = .regWrite 0x00 v :: rest →
    (v.toNat % 2 ^ 32 / 256 ≠ 0 ∨
      v.toNat % 256 ∉ [0x01, 0x02, 0x03, 0x04, 0x05, 0x06, 0x07, 0x08, 0x10, 0x11]) →
    step s = .next { s with host := rest, cmd := v.setWidth 32, result := 8, status := errStatus }

/-! ### The host's port -/

/-- R20: offset, width and access of the twenty registers, in slot order. -/
def Obligations.RegisterMapIsTheTable : Prop :=
  [Reg.cmd, .status, .result, .ctrl, .config, .bpp, .nsamp, .paylen, .frmlen, .bitlen, .bitpos, .cnt, .dlen, .metadata,
    .hbpp, .capbits, .capbytes, .hdrbits, .avail, .req].map (fun r => (r.offset, r.width, r.readOnly)) =
  [(0x00, 32, false), (0x08, 3, true), (0x10, 4, true), (0x18, 1, false), (0x20, 1, true), (0x28, 32, false),
    (0x30, 64, false), (0x38, 64, false), (0x40, 64, false), (0x48, 64, false), (0x50, 64, false), (0x58, 64, false),
    (0x60, 32, false), (0x68, 8, false), (0x70, 2, true), (0x78, 64, true), (0x80, 64, true), (0x88, 64, true),
    (0x90, 64, true), (0x98, 64, true)] ∧
  ∀ r : Reg, Reg.ofOffset r.offset = some r

/-- R20, R71: a host write to a register other than `CMD` stores the low bits of its width, or nothing when the
register is read-only; every other register, every buffer and the parameters are as before. -/
def Obligations.HostRegisterWriteStoresItsLowBits : Prop :=
  ∀ (s : State) (r : Reg) (v : Word64) (rest : List HostAction),
    r ≠ .cmd → s.host = .regWrite r.offset v :: rest →
    ∃ t, step s = .next t ∧
      (t.regRead r).toNat = (if r.readOnly then (s.regRead r).toNat else v.toNat % 2 ^ r.width) ∧
      (∀ r', r' ≠ r → t.regRead r' = s.regRead r') ∧
      t = { s with host := rest, ctrl := t.ctrl, bpp := t.bpp, nsamp := t.nsamp, paylen := t.paylen,
                   frmlen := t.frmlen, bitlen := t.bitlen, bitpos := t.bitpos, cnt := t.cnt, dlen := t.dlen,
                   metadata := t.metadata }

/-- R71: a host read, of a register or of a buffer entry below the depth, returns the value and changes nothing (the
port's `dataOut` is the model's own field, log 6). Every register's value fits its width, zeros above (R20). In every
state a register reads as what the machine holds under its name: `STATUS` as `DONE` in bit 0, `ERR` in bit 1, `BUSY` in
bit 2 (R22), `CONFIG` as `DEFLATE_PRESENT` (R25), `HDRBITS` as 40 (R38). -/
def Obligations.HostReadsReturnTheValueAndChangeNothing : Prop :=
  (∀ (s : State) (r : Reg) (rest : List HostAction), s.host = .regRead r.offset :: rest →
    (s.regRead r).toNat < 2 ^ r.width ∧ step s = .next { s with host := rest, dataOut := s.regRead r }) ∧
  (∀ (s : State) (sp : Space) (a : Nat) (rest : List HostAction), s.host = .bufRead sp a :: rest →
    a < depthOf s.params sp → step s = .next { s with host := rest, dataOut := s.hostRead sp a }) ∧
  (∀ (s : State) (a : Nat), (s.hostRead .pix a).toNat = (s.readPix a).toNat ∧
    (s.hostRead .pay a).toNat = (s.readPay a).toNat ∧ (s.hostRead .frm a).toNat = (s.readFrm a).toNat ∧
    (s.hostRead .bits a).toNat = (s.readBit a).toNat) ∧
  (∀ (s : State) (r : Reg), (s.regRead r).toNat = match r with
    | .cmd => s.cmd.toNat
    | .status => s.status.done.toNat + 2 * s.status.err.toNat + 4 * s.status.busy.toNat
    | .result => s.result.toNat
    | .ctrl => s.ctrl.toNat
    | .config => s.params.deflatePresent.toNat
    | .bpp => s.bpp.toNat
    | .nsamp => s.nsamp.toNat
    | .paylen => s.paylen.toNat
    | .frmlen => s.frmlen.toNat
    | .bitlen => s.bitlen.toNat
    | .bitpos => s.bitpos.toNat
    | .cnt => s.cnt.toNat
    | .dlen => s.dlen.toNat
    | .metadata => s.metadata.toNat
    | .hbpp => s.hbpp.toNat
    | .capbits => s.capbits.toNat
    | .capbytes => s.capbytes.toNat
    | .hdrbits => 40
    | .avail => s.avail.toNat
    | .req => s.req.toNat)

/-- R62: a host write to a buffer entry below the depth stores the low 8 bits (for `BITS` bit 0) there, changes no
other entry of any buffer and no register, whatever the length registers hold; at or above the depth it is not
admitted. -/
def Obligations.HostBufferWriteStoresOneEntry : Prop :=
  ∀ (s : State) (sp : Space) (a : Nat) (v : Word64) (rest : List HostAction),
    s.host = .bufWrite sp a v :: rest →
    (a < depthOf s.params sp → ∃ t, step s = .next t ∧
      (t.hostRead sp a).toNat = (if sp = .bits then v.toNat % 2 else v.toNat % 256) ∧
      (∀ sp' a', ¬ (sp' = sp ∧ a' = a) → t.hostRead sp' a' = s.hostRead sp' a') ∧
      t = { s with host := rest, pix := t.pix, pay := t.pay, frm := t.frm, bits := t.bits }) ∧
    (depthOf s.params sp ≤ a → step s = .refused (.noSuchEntry sp a))

/-- U3: the step answers a next state exactly when there is no host action or the next one has a meaning: a register
offset 0x00, 0x08, ..., 0x98, a buffer index below the depth, or reset. It never faults, and it refuses every other
action by name: a register access at another offset under that offset, a buffer access at or above the depth under
that buffer and index. -/
def Obligations.StepRefusesExactlyTheMeaninglessActions : Prop :=
  (∀ s : State, (∃ t, step s = .next t) ↔
    (s.host = [] ∨
      (∃ off v rest, (s.host = .regRead off :: rest ∨ s.host = .regWrite off v :: rest) ∧ ∃ n < 20, off = 8 * n) ∨
      (∃ sp a v rest, (s.host = .bufRead sp a :: rest ∨ s.host = .bufWrite sp a v :: rest) ∧ a < depthOf s.params sp) ∨
      (∃ rest, s.host = .reset :: rest))) ∧
  (∀ s : State, (∀ t, step s ≠ .next t) →
    (∃ off, step s = .refused (.noSuchRegister off)) ∨ (∃ sp a, step s = .refused (.noSuchEntry sp a))) ∧
  (∀ (s : State) (off : Nat) (v : Word64) (rest : List HostAction),
    s.host = .regRead off :: rest ∨ s.host = .regWrite off v :: rest → (∀ n, n < 20 → off ≠ 8 * n) →
    step s = .refused (.noSuchRegister off)) ∧
  (∀ (s : State) (sp : Space) (a : Nat) (v : Word64) (rest : List HostAction),
    s.host = .bufRead sp a :: rest ∨ s.host = .bufWrite sp a v :: rest → depthOf s.params sp ≤ a →
    step s = .refused (.noSuchEntry sp a))

/-- R232: with no host action to perform the engine does nothing. -/
def Obligations.EngineIdlesWithoutHostAction : Prop :=
  ∀ s : State, s.host = [] → step s = .next s

/-! ### Reset -/

/-- R52: what the registers read right after reset, whatever the parameters; and the buffers hold free values
(`Config.freePix` and its like, log 4). -/
def Obligations.ResetLeavesTheTableValues : Prop :=
  (∀ (p : Params) (r : Reg), ((State.resetWith p).regRead r).toNat =
    if r = .hdrbits then 40 else if r = .config then p.deflatePresent.toNat else 0) ∧
  (∀ (p : Params) (a : Nat), (State.resetWith p).readPix a = Config.freePix 0 a ∧
    (State.resetWith p).readPay a = Config.freePay 0 a ∧ (State.resetWith p).readFrm a = Config.freeFrm 0 a ∧
    (State.resetWith p).readBit a = Config.freeBit 0 a) ∧
  State.reset = State.resetWith Config.params

/-- R230, R231: the reset input, from any state: every register at its reset value, every buffer entry a free value of
the new epoch, no command run. The parameters, the host's queue and its last read are kept (the model's choice, log
15). -/
def Obligations.ResetActionGivesTheResetState : Prop :=
  ∀ (s : State) (rest : List HostAction), s.host = .reset :: rest →
    ∃ t, step s = .next t ∧
      (∀ r : Reg, (t.regRead r).toNat =
        if r = .hdrbits then 40 else if r = .config then s.params.deflatePresent.toNat else 0) ∧
      (∀ a, t.readPix a = Config.freePix (s.epoch + 1) a ∧ t.readPay a = Config.freePay (s.epoch + 1) a ∧
        t.readFrm a = Config.freeFrm (s.epoch + 1) a ∧ t.readBit a = Config.freeBit (s.epoch + 1) a) ∧
      t.params = s.params ∧ t.host = rest ∧ t.dataOut = s.dataOut

/-- R38: `HDRBITS` reads 40 in every state. -/
def Obligations.HdrbitsReadsFortyAlways : Prop :=
  ∀ s : State, s.regRead .hdrbits = 40

/-! ### The pure functions -/

/-- R110: eight bits a byte, most significant first, bytes in input order. -/
def Obligations.BytesToBitsIsMsbFirst : Prop :=
  ∀ d : Bytes, (bytesToBits d).length = 8 * d.length ∧
    ∀ j b (hj : j < d.length), b ≤ 7 → (bytesToBits d)[8 * j + b]? = some (d[j].getLsbD (7 - b))

/-- R111: `ceil8(m)` bytes; bit `8*j + b` of the stream, 0 past its end, is bit `7 - b` of byte `j`. -/
def Obligations.BitsToBytesPadsOnTheRight : Prop :=
  ∀ s : Bits, (bitsToBytes s).length = (s.length + 7) / 8 ∧
    ∀ j b (hj : j < (bitsToBytes s).length), b ≤ 7 →
      (bitsToBytes s)[j].getLsbD (7 - b) = (decide (8 * j + b < s.length) && s.getD (8 * j + b) false)

/-- R112, and R115 (the spec's own inference): bytes to bits and back is the identity; bits to bytes and back appends
zero bits up to a multiple of eight. -/
def Obligations.BitPackingRoundTrips : Prop :=
  (∀ x : Bytes, bitsToBytes (bytesToBits x) = x) ∧
  (∀ s : Bits, bytesToBits (bitsToBytes s) = s ++ List.replicate ((8 - s.length % 8) % 8) false)

/-- R94 (the spec's own inference), R97: parsing a packed header gives back the length and the flag, and the field
`BPP & 7` with the fallback to 1; bits 6:3 of the packed metadata byte are 0. -/
def Obligations.ParseHeaderInvertsPackHeader : Prop :=
  ∀ (len : BitVec 32) (c : Bool) (bpp : BitVec 32),
    (parseHeader (bytesToBits (packHeader len c bpp))).len = len ∧
    (parseHeader (bytesToBits (packHeader len c bpp))).c = c ∧
    (parseHeader (bytesToBits (packHeader len c bpp))).metadata.toNat = 128 * c.toNat + bpp.toNat % 8 ∧
    (parseHeader (bytesToBits (packHeader len c bpp))).hbpp.toNat =
      (if bpp.toNat % 8 = 1 ∨ bpp.toNat % 8 = 2 ∨ bpp.toNat % 8 = 3 then bpp.toNat % 8 else 1)

/-- R170, R171, R173, and R172 (the spec's own inference): at or below 100 bytes, with `CDIS` set, or when the
compressor fails, the secret is stored; the body is never longer than the secret; flag 1 implies a strictly shorter
body and a secret of at least 101 bytes; and a secret of at least 101 bytes whose compressed bytes are strictly fewer
is compressed. The compressor and decompressor are the codec's when `DEFLATE_PRESENT` is 1, and fail when it is 0 (R8). -/
def Obligations.CompressionIsUsedOnlyWhenStrictlySmaller : Prop :=
  ∀ (codec : Codec) (present : Bool) (x : Bytes) (cdis : Bool),
    (cdis = true ∨ x.length ≤ 100 ∨ compress codec present x = none →
      compressStage codec present x cdis = (x, false)) ∧
    (compressStage codec present x cdis).1.length ≤ x.length ∧
    ((compressStage codec present x cdis).2 = true →
      (compressStage codec present x cdis).1.length < x.length ∧ 101 ≤ x.length ∧
      compress codec present x = some (compressStage codec present x cdis).1) ∧
    ((compressStage codec present x cdis).2 = false → (compressStage codec present x cdis).1 = x) ∧
    (∀ y, cdis = false → 101 ≤ x.length → compress codec present x = some y → y.length < x.length →
      compressStage codec present x cdis = (y, true)) ∧
    compress codec true x = codec.compress x ∧ decompress codec true x = codec.decompress x ∧
    compress codec false x = none ∧ decompress codec false x = none

/-- R174: with flag 1 the body is decompressed, a failure being the stage's failure; with flag 0 it is returned as it
is. And R176 (the spec's own inference from R170, R174, R8): what the stage makes of a secret, `DecompressStage`
undoes, for every codec. -/
def Obligations.CompressionIsTransparent : Prop :=
  ∀ (codec : Codec) (present : Bool) (x : Bytes) (cdis : Bool),
    decompressStage codec present x true = decompress codec present x ∧
    decompressStage codec present x false = some x ∧
    decompressStage codec present (compressStage codec present x cdis).1 (compressStage codec present x cdis).2 = some x

/-- R98: `SlotAddr` is a bijection between the positions below `n * bpp` and the pairs (sample below `n`, slot below
`bpp`), and position `i` is slot `i mod bpp` of sample `i div bpp`. -/
def Obligations.SlotAddressingIsABijection : Prop :=
  ∀ n bpp : Nat, bpp = 1 ∨ bpp = 2 ∨ bpp = 3 →
    (∀ i, slotAddr i bpp = (i / bpp, i % bpp)) ∧
    (∀ i, i < n * bpp → (slotAddr i bpp).1 < n ∧ (slotAddr i bpp).2 < bpp) ∧
    (∀ i i', slotAddr i bpp = slotAddr i' bpp → i = i') ∧
    (∀ q u, q < n → u < bpp → ∃ i, i < n * bpp ∧ slotAddr i bpp = (q, u))

/-- R154 (the spec's own inference from R150): `WriteBits` puts the stream into its slots, changes no other bit of any
sample, and nothing but `PIX`. -/
def Obligations.WriteBitsTouchesOnlyItsSlots : Prop :=
  ∀ (bpp p : Nat) (v : Bits) (s : State), bpp = 1 ∨ bpp = 2 ∨ bpp = 3 →
    SlotsHold bpp p v.length (fun k => v.getD k false) s (writeBits bpp p v s) ∧
    (0 < v.length → ∀ q, q < p / bpp ∨ (p + v.length - 1) / bpp < q →
      (writeBits bpp p v s).readPix q = s.readPix q) ∧
    writeBits bpp p v s = { s with pix := (writeBits bpp p v s).pix }

/-- R157 (the spec's own inference from R150, R151): the bits written read back. -/
def Obligations.BitsWrittenReadBack : Prop :=
  ∀ (bpp p : Nat) (v : Bits) (s : State), bpp = 1 ∨ bpp = 2 ∨ bpp = 3 →
    readBits bpp p v.length (writeBits bpp p v s) = v

/-- R123 (the spec's own inference from R120): the test on bits and the test on bytes accept the same bodies. -/
def Obligations.BitTestAgreesWithByteTest : Prop :=
  ∀ n bpp len : Nat, 40 + 8 * len ≤ n * bpp ↔ 40 ≤ n * bpp ∧ len ≤ capBytes n bpp

/-! ### The primitive commands -/

/-- R113: `B2BITS`, its two errors and its success. -/
def Obligations.B2bitsFollowsItsRule : Prop :=
  ∀ s : State, s.params.wf = true →
    (s.frmlen.toNat > s.params.frmDepth ∨ 8 * s.frmlen.toNat > s.params.bitDepth →
      exec .b2bits s = .next (s.withError 9)) ∧
    (s.frmlen.toNat ≤ s.params.frmDepth → 8 * s.frmlen.toNat ≤ s.params.bitDepth →
      ∃ t, exec .b2bits s = .next t ∧
        t = { s with bits := t.bits, bitlen := t.bitlen, result := 0, status := okStatus } ∧
        t.bitlen.toNat = 8 * s.frmlen.toNat ∧
        (∀ k, k < 8 * s.frmlen.toNat → t.readBit k = (s.readFrm (k / 8)).getLsbD (7 - k % 8)) ∧
        (∀ k, 8 * s.frmlen.toNat ≤ k → t.readBit k = s.readBit k))

/-- R114: `BITS2B`, its two errors and its success; padding bits are 0 whatever `BITS` holds past `BITLEN`. -/
def Obligations.Bits2bFollowsItsRule : Prop :=
  ∀ s : State, s.params.wf = true →
    (s.bitlen.toNat > s.params.bitDepth ∨ (s.bitlen.toNat + 7) / 8 > s.params.frmDepth →
      exec .bits2b s = .next (s.withError 9)) ∧
    (s.bitlen.toNat ≤ s.params.bitDepth → (s.bitlen.toNat + 7) / 8 ≤ s.params.frmDepth →
      ∃ t, exec .bits2b s = .next t ∧
        t = { s with frm := t.frm, frmlen := t.frmlen, result := 0, status := okStatus } ∧
        t.frmlen.toNat = (s.bitlen.toNat + 7) / 8 ∧
        (∀ j b, j < (s.bitlen.toNat + 7) / 8 → b < 8 →
          (t.readFrm j).getLsbD (7 - b) = (decide (8 * j + b < s.bitlen.toNat) && s.readBit (8 * j + b))) ∧
        (∀ j, (s.bitlen.toNat + 7) / 8 ≤ j → t.readFrm j = s.readFrm j))

/-- R121: `CAPQ`, its two errors in their order and its success, where the usable capacity fits the 64-bit register.
-/
def Obligations.CapqFollowsItsRule : Prop :=
  ∀ s : State,
    (¬ s.BppIs123 → exec .capq s = .next (s.withError 1)) ∧
    (s.BppIs123 → s.nsamp = 0 → exec .capq s = .next (s.withError 2)) ∧
    (s.BppIs123 → s.nsamp ≠ 0 → s.nsamp.toNat * s.bpp.toNat - 40 < 2 ^ 64 →
      ∃ t, exec .capq s = .next t ∧
        t = { s with capbits := t.capbits, capbytes := t.capbytes, result := 0, status := okStatus } ∧
        t.capbits.toNat = max 40 (s.nsamp.toNat * s.bpp.toNat) - 40 ∧
        t.capbytes.toNat = (max 40 (s.nsamp.toNat * s.bpp.toNat) - 40) / 8)

/-- R12, R121 where the usable capacity does not fit `CAPBITS` (which needs an `NSAMP` that R27 calls no legal value): the
command succeeds, `CAPBITS` receives the capacity modulo 2^64, `CAPBYTES` is the register div 8, and nothing else
changes. That R12 holds there, and not the spec's inference R41, is the model's reading (log 10). -/
def Obligations.CapqWrapsPastTheRegister : Prop :=
  ∀ s : State, s.BppIs123 → 2 ^ 64 ≤ s.nsamp.toNat * s.bpp.toNat - 40 →
    ∃ t, exec .capq s = .next t ∧
      t = { s with capbits := t.capbits, capbytes := t.capbytes, result := 0, status := okStatus } ∧
      t.capbits.toNat = (s.nsamp.toNat * s.bpp.toNat - 40) % 2 ^ 64 ∧
      t.capbytes.toNat = t.capbits.toNat / 8

/-- R130: `FBUILD`, its two errors and its success; it does not validate `BPP`. -/
def Obligations.FbuildFollowsItsRule : Prop :=
  ∀ (s : State) (body : Bytes) (c : Bool), s.params.wf = true →
    compressStage Config.codec s.params.deflatePresent ((List.range s.paylen.toNat).map s.readPay) (s.ctrl == 1) =
      (body, c) →
    (s.paylen.toNat > s.params.payDepth ∨ 5 + body.length > s.params.frmDepth →
      exec .fbuild s = .next (s.withError 9)) ∧
    (s.paylen.toNat ≤ s.params.payDepth → 5 + body.length ≤ s.params.frmDepth →
      ∃ t, exec .fbuild s = .next t ∧
        t = { s with frm := t.frm, frmlen := t.frmlen, dlen := t.dlen, metadata := t.metadata,
                     result := 0, status := okStatus } ∧
        FrameHeld body c s t)

/-- R131: `FPARSE`, its three errors in their order and its success. -/
def Obligations.FparseFollowsItsRule : Prop :=
  ∀ (s : State) (len : BitVec 32) (m : Byte), HeaderSpelt s.readBit len m →
    (s.bitlen.toNat > s.params.bitDepth → exec .fparse s = .next (s.withError 9)) ∧
    (s.bitlen.toNat ≤ s.params.bitDepth → s.bitlen.toNat < 40 → exec .fparse s = .next (s.withError 4)) ∧
    (s.bitlen.toNat ≤ s.params.bitDepth → 40 ≤ s.bitlen.toNat → len.toNat > 10000000 →
      exec .fparse s = .next (s.withError 5)) ∧
    (s.bitlen.toNat ≤ s.params.bitDepth → 40 ≤ s.bitlen.toNat → len.toNat ≤ 10000000 →
      ∃ t, exec .fparse s = .next t ∧
        t = { s with dlen := len, metadata := m, hbpp := t.hbpp, result := 0, status := okStatus } ∧
        t.hbpp.toNat = fallbackBpp m)

/-- R132: `FBODY`, its three errors in their order and its success. -/
def Obligations.FbodyFollowsItsRule : Prop :=
  ∀ (s : State) (body : Bytes), s.params.wf = true →
    body = (List.range (min s.frmlen.toNat s.dlen.toNat)).map s.readFrm →
    (s.frmlen.toNat > s.params.frmDepth → exec .fbody s = .next (s.withError 9)) ∧
    (s.frmlen.toNat ≤ s.params.frmDepth →
      decompressStage Config.codec s.params.deflatePresent body (s.metadata.getLsbD 7) = none →
      exec .fbody s = .next (s.withError 7)) ∧
    (∀ out, s.frmlen.toNat ≤ s.params.frmDepth →
      decompressStage Config.codec s.params.deflatePresent body (s.metadata.getLsbD 7) = some out →
      out.length > s.params.payDepth → exec .fbody s = .next (s.withError 9)) ∧
    (∀ out, s.frmlen.toNat ≤ s.params.frmDepth →
      decompressStage Config.codec s.params.deflatePresent body (s.metadata.getLsbD 7) = some out →
      out.length ≤ s.params.payDepth →
      ∃ t, exec .fbody s = .next t ∧
        t = { s with pay := t.pay, paylen := t.paylen, result := 0, status := okStatus } ∧ PayloadHeld out s t)

/-- R152: `LSBW`, its four tests in their order and its success; the sum of `BITPOS` and `BITLEN` does not wrap. -/
def Obligations.LsbwFollowsItsRule : Prop :=
  ∀ s : State, s.params.wf = true →
    (¬ s.BppIs123 → exec .lsbw s = .next (s.withError 1)) ∧
    (s.BppIs123 → s.nsamp.toNat > s.params.pixDepth ∨ s.bitlen.toNat > s.params.bitDepth →
      exec .lsbw s = .next (s.withError 9)) ∧
    (s.BppIs123 → s.nsamp.toNat ≤ s.params.pixDepth → s.bitlen.toNat ≤ s.params.bitDepth →
      s.bitpos.toNat + s.bitlen.toNat > s.nsamp.toNat * s.bpp.toNat → exec .lsbw s = .next (s.withError 3)) ∧
    (s.BppIs123 → s.nsamp.toNat ≤ s.params.pixDepth → s.bitlen.toNat ≤ s.params.bitDepth →
      s.bitpos.toNat + s.bitlen.toNat ≤ s.nsamp.toNat * s.bpp.toNat →
      ∃ t, exec .lsbw s = .next t ∧
        t = { s with pix := t.pix, bitpos := t.bitpos, result := 0, status := okStatus } ∧
        t.bitpos.toNat = s.bitpos.toNat + s.bitlen.toNat ∧
        SlotsHold s.bpp.toNat s.bitpos.toNat s.bitlen.toNat s.readBit s t)

/-- R153: `LSBR`, its four tests in their order and its success; `PIX` and `CNT` are never written. -/
def Obligations.LsbrFollowsItsRule : Prop :=
  ∀ s : State, s.params.wf = true →
    (¬ s.BppIs123 → exec .lsbr s = .next (s.withError 1)) ∧
    (s.BppIs123 → s.nsamp.toNat > s.params.pixDepth ∨ s.cnt.toNat > s.params.bitDepth →
      exec .lsbr s = .next (s.withError 9)) ∧
    (s.BppIs123 → s.nsamp.toNat ≤ s.params.pixDepth → s.cnt.toNat ≤ s.params.bitDepth →
      s.bitpos.toNat + s.cnt.toNat > s.nsamp.toNat * s.bpp.toNat → exec .lsbr s = .next (s.withError 6)) ∧
    (s.BppIs123 → s.nsamp.toNat ≤ s.params.pixDepth → s.cnt.toNat ≤ s.params.bitDepth →
      s.bitpos.toNat + s.cnt.toNat ≤ s.nsamp.toNat * s.bpp.toNat →
      ∃ t, exec .lsbr s = .next t ∧
        t = { s with bits := t.bits, bitlen := s.cnt, bitpos := t.bitpos, result := 0, status := okStatus } ∧
        t.bitpos.toNat = s.bitpos.toNat + s.cnt.toNat ∧
        (∀ k, k < s.cnt.toNat → t.readBit k = s.slotBit (s.bitpos.toNat + k)) ∧
        (∀ k, s.cnt.toNat ≤ k → t.readBit k = s.readBit k))

/-! ### The composites -/

/-- R180, errors: the first failing test wins, and the writes of the steps before it stay; `PIX` and `BITPOS` never
change. -/
def Obligations.EmbedFailsInOrderKeepingEarlierSteps : Prop :=
  ∀ (s : State) (body : Bytes) (c : Bool), s.params.wf = true →
    compressStage Config.codec s.params.deflatePresent ((List.range s.paylen.toNat).map s.readPay) (s.ctrl == 1) =
      (body, c) →
    (¬ s.BppIs123 → exec .embed s = .next (s.withError 1)) ∧
    (s.BppIs123 → s.nsamp.toNat > s.params.pixDepth ∨ s.paylen.toNat > s.params.payDepth ∨
      5 + body.length > s.params.frmDepth → exec .embed s = .next (s.withError 9)) ∧
    (s.BppIs123 → s.nsamp.toNat ≤ s.params.pixDepth → s.paylen.toNat ≤ s.params.payDepth →
      5 + body.length ≤ s.params.frmDepth → 8 * (5 + body.length) > s.params.bitDepth →
      ∃ t, exec .embed s = .next t ∧
        t = { s with frm := t.frm, frmlen := t.frmlen, dlen := t.dlen, metadata := t.metadata,
                     result := 9, status := errStatus } ∧ FrameHeld body c s t) ∧
    (s.BppIs123 → s.nsamp = 0 → s.paylen.toNat ≤ s.params.payDepth →
      5 + body.length ≤ s.params.frmDepth → 8 * (5 + body.length) ≤ s.params.bitDepth →
      ∃ t, exec .embed s = .next t ∧
        t = { s with frm := t.frm, frmlen := t.frmlen, dlen := t.dlen, metadata := t.metadata, bits := t.bits,
                     bitlen := t.bitlen, result := 2, status := errStatus } ∧
        FrameHeld body c s t ∧ StreamHeld s t) ∧
    (s.BppIs123 → s.nsamp ≠ 0 → s.nsamp.toNat ≤ s.params.pixDepth → s.paylen.toNat ≤ s.params.payDepth →
      5 + body.length ≤ s.params.frmDepth → 8 * (5 + body.length) ≤ s.params.bitDepth →
      8 * (5 + body.length) > s.nsamp.toNat * s.bpp.toNat →
      ∃ t, exec .embed s = .next t ∧
        t = { s with frm := t.frm, frmlen := t.frmlen, dlen := t.dlen, metadata := t.metadata, bits := t.bits,
                     bitlen := t.bitlen, capbits := t.capbits, capbytes := t.capbytes, avail := t.avail, req := t.req,
                     result := 3, status := errStatus } ∧
        FrameHeld body c s t ∧ StreamHeld s t ∧
        t.capbits.toNat = max 40 (s.nsamp.toNat * s.bpp.toNat) - 40 ∧ t.capbytes.toNat = t.capbits.toNat / 8 ∧
        t.avail = t.capbytes ∧ t.req.toNat = body.length)

/-- R180, success: the frame of the secret is in `FRM`, its stream in `BITS`, and the stream in the slots of `PIX`
from position 0; nothing else of the image changes. -/
def Obligations.EmbedWritesTheFrameIntoTheImage : Prop :=
  ∀ (s : State) (body : Bytes) (c : Bool), s.params.wf = true →
    compressStage Config.codec s.params.deflatePresent ((List.range s.paylen.toNat).map s.readPay) (s.ctrl == 1) =
      (body, c) →
    s.BppIs123 → s.nsamp.toNat ≤ s.params.pixDepth → s.paylen.toNat ≤ s.params.payDepth →
    5 + body.length ≤ s.params.frmDepth → 8 * (5 + body.length) ≤ s.params.bitDepth →
    8 * (5 + body.length) ≤ s.nsamp.toNat * s.bpp.toNat →
    ∃ t, exec .embed s = .next t ∧
      t = { s with frm := t.frm, frmlen := t.frmlen, dlen := t.dlen, metadata := t.metadata, bits := t.bits,
                   bitlen := t.bitlen, capbits := t.capbits, capbytes := t.capbytes, pix := t.pix, bitpos := t.bitpos,
                   result := 0, status := okStatus } ∧
      FrameHeld body c s t ∧ StreamHeld s t ∧
      t.capbits.toNat = s.nsamp.toNat * s.bpp.toNat - 40 ∧ t.capbytes.toNat = t.capbits.toNat / 8 ∧
      t.bitpos = t.bitlen ∧ SlotsHold s.bpp.toNat 0 t.bitlen.toNat t.readBit s t

/-- R181, errors before the body is read: parameter, depth, 40-sample test, length bound, body test, stream depth. The
header's bits stay in `BITS`; after a parse `DLEN`, `META`, `HBPP` stay too. -/
def Obligations.ExtractFailsInOrderBeforeTheBody : Prop :=
  ∀ (s : State) (len : BitVec 32) (m : Byte), s.params.wf = true → HeaderSpelt s.slotBit len m →
    (¬ s.BppIs123 → exec .extract s = .next (s.withError 1)) ∧
    (s.BppIs123 → s.nsamp.toNat > s.params.pixDepth → exec .extract s = .next (s.withError 9)) ∧
    (s.BppIs123 → s.nsamp.toNat ≤ s.params.pixDepth → s.nsamp.toNat < 40 →
      exec .extract s = .next (s.withError 6)) ∧
    (s.BppIs123 → 40 ≤ s.nsamp.toNat → s.nsamp.toNat ≤ s.params.pixDepth → len.toNat > 10000000 →
      ∃ t, exec .extract s = .next t ∧
        t = { s with bits := t.bits, bitlen := 40, bitpos := 40, result := 5, status := errStatus } ∧
        (∀ k, k < 40 → t.readBit k = s.slotBit k) ∧ (∀ k, 40 ≤ k → t.readBit k = s.readBit k)) ∧
    (s.BppIs123 → 40 ≤ s.nsamp.toNat → s.nsamp.toNat ≤ s.params.pixDepth → len.toNat ≤ 10000000 →
      (40 + 8 * len.toNat > s.nsamp.toNat * s.bpp.toNat ∨ 8 * len.toNat > s.params.bitDepth) →
      ∃ t, exec .extract s = .next t ∧
        t = { s with bits := t.bits, bitlen := 40, bitpos := 40, dlen := len, metadata := m, hbpp := t.hbpp,
                     result := (if 40 + 8 * len.toNat > s.nsamp.toNat * s.bpp.toNat then 6 else 9),
                     status := errStatus } ∧
        t.hbpp.toNat = fallbackBpp m ∧
        (∀ k, k < 40 → t.readBit k = s.slotBit k) ∧ (∀ k, 40 ≤ k → t.readBit k = s.readBit k))

/-- R181, errors after the body is read: frame depth, decompression, payload depth. The body's bits and bytes stay;
`PAY` and `PAYLEN` do not change. -/
def Obligations.ExtractFailsInOrderAfterTheBody : Prop :=
  ∀ (s : State) (len : BitVec 32) (m : Byte) (body : Bytes), s.params.wf = true → HeaderSpelt s.slotBit len m →
    body.length = len.toNat → BytesSpelt (fun k => s.slotBit (40 + k)) body →
    s.BppIs123 → 40 ≤ s.nsamp.toNat → s.nsamp.toNat ≤ s.params.pixDepth → len.toNat ≤ 10000000 →
    40 + 8 * len.toNat ≤ s.nsamp.toNat * s.bpp.toNat → 8 * len.toNat ≤ s.params.bitDepth →
    (len.toNat > s.params.frmDepth →
      ∃ t, exec .extract s = .next t ∧
        t = { s with bits := t.bits, bitlen := t.bitlen, bitpos := t.bitpos, dlen := len, metadata := m,
                     hbpp := t.hbpp, result := 9, status := errStatus } ∧
        t.hbpp.toNat = fallbackBpp m ∧ t.bitlen.toNat = 8 * len.toNat ∧ t.bitpos.toNat = 40 + 8 * len.toNat ∧
        (∀ k, k < 8 * len.toNat → t.readBit k = s.slotBit (40 + k)) ∧
        (∀ k, 8 * len.toNat ≤ k → t.readBit k = if k < 40 then s.slotBit k else s.readBit k)) ∧
    (∀ code : BitVec 4, len.toNat ≤ s.params.frmDepth →
      (decompressStage Config.codec s.params.deflatePresent body (m.getLsbD 7) = none ∧ code = 7 ∨
        ∃ out, decompressStage Config.codec s.params.deflatePresent body (m.getLsbD 7) = some out ∧
          out.length > s.params.payDepth ∧ code = 9) →
      ∃ t, exec .extract s = .next t ∧
        t = { s with bits := t.bits, bitlen := t.bitlen, bitpos := t.bitpos, dlen := len, metadata := m,
                     hbpp := t.hbpp, frm := t.frm, frmlen := t.frmlen, result := code, status := errStatus } ∧
        t.hbpp.toNat = fallbackBpp m ∧ t.bitlen.toNat = 8 * len.toNat ∧ t.bitpos.toNat = 40 + 8 * len.toNat ∧
        (∀ k, k < 8 * len.toNat → t.readBit k = s.slotBit (40 + k)) ∧
        (∀ k, 8 * len.toNat ≤ k → t.readBit k = if k < 40 then s.slotBit k else s.readBit k) ∧
        t.frmlen.toNat = len.toNat ∧ (∀ j (h : j < body.length), t.readFrm j = body[j]) ∧
        (∀ j, body.length ≤ j → t.readFrm j = s.readFrm j))

/-- R181, success: header and body are read with the register `BPP`, and the secret is delivered in `PAY`. -/
def Obligations.ExtractDeliversTheBody : Prop :=
  ∀ (s : State) (len : BitVec 32) (m : Byte) (body out : Bytes), s.params.wf = true → HeaderSpelt s.slotBit len m →
    body.length = len.toNat → BytesSpelt (fun k => s.slotBit (40 + k)) body →
    s.BppIs123 → 40 ≤ s.nsamp.toNat → s.nsamp.toNat ≤ s.params.pixDepth → len.toNat ≤ 10000000 →
    40 + 8 * len.toNat ≤ s.nsamp.toNat * s.bpp.toNat → 8 * len.toNat ≤ s.params.bitDepth →
    len.toNat ≤ s.params.frmDepth →
    decompressStage Config.codec s.params.deflatePresent body (m.getLsbD 7) = some out →
    out.length ≤ s.params.payDepth →
    ∃ t, exec .extract s = .next t ∧
      t = { s with bits := t.bits, bitlen := t.bitlen, bitpos := t.bitpos, dlen := len, metadata := m, hbpp := t.hbpp,
                   frm := t.frm, frmlen := t.frmlen, pay := t.pay, paylen := t.paylen,
                   result := 0, status := okStatus } ∧
      t.hbpp.toNat = fallbackBpp m ∧ t.bitlen.toNat = 8 * len.toNat ∧ t.bitpos.toNat = 40 + 8 * len.toNat ∧
      (∀ k, k < 8 * len.toNat → t.readBit k = s.slotBit (40 + k)) ∧
      (∀ k, 8 * len.toNat ≤ k → t.readBit k = if k < 40 then s.slotBit k else s.readBit k) ∧
      t.frmlen.toNat = len.toNat ∧ (∀ j (h : j < body.length), t.readFrm j = body[j]) ∧
      (∀ j, body.length ≤ j → t.readFrm j = s.readFrm j) ∧ PayloadHeld out s t

/-- R182 (the spec's own inference from R180, R181): what a successful `EMBED` hid, `EXTRACT` recovers, from any later
state with the same `BPP`, `NSAMP`, samples and parameters, given at least 40 samples and a body within the extraction
bound. -/
def Obligations.ExtractRecoversWhatEmbedHid : Prop :=
  ∀ s t t' : State, s.params.wf = true → exec .embed s = .next t → t.result = 0 →
    40 ≤ s.nsamp.toNat → t.dlen.toNat ≤ 10000000 →
    t'.params = t.params → t'.bpp = t.bpp → t'.nsamp = t.nsamp →
    (∀ q, q < t.nsamp.toNat → t'.readPix q = t.readPix q) →
    ∃ u, exec .extract t' = .next u ∧ u.result = 0 ∧ u.paylen = s.paylen ∧
      ∀ j, j < s.paylen.toNat → u.readPay j = s.readPay j

/-- R183 (the spec's own inference from R180, R123): with the header fitting, exactly the bodies of at most `CapBytes`
bytes succeed (the secret itself when the flag is 0); one byte more fails with `CapacityExceeded`, `AVAIL` and `REQ`
reporting it. -/
def Obligations.EmbedSucceedsUpToTheCapacity : Prop :=
  ∀ (s : State) (body : Bytes) (c : Bool), s.params.wf = true →
    compressStage Config.codec s.params.deflatePresent ((List.range s.paylen.toNat).map s.readPay) (s.ctrl == 1) =
      (body, c) →
    s.BppIs123 → s.nsamp.toNat ≤ s.params.pixDepth → s.paylen.toNat ≤ s.params.payDepth →
    5 + body.length ≤ s.params.frmDepth → 8 * (5 + body.length) ≤ s.params.bitDepth →
    40 ≤ s.nsamp.toNat * s.bpp.toNat →
    ∃ t, exec .embed s = .next t ∧ (c = false → body.length = s.paylen.toNat) ∧
      (body.length ≤ capBytes s.nsamp.toNat s.bpp.toNat → t.result = 0) ∧
      (body.length > capBytes s.nsamp.toNat s.bpp.toNat → t.result = 3 ∧
        t.avail.toNat = capBytes s.nsamp.toNat s.bpp.toNat ∧ t.req.toNat = body.length)

/-- R184 (the spec's own inference from R180): after any failing `EMBED` or `LSBW`, `PIX` is what it was. -/
def Obligations.FailingEmbedLeavesTheImageIntact : Prop :=
  ∀ s t : State, (exec .embed s = .next t ∨ exec .lsbw s = .next t) → t.result ≠ 0 → t.pix = s.pix

/-- R185 (the spec's own inference from R181): after any failing `EXTRACT`, `PAY` and `PAYLEN` are what they were. -/
def Obligations.FailingExtractDeliversNoPayload : Prop :=
  ∀ s t : State, exec .extract s = .next t → t.result ≠ 0 → t.pay = s.pay ∧ t.paylen = s.paylen

/-- R186 (the spec's own inference from R180 and the primitives), first half: a successful `EMBED` leaves what
`FBUILD; B2BITS; CAPQ; wr BITPOS, 0; LSBW` leaves, each of which then succeeds. -/
def Obligations.EmbedIsItsSequenceOfPrimitives : Prop :=
  ∀ s t : State, s.params.wf = true → exec .embed s = .next t → t.result = 0 →
    ∃ s1 s2 s3, exec .fbuild s = .next s1 ∧ s1.result = 0 ∧ exec .b2bits s1 = .next s2 ∧ s2.result = 0 ∧
      exec .capq s2 = .next s3 ∧ s3.result = 0 ∧ exec .lsbw { s3 with bitpos := 0 } = .next t

/-- R186 (the spec's own inference), second half: a successful `EXTRACT` leaves what `wr BITPOS, 0; wr CNT, 40; LSBR;
FPARSE; wr CNT, 8*DLEN; LSBR; BITS2B; FBODY` leaves, but for `CNT`. -/
def Obligations.ExtractIsItsSequenceOfPrimitives : Prop :=
  ∀ s t : State, s.params.wf = true → exec .extract s = .next t → t.result = 0 →
    ∃ s1 s2 s3 s4 s5, exec .lsbr { s with bitpos := 0, cnt := 40 } = .next s1 ∧ s1.result = 0 ∧
      exec .fparse s1 = .next s2 ∧ s2.result = 0 ∧
      exec .lsbr { s2 with cnt := BitVec.ofNat 64 (8 * s2.dlen.toNat) } = .next s3 ∧ s3.result = 0 ∧
      exec .bits2b s3 = .next s4 ∧ s4.result = 0 ∧ exec .fbody s4 = .next s5 ∧ { s5 with cnt := s.cnt } = t

/-! ### Rules about all commands and all steps -/

/-- R200, R210: every command ends, in a next state with one of the codes its row of R210 allows; `DONE` is set, `ERR`
is set exactly on an error, `BUSY` is clear. -/
def Obligations.EveryCommandEndsWithAnAllowedCode : Prop :=
  ∀ (i : Instr) (s : State), ∃ t, exec i s = .next t ∧ t.status.done = true ∧ t.status.busy = false ∧
    (t.status.err = true ↔ t.result ≠ 0) ∧
    t.result.toNat ∈ (match i with
      | .b2bits => [0, 9]
      | .bits2b => [0, 9]
      | .capq => [0, 1, 2]
      | .fbuild => [0, 9]
      | .fparse => [0, 4, 5, 9]
      | .fbody => [0, 7, 9]
      | .lsbw => [0, 1, 3, 9]
      | .lsbr => [0, 1, 6, 9]
      | .embed => [0, 1, 2, 3, 9]
      | .extract => [0, 1, 5, 6, 7, 9])

/-- R214: a failing primitive changes only `STATUS` and `RESULT`. -/
def Obligations.FailingPrimitiveChangesOnlyStatusAndResult : Prop :=
  ∀ (i : Instr) (s t : State), i ≠ .embed → i ≠ .extract → exec i s = .next t → t.result ≠ 0 →
    t = { s with result := t.result, status := t.status }

/-- The column "engine writes" of R20 and the table of R73: which commands may change which register and which buffer.
`CMD`, `CTRL`, `BPP`, `NSAMP`, `CNT` and the parameters are changed by no command. -/
def Obligations.CommandsWriteOnlyTheirRegisters : Prop :=
  ∀ (i : Instr) (s t : State), exec i s = .next t →
    t.cmd = s.cmd ∧ t.ctrl = s.ctrl ∧ t.bpp = s.bpp ∧ t.nsamp = s.nsamp ∧ t.cnt = s.cnt ∧ t.params = s.params ∧
    t.epoch = s.epoch ∧ t.host = s.host ∧ t.dataOut = s.dataOut ∧
    (i ∉ [.fbody, .extract] → t.paylen = s.paylen ∧ t.pay = s.pay) ∧
    (i ∉ [.fbuild, .bits2b, .embed, .extract] → t.frmlen = s.frmlen ∧ t.frm = s.frm) ∧
    (i ∉ [.b2bits, .lsbr, .embed, .extract] → t.bitlen = s.bitlen ∧ t.bits = s.bits) ∧
    (i ∉ [.lsbw, .lsbr, .embed, .extract] → t.bitpos = s.bitpos) ∧
    (i ∉ [.fbuild, .fparse, .embed, .extract] → t.dlen = s.dlen ∧ t.metadata = s.metadata) ∧
    (i ∉ [.fparse, .extract] → t.hbpp = s.hbpp) ∧
    (i ∉ [.capq, .embed] → t.capbits = s.capbits ∧ t.capbytes = s.capbytes) ∧
    (¬ (i = .embed ∧ t.result = 3) → t.avail = s.avail ∧ t.req = s.req) ∧
    (i ∉ [.lsbw, .embed] → t.pix = s.pix)

/-- R44, R216: no command's behaviour depends on `STATUS`, `RESULT` or the word in `CMD`. -/
def Obligations.CommandsDoNotReadStatusOrResult : Prop :=
  ∀ (i : Instr) (s t : State) (st : Status) (r : BitVec 4) (w : BitVec 32), exec i s = .next t →
    exec i { s with status := st, result := r, cmd := w } = .next { t with cmd := w }

/-- R35, R78: the read-only results `HBPP`, `CAPBITS`, `CAPBYTES`, `AVAIL`, `REQ` are read by no command: with other
values in them a command leaves the same state but for those five, and each of those is left as the command writes it
in both runs, or is kept by both. -/
def Obligations.CommandsDoNotReadTheirResultRegisters : Prop :=
  ∀ (i : Instr) (s t : State) (h : BitVec 2) (a b c d : BitVec 64), exec i s = .next t →
    ∃ t', exec i { s with hbpp := h, capbits := a, capbytes := b, avail := c, req := d } = .next t' ∧
      t' = { t with hbpp := t'.hbpp, capbits := t'.capbits, capbytes := t'.capbytes, avail := t'.avail, req := t'.req } ∧
      (t'.hbpp = t.hbpp ∨ t'.hbpp = h ∧ t.hbpp = s.hbpp) ∧
      (t'.capbits = t.capbits ∨ t'.capbits = a ∧ t.capbits = s.capbits) ∧
      (t'.capbytes = t.capbytes ∨ t'.capbytes = b ∧ t.capbytes = s.capbytes) ∧
      (t'.avail = t.avail ∨ t'.avail = c ∧ t.avail = s.avail) ∧ (t'.req = t.req ∨ t'.req = d ∧ t.req = s.req)

/-- R49: entries at or above a length register are not read: `FBUILD` and `EMBED` do not see `PAY` past `PAYLEN`,
`B2BITS` and `FBODY` do not see `FRM` past `FRMLEN`, `BITS2B`, `FPARSE` and `LSBW` do not see `BITS` past `BITLEN`.
R45: `LSBW`, `LSBR`, `EMBED` and `EXTRACT` neither see nor write `PIX` past `NSAMP`. -/
def Obligations.EntriesPastTheLengthAreNotRead : Prop :=
  (∀ (i : Instr) (s t : State) (m : List Host.Cell), i = .fbuild ∨ i = .embed →
    (∀ j, j < s.paylen.toNat → State.readPay { s with pay := m } j = s.readPay j) →
    exec i s = .next t → exec i { s with pay := m } = .next { t with pay := m }) ∧
  (∀ (i : Instr) (s t : State) (m : List Host.Cell), i = .b2bits ∨ i = .fbody →
    (∀ j, j < s.frmlen.toNat → State.readFrm { s with frm := m } j = s.readFrm j) →
    exec i s = .next t → exec i { s with frm := m } = .next { t with frm := m }) ∧
  (∀ (i : Instr) (s t : State) (m : List (Nat × Bool)), i = .bits2b ∨ i = .fparse ∨ i = .lsbw →
    (∀ j, j < s.bitlen.toNat → State.readBit { s with bits := m } j = s.readBit j) →
    exec i s = .next t → exec i { s with bits := m } = .next { t with bits := m }) ∧
  (∀ (i : Instr) (s t : State) (m : List Host.Cell), i = .lsbw ∨ i = .lsbr ∨ i = .embed ∨ i = .extract →
    (∀ q, q < s.nsamp.toNat → State.readPix { s with pix := m } q = s.readPix q) →
    exec i s = .next t → ∃ t', exec i { s with pix := m } = .next t' ∧ t' = { t with pix := t'.pix } ∧
      (∀ q, q < s.nsamp.toNat → t'.readPix q = t.readPix q) ∧
      (∀ q, s.nsamp.toNat ≤ q → t.readPix q = s.readPix q ∧ t'.readPix q = State.readPix { s with pix := m } q))

/-- R22: `DONE`, once set, is cleared by nothing but reset. -/
def Obligations.DoneIsClearedOnlyByReset : Prop :=
  ∀ s t : State, step s = .next t → s.status.done = true → (∀ rest, s.host ≠ .reset :: rest) → t.status.done = true

/-- The invariant holds right after reset, for every choice of parameters R7 allows. -/
def Obligations.ResetSatisfiesTheMachineInvariant : Prop :=
  (∀ p : Params, p.wf = true → (State.resetWith p).Inv) ∧ State.reset.Inv

/-- From every state that meets the invariant, whatever the host does next, a step gives a state that meets it: the
buffers keep their canonical form within their depths, `ERR` is `RESULT != 0`, `RESULT` is a code of R210, `BUSY` is 0
between steps, and `CAPBYTES` is `CAPBITS div 8`; and the parameters do not change. -/
def Obligations.EveryStepKeepsTheMachineInvariant : Prop :=
  ∀ s t : State, s.Inv → step s = .next t → t.Inv ∧ t.params = s.params

/-- R41 (the spec's own inference from R7 and the command rules): a register a command writes stays within the bound its
rule gives. `CAPBITS` and `CAPBYTES` do so for the legal values of `NSAMP`, 0 to `PIX_DEPTH` (R27);
for what `CAPQ` does beyond them see `CapqWrapsPastTheRegister`. -/
def Obligations.EngineWritesStayWithinTheirBounds : Prop :=
  ∀ (i : Instr) (s t : State), s.params.wf = true → exec i s = .next t →
    (t.paylen = s.paylen ∨ t.paylen.toNat ≤ s.params.payDepth) ∧
    (t.frmlen = s.frmlen ∨ t.frmlen.toNat ≤ s.params.frmDepth) ∧
    (t.bitlen = s.bitlen ∨ t.bitlen.toNat ≤ s.params.bitDepth) ∧
    (t.bitpos = s.bitpos ∨ t.bitpos.toNat ≤ 3 * s.params.pixDepth) ∧
    (t.dlen = s.dlen ∨ t.dlen.toNat ≤ s.params.payDepth ∨ t.dlen.toNat ≤ 10000000) ∧
    (t.hbpp = s.hbpp ∨ t.hbpp.toNat = 1 ∨ t.hbpp.toNat = 2 ∨ t.hbpp.toNat = 3) ∧
    (s.nsamp.toNat ≤ s.params.pixDepth →
      (t.capbits = s.capbits ∨ t.capbits.toNat ≤ 3 * s.params.pixDepth) ∧
      (t.capbytes = s.capbytes ∨ t.capbytes.toNat ≤ 3 * s.params.pixDepth / 8)) ∧
    (t.avail = s.avail ∨ t.avail.toNat ≤ 3 * s.params.pixDepth / 8) ∧
    (t.req = s.req ∨ t.req.toNat ≤ s.params.payDepth)
end

