-- ==== Sys2Proof/Laws/State.lean ====
section
/-! SUPPORT. One lemma per field and update of the state, so that no proof unfolds an update. -/

namespace Sys2Proof.Machine

section
variable (s : State) (k : ErrorKind)
@[simp] theorem State.raise_params : (s.raise k).params = s.params := rfl
@[simp] theorem State.raise_cmd : (s.raise k).cmd = s.cmd := rfl
@[simp] theorem State.raise_status : (s.raise k).status = Status.error := rfl
@[simp] theorem State.raise_result : (s.raise k).result = k.code := rfl
@[simp] theorem State.raise_ctrl : (s.raise k).ctrl = s.ctrl := rfl
@[simp] theorem State.raise_bpp : (s.raise k).bpp = s.bpp := rfl
@[simp] theorem State.raise_nsamp : (s.raise k).nsamp = s.nsamp := rfl
@[simp] theorem State.raise_paylen : (s.raise k).paylen = s.paylen := rfl
@[simp] theorem State.raise_frmlen : (s.raise k).frmlen = s.frmlen := rfl
@[simp] theorem State.raise_bitlen : (s.raise k).bitlen = s.bitlen := rfl
@[simp] theorem State.raise_bitpos : (s.raise k).bitpos = s.bitpos := rfl
@[simp] theorem State.raise_cnt : (s.raise k).cnt = s.cnt := rfl
@[simp] theorem State.raise_dlen : (s.raise k).dlen = s.dlen := rfl
@[simp] theorem State.raise_metadata : (s.raise k).metadata = s.metadata := rfl
@[simp] theorem State.raise_hbpp : (s.raise k).hbpp = s.hbpp := rfl
@[simp] theorem State.raise_capbits : (s.raise k).capbits = s.capbits := rfl
@[simp] theorem State.raise_capbytes : (s.raise k).capbytes = s.capbytes := rfl
@[simp] theorem State.raise_avail : (s.raise k).avail = s.avail := rfl
@[simp] theorem State.raise_req : (s.raise k).req = s.req := rfl
@[simp] theorem State.raise_pix : (s.raise k).pix = s.pix := rfl
@[simp] theorem State.raise_pay : (s.raise k).pay = s.pay := rfl
@[simp] theorem State.raise_frm : (s.raise k).frm = s.frm := rfl
@[simp] theorem State.raise_bits : (s.raise k).bits = s.bits := rfl
@[simp] theorem State.raise_epoch : (s.raise k).epoch = s.epoch := rfl
@[simp] theorem State.raise_host : (s.raise k).host = s.host := rfl
@[simp] theorem State.raise_dataOut : (s.raise k).dataOut = s.dataOut := rfl
end

section
variable (s : State)
@[simp] theorem State.succeed_params : (s.succeed).params = s.params := rfl
@[simp] theorem State.succeed_cmd : (s.succeed).cmd = s.cmd := rfl
@[simp] theorem State.succeed_status : (s.succeed).status = Status.success := rfl
@[simp] theorem State.succeed_result : (s.succeed).result = 0 := rfl
@[simp] theorem State.succeed_ctrl : (s.succeed).ctrl = s.ctrl := rfl
@[simp] theorem State.succeed_bpp : (s.succeed).bpp = s.bpp := rfl
@[simp] theorem State.succeed_nsamp : (s.succeed).nsamp = s.nsamp := rfl
@[simp] theorem State.succeed_paylen : (s.succeed).paylen = s.paylen := rfl
@[simp] theorem State.succeed_frmlen : (s.succeed).frmlen = s.frmlen := rfl
@[simp] theorem State.succeed_bitlen : (s.succeed).bitlen = s.bitlen := rfl
@[simp] theorem State.succeed_bitpos : (s.succeed).bitpos = s.bitpos := rfl
@[simp] theorem State.succeed_cnt : (s.succeed).cnt = s.cnt := rfl
@[simp] theorem State.succeed_dlen : (s.succeed).dlen = s.dlen := rfl
@[simp] theorem State.succeed_metadata : (s.succeed).metadata = s.metadata := rfl
@[simp] theorem State.succeed_hbpp : (s.succeed).hbpp = s.hbpp := rfl
@[simp] theorem State.succeed_capbits : (s.succeed).capbits = s.capbits := rfl
@[simp] theorem State.succeed_capbytes : (s.succeed).capbytes = s.capbytes := rfl
@[simp] theorem State.succeed_avail : (s.succeed).avail = s.avail := rfl
@[simp] theorem State.succeed_req : (s.succeed).req = s.req := rfl
@[simp] theorem State.succeed_pix : (s.succeed).pix = s.pix := rfl
@[simp] theorem State.succeed_pay : (s.succeed).pay = s.pay := rfl
@[simp] theorem State.succeed_frm : (s.succeed).frm = s.frm := rfl
@[simp] theorem State.succeed_bits : (s.succeed).bits = s.bits := rfl
@[simp] theorem State.succeed_epoch : (s.succeed).epoch = s.epoch := rfl
@[simp] theorem State.succeed_host : (s.succeed).host = s.host := rfl
@[simp] theorem State.succeed_dataOut : (s.succeed).dataOut = s.dataOut := rfl
end

section
variable (s : State) (a : Nat) (v : Bytes)
@[simp] theorem State.writePix_params : (s.writePix a v).params = s.params := rfl
@[simp] theorem State.writePix_cmd : (s.writePix a v).cmd = s.cmd := rfl
@[simp] theorem State.writePix_status : (s.writePix a v).status = s.status := rfl
@[simp] theorem State.writePix_result : (s.writePix a v).result = s.result := rfl
@[simp] theorem State.writePix_ctrl : (s.writePix a v).ctrl = s.ctrl := rfl
@[simp] theorem State.writePix_bpp : (s.writePix a v).bpp = s.bpp := rfl
@[simp] theorem State.writePix_nsamp : (s.writePix a v).nsamp = s.nsamp := rfl
@[simp] theorem State.writePix_paylen : (s.writePix a v).paylen = s.paylen := rfl
@[simp] theorem State.writePix_frmlen : (s.writePix a v).frmlen = s.frmlen := rfl
@[simp] theorem State.writePix_bitlen : (s.writePix a v).bitlen = s.bitlen := rfl
@[simp] theorem State.writePix_bitpos : (s.writePix a v).bitpos = s.bitpos := rfl
@[simp] theorem State.writePix_cnt : (s.writePix a v).cnt = s.cnt := rfl
@[simp] theorem State.writePix_dlen : (s.writePix a v).dlen = s.dlen := rfl
@[simp] theorem State.writePix_metadata : (s.writePix a v).metadata = s.metadata := rfl
@[simp] theorem State.writePix_hbpp : (s.writePix a v).hbpp = s.hbpp := rfl
@[simp] theorem State.writePix_capbits : (s.writePix a v).capbits = s.capbits := rfl
@[simp] theorem State.writePix_capbytes : (s.writePix a v).capbytes = s.capbytes := rfl
@[simp] theorem State.writePix_avail : (s.writePix a v).avail = s.avail := rfl
@[simp] theorem State.writePix_req : (s.writePix a v).req = s.req := rfl
@[simp] theorem State.writePix_pix : (s.writePix a v).pix = memWrite s.pix a v := rfl
@[simp] theorem State.writePix_pay : (s.writePix a v).pay = s.pay := rfl
@[simp] theorem State.writePix_frm : (s.writePix a v).frm = s.frm := rfl
@[simp] theorem State.writePix_bits : (s.writePix a v).bits = s.bits := rfl
@[simp] theorem State.writePix_epoch : (s.writePix a v).epoch = s.epoch := rfl
@[simp] theorem State.writePix_host : (s.writePix a v).host = s.host := rfl
@[simp] theorem State.writePix_dataOut : (s.writePix a v).dataOut = s.dataOut := rfl
end

section
variable (s : State) (v : Bytes)
@[simp] theorem State.putPay_params : (s.putPay v).params = s.params := rfl
@[simp] theorem State.putPay_cmd : (s.putPay v).cmd = s.cmd := rfl
@[simp] theorem State.putPay_status : (s.putPay v).status = s.status := rfl
@[simp] theorem State.putPay_result : (s.putPay v).result = s.result := rfl
@[simp] theorem State.putPay_ctrl : (s.putPay v).ctrl = s.ctrl := rfl
@[simp] theorem State.putPay_bpp : (s.putPay v).bpp = s.bpp := rfl
@[simp] theorem State.putPay_nsamp : (s.putPay v).nsamp = s.nsamp := rfl
@[simp] theorem State.putPay_paylen : (s.putPay v).paylen = BitVec.ofNat 64 v.length := rfl
@[simp] theorem State.putPay_frmlen : (s.putPay v).frmlen = s.frmlen := rfl
@[simp] theorem State.putPay_bitlen : (s.putPay v).bitlen = s.bitlen := rfl
@[simp] theorem State.putPay_bitpos : (s.putPay v).bitpos = s.bitpos := rfl
@[simp] theorem State.putPay_cnt : (s.putPay v).cnt = s.cnt := rfl
@[simp] theorem State.putPay_dlen : (s.putPay v).dlen = s.dlen := rfl
@[simp] theorem State.putPay_metadata : (s.putPay v).metadata = s.metadata := rfl
@[simp] theorem State.putPay_hbpp : (s.putPay v).hbpp = s.hbpp := rfl
@[simp] theorem State.putPay_capbits : (s.putPay v).capbits = s.capbits := rfl
@[simp] theorem State.putPay_capbytes : (s.putPay v).capbytes = s.capbytes := rfl
@[simp] theorem State.putPay_avail : (s.putPay v).avail = s.avail := rfl
@[simp] theorem State.putPay_req : (s.putPay v).req = s.req := rfl
@[simp] theorem State.putPay_pix : (s.putPay v).pix = s.pix := rfl
@[simp] theorem State.putPay_pay : (s.putPay v).pay = memWrite s.pay 0 v := rfl
@[simp] theorem State.putPay_frm : (s.putPay v).frm = s.frm := rfl
@[simp] theorem State.putPay_bits : (s.putPay v).bits = s.bits := rfl
@[simp] theorem State.putPay_epoch : (s.putPay v).epoch = s.epoch := rfl
@[simp] theorem State.putPay_host : (s.putPay v).host = s.host := rfl
@[simp] theorem State.putPay_dataOut : (s.putPay v).dataOut = s.dataOut := rfl
end

section
variable (s : State) (v : Bytes)
@[simp] theorem State.putFrm_params : (s.putFrm v).params = s.params := rfl
@[simp] theorem State.putFrm_cmd : (s.putFrm v).cmd = s.cmd := rfl
@[simp] theorem State.putFrm_status : (s.putFrm v).status = s.status := rfl
@[simp] theorem State.putFrm_result : (s.putFrm v).result = s.result := rfl
@[simp] theorem State.putFrm_ctrl : (s.putFrm v).ctrl = s.ctrl := rfl
@[simp] theorem State.putFrm_bpp : (s.putFrm v).bpp = s.bpp := rfl
@[simp] theorem State.putFrm_nsamp : (s.putFrm v).nsamp = s.nsamp := rfl
@[simp] theorem State.putFrm_paylen : (s.putFrm v).paylen = s.paylen := rfl
@[simp] theorem State.putFrm_frmlen : (s.putFrm v).frmlen = BitVec.ofNat 64 v.length := rfl
@[simp] theorem State.putFrm_bitlen : (s.putFrm v).bitlen = s.bitlen := rfl
@[simp] theorem State.putFrm_bitpos : (s.putFrm v).bitpos = s.bitpos := rfl
@[simp] theorem State.putFrm_cnt : (s.putFrm v).cnt = s.cnt := rfl
@[simp] theorem State.putFrm_dlen : (s.putFrm v).dlen = s.dlen := rfl
@[simp] theorem State.putFrm_metadata : (s.putFrm v).metadata = s.metadata := rfl
@[simp] theorem State.putFrm_hbpp : (s.putFrm v).hbpp = s.hbpp := rfl
@[simp] theorem State.putFrm_capbits : (s.putFrm v).capbits = s.capbits := rfl
@[simp] theorem State.putFrm_capbytes : (s.putFrm v).capbytes = s.capbytes := rfl
@[simp] theorem State.putFrm_avail : (s.putFrm v).avail = s.avail := rfl
@[simp] theorem State.putFrm_req : (s.putFrm v).req = s.req := rfl
@[simp] theorem State.putFrm_pix : (s.putFrm v).pix = s.pix := rfl
@[simp] theorem State.putFrm_pay : (s.putFrm v).pay = s.pay := rfl
@[simp] theorem State.putFrm_frm : (s.putFrm v).frm = memWrite s.frm 0 v := rfl
@[simp] theorem State.putFrm_bits : (s.putFrm v).bits = s.bits := rfl
@[simp] theorem State.putFrm_epoch : (s.putFrm v).epoch = s.epoch := rfl
@[simp] theorem State.putFrm_host : (s.putFrm v).host = s.host := rfl
@[simp] theorem State.putFrm_dataOut : (s.putFrm v).dataOut = s.dataOut := rfl
end

section
variable (s : State) (v : Bits)
@[simp] theorem State.putBits_params : (s.putBits v).params = s.params := rfl
@[simp] theorem State.putBits_cmd : (s.putBits v).cmd = s.cmd := rfl
@[simp] theorem State.putBits_status : (s.putBits v).status = s.status := rfl
@[simp] theorem State.putBits_result : (s.putBits v).result = s.result := rfl
@[simp] theorem State.putBits_ctrl : (s.putBits v).ctrl = s.ctrl := rfl
@[simp] theorem State.putBits_bpp : (s.putBits v).bpp = s.bpp := rfl
@[simp] theorem State.putBits_nsamp : (s.putBits v).nsamp = s.nsamp := rfl
@[simp] theorem State.putBits_paylen : (s.putBits v).paylen = s.paylen := rfl
@[simp] theorem State.putBits_frmlen : (s.putBits v).frmlen = s.frmlen := rfl
@[simp] theorem State.putBits_bitlen : (s.putBits v).bitlen = BitVec.ofNat 64 v.length := rfl
@[simp] theorem State.putBits_bitpos : (s.putBits v).bitpos = s.bitpos := rfl
@[simp] theorem State.putBits_cnt : (s.putBits v).cnt = s.cnt := rfl
@[simp] theorem State.putBits_dlen : (s.putBits v).dlen = s.dlen := rfl
@[simp] theorem State.putBits_metadata : (s.putBits v).metadata = s.metadata := rfl
@[simp] theorem State.putBits_hbpp : (s.putBits v).hbpp = s.hbpp := rfl
@[simp] theorem State.putBits_capbits : (s.putBits v).capbits = s.capbits := rfl
@[simp] theorem State.putBits_capbytes : (s.putBits v).capbytes = s.capbytes := rfl
@[simp] theorem State.putBits_avail : (s.putBits v).avail = s.avail := rfl
@[simp] theorem State.putBits_req : (s.putBits v).req = s.req := rfl
@[simp] theorem State.putBits_pix : (s.putBits v).pix = s.pix := rfl
@[simp] theorem State.putBits_pay : (s.putBits v).pay = s.pay := rfl
@[simp] theorem State.putBits_frm : (s.putBits v).frm = s.frm := rfl
@[simp] theorem State.putBits_bits : (s.putBits v).bits = memWrite s.bits 0 v := rfl
@[simp] theorem State.putBits_epoch : (s.putBits v).epoch = s.epoch := rfl
@[simp] theorem State.putBits_host : (s.putBits v).host = s.host := rfl
@[simp] theorem State.putBits_dataOut : (s.putBits v).dataOut = s.dataOut := rfl
end

section
variable (s : State) (v : Word64)
@[simp] theorem State.startCommand_params : (s.startCommand v).params = s.params := rfl
@[simp] theorem State.startCommand_cmd : (s.startCommand v).cmd = v.setWidth 32 := rfl
@[simp] theorem State.startCommand_status : (s.startCommand v).status = s.status.started := rfl
@[simp] theorem State.startCommand_result : (s.startCommand v).result = s.result := rfl
@[simp] theorem State.startCommand_ctrl : (s.startCommand v).ctrl = s.ctrl := rfl
@[simp] theorem State.startCommand_bpp : (s.startCommand v).bpp = s.bpp := rfl
@[simp] theorem State.startCommand_nsamp : (s.startCommand v).nsamp = s.nsamp := rfl
@[simp] theorem State.startCommand_paylen : (s.startCommand v).paylen = s.paylen := rfl
@[simp] theorem State.startCommand_frmlen : (s.startCommand v).frmlen = s.frmlen := rfl
@[simp] theorem State.startCommand_bitlen : (s.startCommand v).bitlen = s.bitlen := rfl
@[simp] theorem State.startCommand_bitpos : (s.startCommand v).bitpos = s.bitpos := rfl
@[simp] theorem State.startCommand_cnt : (s.startCommand v).cnt = s.cnt := rfl
@[simp] theorem State.startCommand_dlen : (s.startCommand v).dlen = s.dlen := rfl
@[simp] theorem State.startCommand_metadata : (s.startCommand v).metadata = s.metadata := rfl
@[simp] theorem State.startCommand_hbpp : (s.startCommand v).hbpp = s.hbpp := rfl
@[simp] theorem State.startCommand_capbits : (s.startCommand v).capbits = s.capbits := rfl
@[simp] theorem State.startCommand_capbytes : (s.startCommand v).capbytes = s.capbytes := rfl
@[simp] theorem State.startCommand_avail : (s.startCommand v).avail = s.avail := rfl
@[simp] theorem State.startCommand_req : (s.startCommand v).req = s.req := rfl
@[simp] theorem State.startCommand_pix : (s.startCommand v).pix = s.pix := rfl
@[simp] theorem State.startCommand_pay : (s.startCommand v).pay = s.pay := rfl
@[simp] theorem State.startCommand_frm : (s.startCommand v).frm = s.frm := rfl
@[simp] theorem State.startCommand_bits : (s.startCommand v).bits = s.bits := rfl
@[simp] theorem State.startCommand_epoch : (s.startCommand v).epoch = s.epoch := rfl
@[simp] theorem State.startCommand_host : (s.startCommand v).host = s.host := rfl
@[simp] theorem State.startCommand_dataOut : (s.startCommand v).dataOut = s.dataOut := rfl
end

section
variable (s : State) (v : Bits) (p : Nat)
@[simp] theorem State.latchBits_params : (latchBits v p s).params = s.params := rfl
@[simp] theorem State.latchBits_cmd : (latchBits v p s).cmd = s.cmd := rfl
@[simp] theorem State.latchBits_status : (latchBits v p s).status = s.status := rfl
@[simp] theorem State.latchBits_result : (latchBits v p s).result = s.result := rfl
@[simp] theorem State.latchBits_ctrl : (latchBits v p s).ctrl = s.ctrl := rfl
@[simp] theorem State.latchBits_bpp : (latchBits v p s).bpp = s.bpp := rfl
@[simp] theorem State.latchBits_nsamp : (latchBits v p s).nsamp = s.nsamp := rfl
@[simp] theorem State.latchBits_paylen : (latchBits v p s).paylen = s.paylen := rfl
@[simp] theorem State.latchBits_frmlen : (latchBits v p s).frmlen = s.frmlen := rfl
@[simp] theorem State.latchBits_bitlen : (latchBits v p s).bitlen = BitVec.ofNat 64 v.length := rfl
@[simp] theorem State.latchBits_bitpos : (latchBits v p s).bitpos = BitVec.ofNat 64 (p + v.length) := rfl
@[simp] theorem State.latchBits_cnt : (latchBits v p s).cnt = s.cnt := rfl
@[simp] theorem State.latchBits_dlen : (latchBits v p s).dlen = s.dlen := rfl
@[simp] theorem State.latchBits_metadata : (latchBits v p s).metadata = s.metadata := rfl
@[simp] theorem State.latchBits_hbpp : (latchBits v p s).hbpp = s.hbpp := rfl
@[simp] theorem State.latchBits_capbits : (latchBits v p s).capbits = s.capbits := rfl
@[simp] theorem State.latchBits_capbytes : (latchBits v p s).capbytes = s.capbytes := rfl
@[simp] theorem State.latchBits_avail : (latchBits v p s).avail = s.avail := rfl
@[simp] theorem State.latchBits_req : (latchBits v p s).req = s.req := rfl
@[simp] theorem State.latchBits_pix : (latchBits v p s).pix = s.pix := rfl
@[simp] theorem State.latchBits_pay : (latchBits v p s).pay = s.pay := rfl
@[simp] theorem State.latchBits_frm : (latchBits v p s).frm = s.frm := rfl
@[simp] theorem State.latchBits_bits : (latchBits v p s).bits = memWrite s.bits 0 v := rfl
@[simp] theorem State.latchBits_epoch : (latchBits v p s).epoch = s.epoch := rfl
@[simp] theorem State.latchBits_host : (latchBits v p s).host = s.host := rfl
@[simp] theorem State.latchBits_dataOut : (latchBits v p s).dataOut = s.dataOut := rfl
end

/-! A read of an entry depends on the buffer and the epoch alone. -/

theorem State.readPix_congr {s t : State} (h : s.pix = t.pix) (e : s.epoch = t.epoch) (a : Nat) :
    s.readPix a = t.readPix a := by simp [State.readPix, h, e]

theorem State.readPay_congr {s t : State} (h : s.pay = t.pay) (e : s.epoch = t.epoch) (a : Nat) :
    s.readPay a = t.readPay a := by simp [State.readPay, h, e]

theorem State.readFrm_congr {s t : State} (h : s.frm = t.frm) (e : s.epoch = t.epoch) (a : Nat) :
    s.readFrm a = t.readFrm a := by simp [State.readFrm, h, e]

theorem State.readBit_congr {s t : State} (h : s.bits = t.bits) (e : s.epoch = t.epoch) (a : Nat) :
    s.readBit a = t.readBit a := by simp [State.readBit, h, e]

end Sys2Proof.Machine
end

