-- ==== Sys2Proof/Laws/Buffers.lean ====
section
/-! SUPPORT. What a buffer operation can do: a read after a `MemWrite`, the canonical form kept, equal memories equal
data. -/

namespace Sys2Proof.Machine

variable {α : Type}

@[simp] theorem lookup_nil (a : Nat) : lookup ([] : List (Nat × α)) a = none := rfl

theorem lookup_append (m m' : List (Nat × α)) (a : Nat) :
    lookup (m ++ m') a = (lookup m a).or (lookup m' a) := by
  induction m with
  | nil => simp
  | cons e m ih =>
    obtain ⟨k, v⟩ := e
    by_cases h : k = a <;> simp [lookup, h, ih]

theorem lookup_filter (m : List (Nat × α)) (p : Nat → Bool) (a : Nat) :
    lookup (m.filter (fun e => p e.1)) a = if p a then lookup m a else none := by
  induction m with
  | nil => simp
  | cons e m ih =>
    obtain ⟨k, v⟩ := e
    by_cases hk : k = a
    · subst hk
      by_cases hp : p k <;> simp [List.filter, hp, lookup, ih]
    · by_cases hp : p k <;> simp [List.filter, hp, lookup, ih, hk]

theorem lookup_indexed (v : List α) (a k : Nat) :
    lookup (indexed a v) k = if a ≤ k then v[k - a]? else none := by
  induction v generalizing a with
  | nil => simp [indexed]
  | cons x v ih =>
    by_cases h : a = k
    · subst h; simp [indexed, lookup]
    · simp only [indexed, lookup, h, if_false, ih]
      by_cases h' : a ≤ k
      · have h1 : a + 1 ≤ k := by omega
        have h2 : k - a = k - (a + 1) + 1 := by omega
        simp [h1, h', h2]
      · have h1 : ¬ a + 1 ≤ k := by omega
        simp [h1, h']

/-- A read after a write: the written sequence at its indices, everything else as before (R13, R49). -/
theorem lookup_memWrite (m : List (Nat × α)) (a : Nat) (v : List α) (k : Nat) :
    lookup (memWrite m a v) k = if a ≤ k ∧ k < a + v.length then v[k - a]? else lookup m k := by
  have e1 := lookup_filter m (fun n => decide (n < a)) k
  have e2 := lookup_filter m (fun n => decide (a + v.length ≤ n)) k
  simp only [memWrite, lookup_append, lookup_indexed, e1, e2, decide_eq_true_eq]
  by_cases h1 : k < a
  · have h2 : ¬ a ≤ k := by omega
    have h3 : ¬ a + v.length ≤ k := by omega
    simp [h1, h2, h3]
  · have h2 : a ≤ k := by omega
    by_cases h3 : k < a + v.length
    · have h4 : ¬ a + v.length ≤ k := by omega
      simp [h1, h2, h3, h4]
    · have h4 : a + v.length ≤ k := by omega
      have h5 : v[k - a]? = none := by simp; omega
      simp [h1, h2, h3, h4, h5]

/-! ### The canonical form -/

theorem bufferWf_iff (depth : Nat) (m : List (Nat × α)) :
    bufferWf depth m = true ↔ (m.map Prod.fst).Pairwise (· < ·) ∧ ∀ e ∈ m, e.1 < depth := by
  simp [bufferWf]

theorem indexed_fst (a : Nat) (v : List α) : (indexed a v).map Prod.fst = List.range' a v.length := by
  induction v generalizing a with
  | nil => rfl
  | cons x v ih => simp [indexed, ih, List.range'_succ]

theorem mem_indexed {a : Nat} {v : List α} {e : Nat × α} (h : e ∈ indexed a v) : a ≤ e.1 ∧ e.1 < a + v.length := by
  have : e.1 ∈ (indexed a v).map Prod.fst := List.mem_map_of_mem h
  rw [indexed_fst, List.mem_range'_1] at this
  exact this

/-- A `MemWrite` within the depth keeps the canonical form. -/
theorem bufferWf_memWrite {depth : Nat} {m : List (Nat × α)} {a : Nat} {v : List α}
    (h : bufferWf depth m = true) (hv : a + v.length ≤ depth) : bufferWf depth (memWrite m a v) = true := by
  rw [bufferWf_iff] at h ⊢
  obtain ⟨hs, hd⟩ := h
  have sub : ∀ p : Nat × α → Bool, ((m.filter p).map Prod.fst).Pairwise (· < ·) := fun p =>
    hs.sublist (List.filter_sublist.map _)
  refine ⟨?_, ?_⟩
  · simp only [memWrite, List.map_append, List.pairwise_append]
    refine ⟨⟨sub _, ?_, ?_⟩, sub _, ?_⟩
    · rw [indexed_fst]; exact List.pairwise_lt_range'
    · intro x hx y hy
      simp only [List.mem_map, List.mem_filter] at hx hy
      obtain ⟨e, ⟨-, he⟩, rfl⟩ := hx
      obtain ⟨f, hf, rfl⟩ := hy
      have := mem_indexed hf
      simp only [decide_eq_true_eq] at he
      omega
    · intro x hx y hy
      simp only [List.mem_append, List.mem_map, List.mem_filter] at hx hy
      obtain ⟨f, ⟨-, hf⟩, rfl⟩ := hy
      simp only [decide_eq_true_eq] at hf
      rcases hx with ⟨e, ⟨-, he⟩, rfl⟩ | ⟨e, he, rfl⟩
      · simp only [decide_eq_true_eq] at he; omega
      · have := mem_indexed he; omega
  · intro e he
    simp only [memWrite, List.mem_append, List.mem_filter] at he
    rcases he with (⟨he, -⟩ | he) | ⟨he, -⟩
    · exact hd e he
    · have := mem_indexed he; omega
    · exact hd e he

theorem lookup_eq_none_of_lt {m : List (Nat × α)} {a : Nat} (h : ∀ e ∈ m, a < e.1) : lookup m a = none := by
  induction m with
  | nil => rfl
  | cons e m ih =>
    have h1 := h e (by simp)
    have h2 : e.1 ≠ a := by omega
    simp [lookup, h2, ih (fun f hf => h f (by simp [hf]))]

/-- Equal memories are equal data: canonical lists with the same entries are the same list. -/
theorem eq_of_lookup {depth depth' : Nat} {m m' : List (Nat × α)} (h : bufferWf depth m = true)
    (h' : bufferWf depth' m' = true) (e : ∀ a, lookup m a = lookup m' a) : m = m' := by
  rw [bufferWf_iff] at h h'
  replace h := h.1
  replace h' := h'.1
  induction m generalizing m' with
  | nil =>
    cases m' with
    | nil => rfl
    | cons f m' => simpa [lookup] using e f.1
  | cons d m ih =>
    cases m' with
    | nil => simpa [lookup] using e d.1
    | cons f m' =>
      obtain ⟨k, v⟩ := d
      obtain ⟨k', v'⟩ := f
      simp only [List.map_cons, List.pairwise_cons, List.mem_map] at h h'
      have lt : ∀ e ∈ m, k < e.1 := fun e he => h.1 _ ⟨e, he, rfl⟩
      have lt' : ∀ e ∈ m', k' < e.1 := fun e he => h'.1 _ ⟨e, he, rfl⟩
      have ek := e k
      have ek' := e k'
      have hk : k = k' := by
        by_contra hne
        rcases Nat.lt_or_gt_of_ne hne with hlt | hlt
        · rw [show lookup ((k', v') :: m') k = none from
            lookup_eq_none_of_lt (fun e he => by
              rcases List.mem_cons.1 he with rfl | he
              · exact hlt
              · exact Nat.lt_trans hlt (lt' e he))] at ek
          simp [lookup] at ek
        · rw [show lookup ((k, v) :: m) k' = none from
            lookup_eq_none_of_lt (fun e he => by
              rcases List.mem_cons.1 he with rfl | he
              · exact hlt
              · exact Nat.lt_trans hlt (lt e he))] at ek'
          simp [lookup] at ek'
      subst hk
      have hv : v = v' := by simpa [lookup] using ek
      subst hv
      congr 1
      refine ih (fun a => ?_) h.2 h'.2
      by_cases ha : k = a
      · subst ha
        rw [lookup_eq_none_of_lt lt, lookup_eq_none_of_lt lt']
      · simpa [lookup, ha] using e a

theorem memory_wf_iff (s : State) : Memory.wf s = true ↔
    bufferWf s.params.pixDepth s.pix = true ∧ bufferWf s.params.payDepth s.pay = true ∧
      bufferWf s.params.frmDepth s.frm = true ∧ bufferWf s.params.bitDepth s.bits = true := by
  simp [Memory.wf, and_assoc]

/-- The memory of a fresh reset has the canonical form. -/
theorem memory_wf_resetWith (p : Params) : Memory.wf (State.resetWith p) = true := by
  simp [memory_wf_iff, State.resetWith, bufferWf]

/-- A host write below the depth keeps the canonical form. -/
theorem memory_wf_hostWrite {s : State} {sp : Space} {a : Nat} {v : Word64} (h : Memory.wf s = true)
    (ha : a < depthOf s.params sp) : Memory.wf (s.hostWrite sp a v) = true := by
  rw [memory_wf_iff] at h ⊢
  obtain ⟨h1, h2, h3, h4⟩ := h
  have hd : ∀ (β : Type) (x : β), a + [x].length ≤ depthOf s.params sp := fun β x => by simpa using ha
  cases sp
  · exact ⟨bufferWf_memWrite h1 (hd _ _), h2, h3, h4⟩
  · exact ⟨h1, bufferWf_memWrite h2 (hd _ _), h3, h4⟩
  · exact ⟨h1, h2, bufferWf_memWrite h3 (hd _ _), h4⟩
  · exact ⟨h1, h2, h3, bufferWf_memWrite h4 (hd _ _)⟩

/-! ### Reads of an entry -/

@[simp] theorem length_memRead (rd : Nat → α) (a n : Nat) : (memRead rd a n).length = n := by simp [memRead]

@[simp] theorem getElem?_memRead (rd : Nat → α) (a n j : Nat) :
    (memRead rd a n)[j]? = if j < n then some (rd (a + j)) else none := by
  by_cases h : j < n <;> simp [memRead, h]

@[simp] theorem getElem_memRead (rd : Nat → α) (a n j : Nat) (h : j < (memRead rd a n).length) :
    (memRead rd a n)[j] = rd (a + j) := by simp [memRead]

theorem memRead_congr {rd rd' : Nat → α} {a n : Nat} (h : ∀ j < n, rd (a + j) = rd' (a + j)) :
    memRead rd a n = memRead rd' a n := by
  apply List.map_congr_left
  intro j hj
  exact h j (List.mem_range.1 hj)

/-- The sequence just written reads back. -/
theorem memRead_eq_of_getElem {rd : Nat → α} {v : List α} (h : ∀ j (hj : j < v.length), rd j = v[j]) :
    memRead rd 0 v.length = v := by
  apply List.ext_getElem (by simp)
  intro j h1 h2
  simp [h j h2]

/-- One entry of a buffer `m` with a default `d`, after a `MemWrite`. -/
theorem getD_lookup_memWrite (m : List (Nat × α)) (a : Nat) (v : List α) (k : Nat) (d : α) :
    (lookup (memWrite m a v) k).getD d =
      if h : a ≤ k ∧ k < a + v.length then v[k - a]'(by omega) else (lookup m k).getD d := by
  rw [lookup_memWrite]
  split
  · rename_i h
    rw [List.getElem?_eq_getElem (by omega)]
    rfl
  · rfl

theorem readPix_writePix (s : State) (a : Nat) (v : Bytes) (k : Nat) : (s.writePix a v).readPix k =
    if h : a ≤ k ∧ k < a + v.length then v[k - a]'(by omega) else s.readPix k :=
  getD_lookup_memWrite ..

theorem readPix_writePix_one (s : State) (a : Nat) (x : Byte) (k : Nat) :
    (s.writePix a [x]).readPix k = if k = a then x else s.readPix k := by
  rw [readPix_writePix]
  by_cases h : k = a
  · subst h; simp
  · have h' : ¬ (a ≤ k ∧ k < a + [x].length) := by simp only [List.length_singleton]; omega
    rw [dif_neg h', if_neg h]

theorem readPay_putPay (s : State) (v : Bytes) (k : Nat) : (s.putPay v).readPay k =
    if h : k < v.length then v[k] else s.readPay k := by
  have h := getD_lookup_memWrite s.pay 0 v k (Config.freePay s.epoch k)
  simp only [Nat.zero_le, true_and, Nat.zero_add, Nat.sub_zero] at h
  exact h

theorem readFrm_putFrm (s : State) (v : Bytes) (k : Nat) : (s.putFrm v).readFrm k =
    if h : k < v.length then v[k] else s.readFrm k := by
  have h := getD_lookup_memWrite s.frm 0 v k (Config.freeFrm s.epoch k)
  simp only [Nat.zero_le, true_and, Nat.zero_add, Nat.sub_zero] at h
  exact h

theorem readBit_putBits (s : State) (v : Bits) (k : Nat) : (s.putBits v).readBit k =
    if h : k < v.length then v[k] else s.readBit k := by
  have h := getD_lookup_memWrite s.bits 0 v k (Config.freeBit s.epoch k)
  simp only [Nat.zero_le, true_and, Nat.zero_add, Nat.sub_zero] at h
  exact h

/-- `FRM[0..len(v))` after `v` was put there. -/
theorem frmBytes_putFrm (s : State) (v : Bytes) : (s.putFrm v).frmBytes v.length = v :=
  memRead_eq_of_getElem (fun j hj => by simp [readFrm_putFrm, hj])

/-- `BITS[0..len(v))` after `v` was put there. -/
theorem stream_putBits (s : State) (v : Bits) : (s.putBits v).stream v.length = v :=
  memRead_eq_of_getElem (fun j hj => by simp [readBit_putBits, hj])

end Sys2Proof.Machine
end

