-- ==== Sys2Proof/Laws/BitPack.lean ====
section
/-! SUPPORT. The bit-packing functions: lengths and entries (40_bitpack.md R110, R111). -/

namespace Sys2Proof.Machine

@[simp] theorem length_byteBits (d : Byte) : (byteBits d).length = 8 := by simp [byteBits]

@[simp] theorem bytesToBits_nil : bytesToBits [] = [] := rfl

@[simp] theorem bytesToBits_cons (d : Byte) (v : Bytes) : bytesToBits (d :: v) = byteBits d ++ bytesToBits v := rfl

theorem bytesToBits_append (v w : Bytes) : bytesToBits (v ++ w) = bytesToBits v ++ bytesToBits w := by
  simp [bytesToBits]

@[simp] theorem length_bytesToBits (v : Bytes) : (bytesToBits v).length = 8 * v.length := by
  induction v with
  | nil => rfl
  | cons d v ih => simp [ih]; omega

/-- Bit `k` of the stream of `v` is bit `7 - (k mod 8)` of byte `k div 8` (R65). -/
theorem getElem?_bytesToBits (v : Bytes) (k : Nat) :
    (bytesToBits v)[k]? = (v[k / 8]?).map (fun d => d.getLsbD (7 - k % 8)) := by
  induction v generalizing k with
  | nil => simp
  | cons d v ih =>
    rw [bytesToBits_cons]
    by_cases h : k < 8
    · rw [List.getElem?_append_left (by simpa using h)]
      have h0 : k / 8 = 0 := by omega
      have h1 : k % 8 = k := by omega
      simp [byteBits, h, h0, h1]
    · rw [List.getElem?_append_right (by simp; omega), length_byteBits, ih]
      have h0 : k / 8 = (k - 8) / 8 + 1 := by omega
      have h1 : (k - 8) % 8 = k % 8 := by omega
      simp [h0, h1]

/-- Bit `7 - b` of a packed byte is bit `b` of its group, 0 past the end (R111). -/
theorem getLsbD_packByte (g : Bits) (b : Nat) (hb : b < 8) : (packByte g).getLsbD (7 - b) = g.getD b false := by
  have key : ∀ c0 c1 c2 c3 c4 c5 c6 c7 : Bool, ∀ b : Fin 8,
      (BitVec.ofNat 8 ([c0.toNat <<< 7, c1.toNat <<< 6, c2.toNat <<< 5, c3.toNat <<< 4, c4.toNat <<< 3,
        c5.toNat <<< 2, c6.toNat <<< 1, c7.toNat <<< 0].sum)).getLsbD (7 - b.val) =
        [c0, c1, c2, c3, c4, c5, c6, c7].getD b.val false := by decide +kernel
  have h := key (g.getD 0 false) (g.getD 1 false) (g.getD 2 false) (g.getD 3 false) (g.getD 4 false) (g.getD 5 false)
    (g.getD 6 false) (g.getD 7 false) ⟨b, hb⟩
  have e : [g.getD 0 false, g.getD 1 false, g.getD 2 false, g.getD 3 false, g.getD 4 false, g.getD 5 false,
    g.getD 6 false, g.getD 7 false].getD b false = g.getD b false := by
    have : b = 0 ∨ b = 1 ∨ b = 2 ∨ b = 3 ∨ b = 4 ∨ b = 5 ∨ b = 6 ∨ b = 7 := by omega
    rcases this with rfl | rfl | rfl | rfl | rfl | rfl | rfl | rfl <;> rfl
  rw [← e]
  exact h

@[simp] theorem length_packBytes (n : Nat) (s : Bits) : (packBytes n s).length = n := by
  induction n generalizing s with
  | zero => rfl
  | succ n ih => simp [packBytes, ih]

theorem getElem?_packBytes (n : Nat) (s : Bits) (j : Nat) :
    (packBytes n s)[j]? = if j < n then some (packByte ((s.drop (8 * j)).take 8)) else none := by
  induction n generalizing s j with
  | zero => simp [packBytes]
  | succ n ih =>
    cases j with
    | zero => simp [packBytes]
    | succ j =>
      simp only [packBytes, List.getElem?_cons_succ, ih, List.drop_drop, Nat.add_lt_add_iff_right]
      rw [show 8 + 8 * j = 8 * (j + 1) by omega]

@[simp] theorem length_bitsToBytes (s : Bits) : (bitsToBytes s).length = ceil8 s.length := by
  simp [bitsToBytes]

/-- Bit `7 - b` of byte `j` is bit `8*j + b` of the stream, 0 past its end (R111). -/
theorem getLsbD_bitsToBytes (s : Bits) (j b : Nat) (hj : j < ceil8 s.length) (hb : b < 8) :
    ((bitsToBytes s).getD j 0).getLsbD (7 - b) = s.getD (8 * j + b) false := by
  have h : (bitsToBytes s)[j]? = some (packByte ((s.drop (8 * j)).take 8)) := by
    rw [bitsToBytes, getElem?_packBytes, if_pos hj]
  rw [List.getD_eq_getElem?_getD, h, Option.getD_some, getLsbD_packByte _ _ hb]
  simp [List.getD_eq_getElem?_getD, hb, List.getElem?_drop]

/-- Two bytes with the same eight bits, named from the top, are equal. -/
theorem byte_ext {x y : Byte} (h : ∀ b < 8, x.getLsbD (7 - b) = y.getLsbD (7 - b)) : x = y := by
  apply BitVec.eq_of_getLsbD_eq
  intro i hi
  have := h (7 - i) (by omega)
  rwa [show 7 - (7 - i) = i by omega] at this

end Sys2Proof.Machine
end

