-- ==== Sys2Proof/Laws/Lsb.lean ====
section
/-! SUPPORT. The sample loops: what `WriteBits` changes, bit by bit, and what `ReadBits` returns (43_lsb.md R150, R151). -/

namespace Sys2Proof.Machine

/-- Writing a slot changes that bit of the sample and no other (R150). -/
theorem getLsbD_setSlot (x : Byte) (t : Nat) (b : Bool) (ht : t < 8) (u : Nat) (hu : u < 8) :
    (setSlot x t b).getLsbD u = if u = t then b else x.getLsbD u := by
  have key : ∀ t u : Fin 8, ∀ b : Bool, ∀ c : Bool,
      ((c && !((1#8 <<< t.val).getLsbD u.val)) || (((BitVec.ofBool b).setWidth 8 <<< t.val).getLsbD u.val)) =
        if u.val = t.val then b else c := by decide +kernel
  have h := key ⟨t, ht⟩ ⟨u, hu⟩ b (x.getLsbD u)
  simp only at h
  rw [← h]
  simp [setSlot, hu]

@[simp] theorem writeBits_nil (bpp p : Nat) (s : State) : writeBits bpp p [] s = s := rfl

theorem writeBits_cons (bpp p : Nat) (b : Bool) (v : Bits) (s : State) : writeBits bpp p (b :: v) s =
    writeBits bpp (p + 1) v (s.writePix (p / bpp) [setSlot (s.readPix (p / bpp)) (p % bpp) b]) := rfl

/-- `WriteBits` writes `PIX` and nothing else. -/
theorem writeBits_frame (bpp p : Nat) (v : Bits) (s : State) :
    writeBits bpp p v s = { s with pix := (writeBits bpp p v s).pix } := by
  induction v generalizing p s with
  | nil => rfl
  | cons b v ih =>
    rw [writeBits_cons, ih]
    rfl

section
variable (bpp p : Nat) (v : Bits) (s : State)
@[simp] theorem writeBits_params : (writeBits bpp p v s).params = s.params := by rw [writeBits_frame]
@[simp] theorem writeBits_cmd : (writeBits bpp p v s).cmd = s.cmd := by rw [writeBits_frame]
@[simp] theorem writeBits_status : (writeBits bpp p v s).status = s.status := by rw [writeBits_frame]
@[simp] theorem writeBits_result : (writeBits bpp p v s).result = s.result := by rw [writeBits_frame]
@[simp] theorem writeBits_ctrl : (writeBits bpp p v s).ctrl = s.ctrl := by rw [writeBits_frame]
@[simp] theorem writeBits_bpp : (writeBits bpp p v s).bpp = s.bpp := by rw [writeBits_frame]
@[simp] theorem writeBits_nsamp : (writeBits bpp p v s).nsamp = s.nsamp := by rw [writeBits_frame]
@[simp] theorem writeBits_paylen : (writeBits bpp p v s).paylen = s.paylen := by rw [writeBits_frame]
@[simp] theorem writeBits_frmlen : (writeBits bpp p v s).frmlen = s.frmlen := by rw [writeBits_frame]
@[simp] theorem writeBits_bitlen : (writeBits bpp p v s).bitlen = s.bitlen := by rw [writeBits_frame]
@[simp] theorem writeBits_bitpos : (writeBits bpp p v s).bitpos = s.bitpos := by rw [writeBits_frame]
@[simp] theorem writeBits_cnt : (writeBits bpp p v s).cnt = s.cnt := by rw [writeBits_frame]
@[simp] theorem writeBits_dlen : (writeBits bpp p v s).dlen = s.dlen := by rw [writeBits_frame]
@[simp] theorem writeBits_metadata : (writeBits bpp p v s).metadata = s.metadata := by rw [writeBits_frame]
@[simp] theorem writeBits_hbpp : (writeBits bpp p v s).hbpp = s.hbpp := by rw [writeBits_frame]
@[simp] theorem writeBits_capbits : (writeBits bpp p v s).capbits = s.capbits := by rw [writeBits_frame]
@[simp] theorem writeBits_capbytes : (writeBits bpp p v s).capbytes = s.capbytes := by rw [writeBits_frame]
@[simp] theorem writeBits_avail : (writeBits bpp p v s).avail = s.avail := by rw [writeBits_frame]
@[simp] theorem writeBits_req : (writeBits bpp p v s).req = s.req := by rw [writeBits_frame]
@[simp] theorem writeBits_pay : (writeBits bpp p v s).pay = s.pay := by rw [writeBits_frame]
@[simp] theorem writeBits_frm : (writeBits bpp p v s).frm = s.frm := by rw [writeBits_frame]
@[simp] theorem writeBits_bits : (writeBits bpp p v s).bits = s.bits := by rw [writeBits_frame]
@[simp] theorem writeBits_epoch : (writeBits bpp p v s).epoch = s.epoch := by rw [writeBits_frame]
@[simp] theorem writeBits_host : (writeBits bpp p v s).host = s.host := by rw [writeBits_frame]
@[simp] theorem writeBits_dataOut : (writeBits bpp p v s).dataOut = s.dataOut := by rw [writeBits_frame]
end

/-- Position `i` is slot `u` of sample `q` exactly when `i = q * bpp + u` with `u < bpp` (R98). -/
theorem position_iff {bpp : Nat} (hb : 0 < bpp) (i q u : Nat) :
    (q = i / bpp ∧ u = i % bpp) ↔ (u < bpp ∧ q * bpp + u = i) := by
  constructor
  · rintro ⟨rfl, rfl⟩
    exact ⟨Nat.mod_lt _ hb, Nat.div_add_mod' i bpp⟩
  · rintro ⟨h1, rfl⟩
    rw [Nat.mul_comm, Nat.mul_add_div hb, Nat.mul_add_mod, Nat.div_eq_of_lt h1, Nat.mod_eq_of_lt h1]
    simp

/-- Every bit of every sample after `WriteBits`: the written slots hold the stream, all else is as before (R150, R154). -/
theorem readPix_writeBits {bpp : Nat} (hb : 0 < bpp) (hb8 : bpp ≤ 8) (p : Nat) (v : Bits) (s : State) (q u : Nat)
    (hu : u < 8) : ((writeBits bpp p v s).readPix q).getLsbD u =
      if u < bpp ∧ p ≤ q * bpp + u ∧ q * bpp + u < p + v.length then v.getD (q * bpp + u - p) false
      else (s.readPix q).getLsbD u := by
  induction v generalizing p s with
  | nil =>
    have : ¬ (p ≤ q * bpp + u ∧ q * bpp + u < p + 0) := by omega
    simp only [writeBits, List.length_nil, this, and_false, if_false]
  | cons b v ih =>
    have hm : p % bpp < 8 := Nat.lt_of_lt_of_le (Nat.mod_lt _ hb) hb8
    have one : ((s.writePix (p / bpp) [setSlot (s.readPix (p / bpp)) (p % bpp) b]).readPix q).getLsbD u =
        if u < bpp ∧ q * bpp + u = p then b else (s.readPix q).getLsbD u := by
      rw [readPix_writePix_one]
      simp only [← position_iff hb]
      by_cases hq : q = p / bpp
      · subst hq
        simp [getLsbD_setSlot _ _ _ hm _ hu]
      · simp [hq]
    rw [writeBits_cons, ih, one, List.length_cons]
    by_cases h1 : u < bpp
    · simp only [h1, true_and]
      by_cases h2 : q * bpp + u = p
      · have hn : ¬ (p + 1 ≤ q * bpp + u ∧ q * bpp + u < p + 1 + v.length) := by omega
        have hy : p ≤ q * bpp + u ∧ q * bpp + u < p + (v.length + 1) := by omega
        rw [if_neg hn, if_pos h2, if_pos hy, h2, Nat.sub_self, List.getD_cons_zero]
      · rw [if_neg h2]
        by_cases h3 : p + 1 ≤ q * bpp + u ∧ q * bpp + u < p + 1 + v.length
        · have hy : p ≤ q * bpp + u ∧ q * bpp + u < p + (v.length + 1) := by omega
          rw [if_pos h3, if_pos hy, show q * bpp + u - p = q * bpp + u - (p + 1) + 1 by omega, List.getD_cons_succ]
        · have hn : ¬ (p ≤ q * bpp + u ∧ q * bpp + u < p + (v.length + 1)) := by omega
          rw [if_neg h3, if_neg hn]
    · simp [h1]

/-- `WriteBits` within the image keeps the canonical form of `PIX`. -/
theorem bufferWf_writeBits {bpp depth : Nat} (hb : 0 < bpp) (p : Nat) (v : Bits) (s : State) (n : Nat)
    (h : bufferWf depth s.pix = true) (hn : n ≤ depth) (hv : p + v.length ≤ n * bpp) :
    bufferWf depth (writeBits bpp p v s).pix = true := by
  induction v generalizing p s with
  | nil => exact h
  | cons b v ih =>
    rw [List.length_cons] at hv
    have hq : p / bpp < n := (Nat.div_lt_iff_lt_mul hb).2 (by omega)
    refine ih (p + 1) _ (bufferWf_memWrite h ?_) (by omega)
    simp only [List.length_singleton]
    omega

@[simp] theorem length_readBits (bpp p n : Nat) (s : State) : (readBits bpp p n s).length = n := by simp [readBits]

/-- Bit `k` of what `ReadBits` returns: slot `(p + k) mod bpp` of sample `(p + k) div bpp` (R151). -/
theorem getElem?_readBits (bpp p n k : Nat) (s : State) : (readBits bpp p n s)[k]? =
    if k < n then some ((s.readPix ((p + k) / bpp)).getLsbD ((p + k) % bpp)) else none := by
  simp [readBits, State.readSlot, slotAddr]

/-- `ReadBits` depends on the samples alone. -/
theorem readBits_congr {bpp p n : Nat} {s s' : State} (h : ∀ q, s.readPix q = s'.readPix q) :
    readBits bpp p n s = readBits bpp p n s' := by
  refine memRead_congr (fun j _ => ?_)
  simp [State.readSlot, h]

@[simp] theorem latchBits_readPix (v : Bits) (p : Nat) (s : State) (q : Nat) :
    (latchBits v p s).readPix q = s.readPix q := rfl

end Sys2Proof.Machine
end

