-- ==== Sys2Proof/Laws/Commands.lean ====
section
/-! SUPPORT. What each shared operation and each command can do, said once: one lemma of cases per operation, with its
guards; and what a property kept by every operation gives of a command. -/

namespace Sys2Proof.Machine

/-! ### Parameters and operands -/

/-- The constraints of R7, one by one. -/
theorem paramsWf_iff (p : Params) : p.wf = true ↔
    1 ≤ p.pixDepth ∧ p.pixDepth ≤ 2 ^ 32 - 1 ∧ p.payDepth ≤ 2 ^ 32 - 1 ∧ 5 ≤ p.frmDepth ∧ p.frmDepth ≤ 2 ^ 32 + 4 ∧
      40 ≤ p.bitDepth ∧ p.bitDepth ≤ 8 * (2 ^ 32 + 4) := by
  simp [Params.wf, and_assoc]

theorem bppLegal_iff (s : State) : s.bppLegal = true ↔ s.BppIs123 := by
  simp [State.bppLegal, State.BppIs123, or_assoc]

theorem bpp_bounds {s : State} (h : s.BppIs123) : 0 < s.bpp.toNat ∧ s.bpp.toNat ≤ 3 := by
  rcases h with h | h | h <;> simp [h]

theorem cdis_eq (s : State) : s.cdis = (s.ctrl == 1) := by
  have key : ∀ c : BitVec 1, c.getLsbD 0 = (c == 1) := by decide
  exact key s.ctrl

theorem secret_eq (s : State) : s.secret = (List.range s.paylen.toNat).map s.readPay := by
  simp [State.secret, memRead]

theorem frmBytes_eq (s : State) (n : Nat) : s.frmBytes n = (List.range n).map s.readFrm := by
  simp [State.frmBytes, memRead]

@[simp] theorem length_secret (s : State) : s.secret.length = s.paylen.toNat := by simp [State.secret]

@[simp] theorem length_frmBytes (s : State) (n : Nat) : (s.frmBytes n).length = n := by simp [State.frmBytes]

@[simp] theorem length_stream (s : State) (n : Nat) : (s.stream n).length = n := by simp [State.stream]

@[simp] theorem getElem?_stream (s : State) (n k : Nat) :
    (s.stream n)[k]? = if k < n then some (s.readBit k) else none := by simp [State.stream]

@[simp] theorem getElem?_frmBytes (s : State) (n k : Nat) :
    (s.frmBytes n)[k]? = if k < n then some (s.readFrm k) else none := by simp [State.frmBytes]

@[simp] theorem length_packHeader (len : BitVec 32) (c : Bool) (bpp : BitVec 32) :
    (packHeader len c bpp).length = 5 := rfl

/-! ### The flow of a command -/

@[simp] theorem Flow.andThen_goOn (s : State) (g : State → Flow) : (Flow.goOn s).andThen g = g s := rfl

@[simp] theorem Flow.andThen_ended (s : State) (g : State → Flow) : (Flow.ended s).andThen g = .ended s := rfl

@[simp] theorem Flow.finish_goOn (s : State) : (Flow.goOn s).finish = s.succeed := rfl

@[simp] theorem Flow.finish_ended (s : State) : (Flow.ended s).finish = s := rfl

/-- What holds wherever the flow stands: `P` of the state it goes on in, `Q` of the state a `raise` has ended it in. -/
def Flow.Holds (P Q : State → Prop) : Flow → Prop
  | .goOn s => P s
  | .ended s => Q s

@[simp] theorem Flow.holds_goOn (P Q : State → Prop) (s : State) : (Flow.goOn s).Holds P Q = P s := rfl

@[simp] theorem Flow.holds_ended (P Q : State → Prop) (s : State) : (Flow.ended s).Holds P Q = Q s := rfl

theorem Flow.holds_andThen {P P' Q : State → Prop} {f : Flow} {g : State → Flow} (hf : f.Holds P Q)
    (hg : ∀ s, P s → (g s).Holds P' Q) : (f.andThen g).Holds P' Q := by
  cases f with
  | goOn s => exact hg s hf
  | ended s => exact hf

theorem Flow.holds_finish {P Q R : State → Prop} {f : Flow} (hf : f.Holds P Q) (hP : ∀ s, P s → R s.succeed)
    (hQ : ∀ s, Q s → R s) : R f.finish := by
  cases f with
  | goOn s => exact hP s hf
  | ended s => exact hQ s hf

/-! ### Reads after an end -/

section
variable (s : State)
@[simp] theorem readPix_succeed (q : Nat) : s.succeed.readPix q = s.readPix q := rfl
@[simp] theorem readPay_succeed (q : Nat) : s.succeed.readPay q = s.readPay q := rfl
@[simp] theorem readFrm_succeed (q : Nat) : s.succeed.readFrm q = s.readFrm q := rfl
@[simp] theorem readBit_succeed (q : Nat) : s.succeed.readBit q = s.readBit q := rfl
@[simp] theorem readPix_raise (k : ErrorKind) (q : Nat) : (s.raise k).readPix q = s.readPix q := rfl
@[simp] theorem readPay_raise (k : ErrorKind) (q : Nat) : (s.raise k).readPay q = s.readPay q := rfl
@[simp] theorem readFrm_raise (k : ErrorKind) (q : Nat) : (s.raise k).readFrm q = s.readFrm q := rfl
@[simp] theorem readBit_raise (k : ErrorKind) (q : Nat) : (s.raise k).readBit q = s.readBit q := rfl
end

/-! ### The shared operations -/

/-- Step 3 of `EMBED` and `B2BITS` after its first test. -/
theorem frameToBits_cases (s : State) :
    (8 * s.frmlen.toNat > s.params.bitDepth ∧ frameToBits s = .ended (s.raise .resourceExceeded)) ∨
    (8 * s.frmlen.toNat ≤ s.params.bitDepth ∧
      frameToBits s = .goOn (s.putBits (bytesToBits (s.frmBytes s.frmlen.toNat)))) := by
  unfold frameToBits
  split
  · exact .inl ⟨‹_›, rfl⟩
  · exact .inr ⟨by omega, rfl⟩

/-- `CAPBITS` receives the usable capacity modulo 2^64. -/
theorem capRegister_toNat_mod (nsamp : Word64) (bpp : BitVec 32) :
    (capRegister nsamp bpp).toNat = capBits nsamp.toNat bpp.toNat % 2 ^ 64 := by
  rw [capRegister, BitVec.toNat_ofNat]

/-- `CAPBITS` receives the usable capacity, exactly, wherever it fits. -/
theorem capRegister_toNat {nsamp : Word64} {bpp : BitVec 32} (h : capBits nsamp.toNat bpp.toNat < 2 ^ 64) :
    (capRegister nsamp bpp).toNat = capBits nsamp.toNat bpp.toNat := by
  rw [capRegister_toNat_mod, Nat.mod_eq_of_lt h]

/-- `CAPBYTES` is never truncated: an eighth of a register fits a register. -/
theorem capBytesRegister_toNat (c : Word64) : (BitVec.ofNat 64 (c.toNat / 8)).toNat = c.toNat / 8 := by
  have := c.isLt
  simp
  omega

/-- `CAPQ` after its parameter test, and step 4 of `EMBED`. -/
theorem reportCapacity_cases (s : State) :
    (s.nsamp = 0 ∧ reportCapacity s = .ended (s.raise .imageDecodeError)) ∨
    (s.nsamp ≠ 0 ∧ reportCapacity s = .goOn
      { s with capbits := capRegister s.nsamp s.bpp,
               capbytes := BitVec.ofNat 64 ((capRegister s.nsamp s.bpp).toNat / 8) }) := by
  unfold reportCapacity
  split
  · exact .inl ⟨‹_›, rfl⟩
  · exact .inr ⟨‹_›, rfl⟩

/-- `FBUILD`, and step 2 of `EMBED`. -/
theorem buildFrame_cases (codec : Codec) (s : State) :
    ((s.paylen.toNat > s.params.payDepth ∨
        5 + (compressStage codec s.params.deflatePresent s.secret s.cdis).1.length > s.params.frmDepth) ∧
      buildFrame codec s = .ended (s.raise .resourceExceeded)) ∨
    (s.paylen.toNat ≤ s.params.payDepth ∧
      5 + (compressStage codec s.params.deflatePresent s.secret s.cdis).1.length ≤ s.params.frmDepth ∧
      ∀ body c, compressStage codec s.params.deflatePresent s.secret s.cdis = (body, c) →
        buildFrame codec s = .goOn
          { s.putFrm (packHeader (BitVec.ofNat 32 body.length) c s.bpp ++ body) with
              dlen := BitVec.ofNat 32 body.length, metadata := metadataByte c s.bpp }) := by
  obtain ⟨body, c, hcs⟩ : ∃ body c, compressStage codec s.params.deflatePresent s.secret s.cdis = (body, c) :=
    ⟨_, _, rfl⟩
  rw [buildFrame, hcs]
  by_cases h1 : s.paylen.toNat > s.params.payDepth
  · exact .inl ⟨.inl h1, if_pos h1⟩
  · rw [if_neg h1]
    by_cases h2 : 5 + body.length > s.params.frmDepth
    · exact .inl ⟨.inr h2, if_pos h2⟩
    · refine .inr ⟨by omega, Nat.not_lt.1 h2, fun b d h => ?_⟩
      cases h
      exact if_neg h2

/-- `FPARSE` after its length tests, and the parse of `EXTRACT`. -/
theorem latchHeader_cases (b : Bits) (s : State) :
    ((parseHeader b).len.toNat > 10000000 ∧ latchHeader b s = .ended (s.raise .invalidDataLength)) ∨
    ((parseHeader b).len.toNat ≤ 10000000 ∧ latchHeader b s = .goOn
      { s with dlen := (parseHeader b).len, metadata := (parseHeader b).metadata, hbpp := (parseHeader b).hbpp }) := by
  by_cases h : (parseHeader b).len.toNat > 10000000
  · exact .inl ⟨h, if_pos h⟩
  · exact .inr ⟨by omega, if_neg h⟩

/-- `FBODY` after its depth test, and step 5 of `EXTRACT`. -/
theorem deliverBody_cases (codec : Codec) (n : Nat) (s : State) :
    (decompressStage codec s.params.deflatePresent (s.frmBytes n) s.metaC = none ∧
      deliverBody codec n s = .ended (s.raise .decompressionError)) ∨
    (∃ out, decompressStage codec s.params.deflatePresent (s.frmBytes n) s.metaC = some out ∧
      ((out.length > s.params.payDepth ∧ deliverBody codec n s = .ended (s.raise .resourceExceeded)) ∨
        (out.length ≤ s.params.payDepth ∧ deliverBody codec n s = .goOn (s.putPay out)))) := by
  unfold deliverBody
  cases decompressStage codec s.params.deflatePresent (s.frmBytes n) s.metaC with
  | none => exact .inl ⟨rfl, rfl⟩
  | some out =>
    refine .inr ⟨out, rfl, ?_⟩
    dsimp only
    split
    · exact .inl ⟨‹_›, rfl⟩
    · exact .inr ⟨by omega, rfl⟩

/-- The comparison of step 4 of `EMBED`. -/
theorem checkFits_cases (s : State) :
    (s.bitlen.toNat > s.slots ∧ checkFits s = .ended
      ({ s with avail := s.capbytes, req := s.dlen.setWidth 64 }.raise .capacityExceeded)) ∨
    (s.bitlen.toNat ≤ s.slots ∧ checkFits s = .goOn s) := by
  unfold checkFits
  split
  · exact .inl ⟨‹_›, rfl⟩
  · exact .inr ⟨by omega, rfl⟩

/-- Steps 3 and 4 of `EXTRACT`. -/
theorem readBody_cases (s : State) :
    (40 + 8 * s.dlen.toNat > s.slots ∧ readBody s = .ended (s.raise .insufficientData)) ∨
    (40 + 8 * s.dlen.toNat ≤ s.slots ∧ 8 * s.dlen.toNat > s.params.bitDepth ∧
      readBody s = .ended (s.raise .resourceExceeded)) ∨
    (40 + 8 * s.dlen.toNat ≤ s.slots ∧ 8 * s.dlen.toNat ≤ s.params.bitDepth ∧ s.dlen.toNat > s.params.frmDepth ∧
      readBody s = .ended
        ((latchBits (readBits s.bpp.toNat 40 (8 * s.dlen.toNat) s) 40 s).raise .resourceExceeded)) ∨
    (40 + 8 * s.dlen.toNat ≤ s.slots ∧ 8 * s.dlen.toNat ≤ s.params.bitDepth ∧ s.dlen.toNat ≤ s.params.frmDepth ∧
      readBody s = .goOn ((latchBits (readBits s.bpp.toNat 40 (8 * s.dlen.toNat) s) 40 s).putFrm
        (bitsToBytes (readBits s.bpp.toNat 40 (8 * s.dlen.toNat) s)))) := by
  rw [readBody]
  by_cases h1 : 40 + 8 * s.dlen.toNat > s.slots
  · exact .inl ⟨h1, if_pos h1⟩
  · by_cases h2 : 8 * s.dlen.toNat > s.params.bitDepth
    · exact .inr (.inl ⟨by omega, h2, (if_neg h1).trans (if_pos h2)⟩)
    · by_cases h3 : s.dlen.toNat > s.params.frmDepth
      · exact .inr (.inr (.inl ⟨by omega, by omega, h3, ((if_neg h1).trans (if_neg h2)).trans (if_pos h3)⟩))
      · exact .inr (.inr (.inr ⟨by omega, by omega, by omega, ((if_neg h1).trans (if_neg h2)).trans (if_neg h3)⟩))

/-! ### The commands -/

/-- `B2BITS`: what it can do. -/
theorem b2bits_cases (s : State) :
    ((s.frmlen.toNat > s.params.frmDepth ∨ 8 * s.frmlen.toNat > s.params.bitDepth) ∧
      b2bits s = s.raise .resourceExceeded) ∨
    (s.frmlen.toNat ≤ s.params.frmDepth ∧ 8 * s.frmlen.toNat ≤ s.params.bitDepth ∧
      b2bits s = (s.putBits (bytesToBits (s.frmBytes s.frmlen.toNat))).succeed) := by
  unfold b2bits
  split
  · exact .inl ⟨.inl ‹_›, rfl⟩
  · rcases frameToBits_cases s with ⟨h, e⟩ | ⟨h, e⟩ <;> rw [e]
    · exact .inl ⟨.inr h, rfl⟩
    · exact .inr ⟨by omega, h, rfl⟩

/-- `BITS2B`: what it can do. -/
theorem bits2b_cases (s : State) :
    ((s.bitlen.toNat > s.params.bitDepth ∨ ceil8 s.bitlen.toNat > s.params.frmDepth) ∧
      bits2b s = s.raise .resourceExceeded) ∨
    (s.bitlen.toNat ≤ s.params.bitDepth ∧ ceil8 s.bitlen.toNat ≤ s.params.frmDepth ∧
      bits2b s = (s.putFrm (bitsToBytes (s.stream s.bitlen.toNat))).succeed) := by
  unfold bits2b
  split
  · exact .inl ⟨.inl ‹_›, rfl⟩
  · split
    · exact .inl ⟨.inr ‹_›, rfl⟩
    · exact .inr ⟨by omega, by omega, rfl⟩

/-- `CAPQ`: what it can do. -/
theorem capq_cases (s : State) :
    (¬ s.BppIs123 ∧ capq s = s.raise .invalidParameter) ∨
    (s.BppIs123 ∧ s.nsamp = 0 ∧ capq s = s.raise .imageDecodeError) ∨
    (s.BppIs123 ∧ s.nsamp ≠ 0 ∧ capq s = State.succeed
      { s with capbits := capRegister s.nsamp s.bpp,
               capbytes := BitVec.ofNat 64 ((capRegister s.nsamp s.bpp).toNat / 8) }) := by
  unfold capq
  rw [← bppLegal_iff]
  cases hb : s.bppLegal
  · exact .inl ⟨by simp, rfl⟩
  · rcases reportCapacity_cases s with ⟨h, e⟩ | ⟨h, e⟩ <;> simp only [e]
    · exact .inr (.inl ⟨trivial, h, rfl⟩)
    · exact .inr (.inr ⟨trivial, h, rfl⟩)

/-- `FPARSE`: what it can do. -/
theorem fparse_cases (s : State) :
    (s.bitlen.toNat > s.params.bitDepth ∧ fparse s = s.raise .resourceExceeded) ∨
    (s.bitlen.toNat ≤ s.params.bitDepth ∧ s.bitlen.toNat < 40 ∧ fparse s = s.raise .corruptHeader) ∨
    (s.bitlen.toNat ≤ s.params.bitDepth ∧ 40 ≤ s.bitlen.toNat ∧
      fparse s = (latchHeader (s.stream 40) s).finish) := by
  rw [fparse]
  by_cases h1 : s.bitlen.toNat > s.params.bitDepth
  · exact .inl ⟨h1, if_pos h1⟩
  · by_cases h2 : s.bitlen.toNat < 40
    · exact .inr (.inl ⟨by omega, h2, (if_neg h1).trans (if_pos h2)⟩)
    · exact .inr (.inr ⟨by omega, by omega, (if_neg h1).trans (if_neg h2)⟩)

/-- `FBODY`: what it can do. -/
theorem fbody_cases (codec : Codec) (s : State) :
    (s.frmlen.toNat > s.params.frmDepth ∧ fbody codec s = s.raise .resourceExceeded) ∨
    (s.frmlen.toNat ≤ s.params.frmDepth ∧
      fbody codec s = (deliverBody codec (min s.frmlen.toNat s.dlen.toNat) s).finish) := by
  unfold fbody
  split
  · exact .inl ⟨‹_›, rfl⟩
  · exact .inr ⟨by omega, rfl⟩

/-- `LSBW`: what it can do. -/
theorem lsbw_cases (s : State) :
    (¬ s.BppIs123 ∧ lsbw s = s.raise .invalidParameter) ∨
    (s.BppIs123 ∧ (s.nsamp.toNat > s.params.pixDepth ∨ s.bitlen.toNat > s.params.bitDepth) ∧
      lsbw s = s.raise .resourceExceeded) ∨
    (s.BppIs123 ∧ s.nsamp.toNat ≤ s.params.pixDepth ∧ s.bitlen.toNat ≤ s.params.bitDepth ∧
      s.bitpos.toNat + s.bitlen.toNat > s.slots ∧ lsbw s = s.raise .capacityExceeded) ∨
    (s.BppIs123 ∧ s.nsamp.toNat ≤ s.params.pixDepth ∧ s.bitlen.toNat ≤ s.params.bitDepth ∧
      s.bitpos.toNat + s.bitlen.toNat ≤ s.slots ∧ lsbw s = State.succeed
        { writeBits s.bpp.toNat s.bitpos.toNat (s.stream s.bitlen.toNat) s with
            bitpos := BitVec.ofNat 64 (s.bitpos.toNat + s.bitlen.toNat) }) := by
  unfold lsbw
  rw [← bppLegal_iff]
  cases hb : s.bppLegal
  · exact .inl ⟨by simp, rfl⟩
  · simp only [Bool.not_true, Bool.false_eq_true, if_false]
    split
    · exact .inr (.inl ⟨trivial, .inl ‹_›, rfl⟩)
    · split
      · exact .inr (.inl ⟨trivial, .inr ‹_›, rfl⟩)
      · split
        · exact .inr (.inr (.inl ⟨trivial, by omega, by omega, ‹_›, rfl⟩))
        · exact .inr (.inr (.inr ⟨trivial, by omega, by omega, by omega, rfl⟩))

/-- `LSBR`: what it can do. -/
theorem lsbr_cases (s : State) :
    (¬ s.BppIs123 ∧ lsbr s = s.raise .invalidParameter) ∨
    (s.BppIs123 ∧ (s.nsamp.toNat > s.params.pixDepth ∨ s.cnt.toNat > s.params.bitDepth) ∧
      lsbr s = s.raise .resourceExceeded) ∨
    (s.BppIs123 ∧ s.nsamp.toNat ≤ s.params.pixDepth ∧ s.cnt.toNat ≤ s.params.bitDepth ∧
      s.bitpos.toNat + s.cnt.toNat > s.slots ∧ lsbr s = s.raise .insufficientData) ∨
    (s.BppIs123 ∧ s.nsamp.toNat ≤ s.params.pixDepth ∧ s.cnt.toNat ≤ s.params.bitDepth ∧
      s.bitpos.toNat + s.cnt.toNat ≤ s.slots ∧
      lsbr s = (latchBits (readBits s.bpp.toNat s.bitpos.toNat s.cnt.toNat s) s.bitpos.toNat s).succeed) := by
  unfold lsbr
  rw [← bppLegal_iff]
  cases hb : s.bppLegal
  · exact .inl ⟨by simp, rfl⟩
  · simp only [Bool.not_true, Bool.false_eq_true, if_false]
    split
    · exact .inr (.inl ⟨trivial, .inl ‹_›, rfl⟩)
    · split
      · exact .inr (.inl ⟨trivial, .inr ‹_›, rfl⟩)
      · split
        · exact .inr (.inr (.inl ⟨trivial, by omega, by omega, ‹_›, rfl⟩))
        · exact .inr (.inr (.inr ⟨trivial, by omega, by omega, by omega, rfl⟩))

/-- `EMBED`: its entry tests, then the chain of its steps. -/
theorem embed_cases (codec : Codec) (s : State) :
    (¬ s.BppIs123 ∧ embed codec s = s.raise .invalidParameter) ∨
    (s.BppIs123 ∧ s.nsamp.toNat > s.params.pixDepth ∧ embed codec s = s.raise .resourceExceeded) ∨
    (s.BppIs123 ∧ s.nsamp.toNat ≤ s.params.pixDepth ∧ embed codec s =
      (((((buildFrame codec s).andThen frameToBits).andThen reportCapacity).andThen checkFits).andThen
        writeFrame).finish) := by
  unfold embed
  rw [← bppLegal_iff]
  cases hb : s.bppLegal
  · exact .inl ⟨by simp, rfl⟩
  · simp only [Bool.not_true, Bool.false_eq_true, if_false]
    split
    · exact .inr (.inl ⟨trivial, ‹_›, rfl⟩)
    · exact .inr (.inr ⟨trivial, by omega, rfl⟩)

/-- `EXTRACT`: its entry tests, then the chain of its steps. -/
theorem extract_cases (codec : Codec) (s : State) :
    (¬ s.BppIs123 ∧ extract codec s = s.raise .invalidParameter) ∨
    (s.BppIs123 ∧ s.nsamp.toNat > s.params.pixDepth ∧ extract codec s = s.raise .resourceExceeded) ∨
    (s.BppIs123 ∧ s.nsamp.toNat ≤ s.params.pixDepth ∧ s.nsamp.toNat < 40 ∧
      extract codec s = s.raise .insufficientData) ∨
    (s.BppIs123 ∧ s.nsamp.toNat ≤ s.params.pixDepth ∧ 40 ≤ s.nsamp.toNat ∧ extract codec s =
      (((latchHeader (readBits s.bpp.toNat 0 40 s) (latchBits (readBits s.bpp.toNat 0 40 s) 0 s)).andThen
        readBody).andThen (finishBody codec)).finish) := by
  rw [extract, ← bppLegal_iff]
  cases hb : s.bppLegal
  · exact .inl ⟨by simp, rfl⟩
  · simp only [Bool.not_true, Bool.false_eq_true, if_false]
    by_cases h1 : s.nsamp.toNat > s.params.pixDepth
    · exact .inr (.inl ⟨trivial, h1, if_pos h1⟩)
    · by_cases h2 : s.nsamp.toNat < 40
      · exact .inr (.inr (.inl ⟨trivial, by omega, h2, (if_neg h1).trans (if_pos h2)⟩))
      · exact .inr (.inr (.inr ⟨trivial, by omega, by omega, (if_neg h1).trans (if_neg h2)⟩))

end Sys2Proof.Machine
end

