-- ==== Sys2Proof/Laws/Frame.lean ====
section
/-! SUPPORT. The frame's wire format: the bytes `PackHeader` gives and what `ParseHeader` reads from forty bits
(30_encoding.md R90 to R97). -/

namespace Sys2Proof.Machine

/-- The metadata byte as a number: flag in bit 7, `BPP & 7` below, bits 6:3 zero (R92, R94). -/
theorem metadataByte_toNat (c : Bool) (bpp : BitVec 32) :
    (metadataByte c bpp).toNat = 128 * c.toNat + bpp.toNat % 8 := by
  have key : ∀ (c : Bool) (x : Byte),
      (((BitVec.ofBool c).setWidth 8 <<< 7) ||| (x &&& 0x07)).toNat = 128 * c.toNat + x.toNat % 8 := by decide +kernel
  rw [metadataByte, key]
  simp [Nat.mod_mod_of_dvd]

/-- The flag of the metadata byte is the flag packed (R92). -/
theorem metadataByte_flag (c : Bool) (bpp : BitVec 32) : (metadataByte c bpp).getLsbD 7 = c := by
  have key : ∀ (c : Bool) (x : Byte),
      (((BitVec.ofBool c).setWidth 8 <<< 7) ||| (x &&& 0x07)).getLsbD 7 = c := by decide +kernel
  exact key c _

/-- The fallback of R96 as a number. -/
theorem headerBpp_toNat (m : Byte) : (headerBpp m).toNat = fallbackBpp m := by
  have key : ∀ m : Byte, (headerBpp m).toNat = fallbackBpp m := by decide +kernel
  exact key m

/-- Bit `i` of four bytes put together, the first one on top. -/
theorem getLsbD_bigEndian (a b c d : Byte) (i : Nat) (hi : i < 32) : (a ++ b ++ c ++ d : BitVec 32).getLsbD i =
    if i < 8 then d.getLsbD i else if i < 16 then c.getLsbD (i - 8)
    else if i < 24 then b.getLsbD (i - 16) else a.getLsbD (i - 24) := by
  simp only [BitVec.getLsbD_append]
  by_cases h0 : i < 8
  · simp [h0]
  · by_cases h1 : i < 16
    · simp [h0, h1, show i - 8 < 8 by omega]
    · by_cases h2 : i < 24
      · simp [h0, h1, h2, show ¬ i - 8 < 8 by omega, show i - 8 - 8 = i - 16 by omega, show i - 16 < 8 by omega]
      · simp [h0, h1, h2, show ¬ i - 8 < 8 by omega, show ¬ i - 8 - 8 < 8 by omega,
          show i - 8 - 8 - 8 = i - 24 by omega]

/-- Forty bits that spell a length field and a metadata byte parse to them (R96). -/
theorem parseHeader_of_spelt {b : Bits} {len : BitVec 32} {m : Byte} (hl : b.length = 40)
    (h : HeaderSpelt (fun k => b.getD k false) len m) :
    parseHeader b = { len := len, metadata := m, c := m.getLsbD 7, hbpp := headerBpp m } := by
  have hb : ∀ j c, j < 5 → c < 8 → ((bitsToBytes b).getD j 0).getLsbD (7 - c) = b.getD (8 * j + c) false :=
    fun j c hj hc => getLsbD_bitsToBytes b j c (by rw [hl, ceil8]; omega) hc
  have hm : (bitsToBytes b).getD 4 0 = m := byte_ext (fun k hk => by rw [hb 4 k (by omega) hk, h.metadata k hk])
  have hlen : (bitsToBytes b).getD 0 0 ++ (bitsToBytes b).getD 1 0 ++ (bitsToBytes b).getD 2 0 ++
      (bitsToBytes b).getD 3 0 = len := by
    apply BitVec.eq_of_getLsbD_eq
    intro i hi
    have hs := h.len (31 - i) (by omega)
    rw [show 31 - (31 - i) = i by omega] at hs
    rw [hs, getLsbD_bigEndian _ _ _ _ i (by omega)]
    have step : ∀ j, j < 4 → 8 * (3 - j) ≤ i → i < 8 * (3 - j) + 8 →
        ((bitsToBytes b).getD j 0).getLsbD (i - 8 * (3 - j)) = b.getD (31 - i) false := fun j hj h1 h2 => by
      have := hb j (7 - (i - 8 * (3 - j))) (by omega) (by omega)
      rwa [show 7 - (7 - (i - 8 * (3 - j))) = i - 8 * (3 - j) by omega,
        show 8 * j + (7 - (i - 8 * (3 - j))) = 31 - i by omega] at this
    by_cases h0 : i < 8
    · rw [if_pos h0]; simpa using step 3 (by omega) (by omega) (by omega)
    · rw [if_neg h0]
      by_cases h1 : i < 16
      · rw [if_pos h1]; simpa using step 2 (by omega) (by omega) (by omega)
      · rw [if_neg h1]
        by_cases h2 : i < 24
        · rw [if_pos h2]; simpa using step 1 (by omega) (by omega) (by omega)
        · rw [if_neg h2]; simpa using step 0 (by omega) (by omega) (by omega)
  simp only [parseHeader, hm, hlen]

/-- The bytes of a packed header: the length big-endian, then the metadata byte (R64, R90). -/
theorem packHeader_bytes (len : BitVec 32) (c : Bool) (bpp : BitVec 32) : ∃ b3 b2 b1 b0 : Byte,
    packHeader len c bpp = [b3, b2, b1, b0, metadataByte c bpp] ∧ b3.toNat = len.toNat / 2 ^ 24 ∧
      b2.toNat = len.toNat / 2 ^ 16 % 256 ∧ b1.toNat = len.toNat / 2 ^ 8 % 256 ∧ b0.toNat = len.toNat % 256 := by
  refine ⟨_, _, _, _, rfl, ?_, ?_, ?_, ?_⟩ <;> simp [Nat.shiftRight_eq_div_pow]
  have := len.isLt
  omega

/-! ### What the frame operations leave -/

/-- The body the compression stage gives is never longer than the secret (R172). -/
theorem compressStage_length {codec : Codec} {present : Bool} {x : Bytes} {cdis : Bool} {body : Bytes} {c : Bool}
    (h : compressStage codec present x cdis = (body, c)) : body.length ≤ x.length := by
  unfold compressStage at h
  split at h
  · cases h; exact Nat.le_refl _
  · split at h
    · cases h; exact Nat.le_refl _
    · split at h
      · cases h; exact Nat.le_refl _
      · split at h <;> cases h <;> omega

/-- The state `buildFrame` goes on in holds the frame of its body. -/
theorem frameHeld_build (s : State) (body : Bytes) (c : Bool) (hb : body.length < 2 ^ 32) :
    FrameHeld body c s { s.putFrm (packHeader (BitVec.ofNat 32 body.length) c s.bpp ++ body) with
      dlen := BitVec.ofNat 32 body.length, metadata := metadataByte c s.bpp } := by
  obtain ⟨b3, b2, b1, b0, e, h3, h2, h1, h0⟩ := packHeader_bytes (BitVec.ofNat 32 body.length) c s.bpp
  have hl : (BitVec.ofNat 32 body.length).toNat = body.length := by simp; omega
  rw [hl] at h3 h2 h1 h0
  have rd : ∀ k, State.readFrm { s.putFrm (packHeader (BitVec.ofNat 32 body.length) c s.bpp ++ body) with
      dlen := BitVec.ofNat 32 body.length, metadata := metadataByte c s.bpp } k =
      if h : k < 5 + body.length then
        (packHeader (BitVec.ofNat 32 body.length) c s.bpp ++ body)[k]'(by simp; omega) else s.readFrm k := by
    intro k
    refine (readFrm_putFrm s _ k).trans ?_
    simp
  constructor
  · simp; omega
  · exact hl
  · exact metadataByte_toNat _ _
  · rw [rd, dif_pos (by omega)]; simpa [e] using h3
  · rw [rd, dif_pos (by omega)]; simpa [e] using h2
  · rw [rd, dif_pos (by omega)]; simpa [e] using h1
  · rw [rd, dif_pos (by omega)]; simpa [e] using h0
  · rw [rd, dif_pos (by omega)]; simp [e]
  · intro j hj
    rw [rd, dif_pos (by omega), List.getElem_append_right (by simp)]
    simp
  · intro j hj
    rw [rd, dif_neg (by omega)]

/-- The state `frameToBits` goes on in holds the stream of the frame. -/
theorem streamHeld_putBits (s : State) (h : 8 * s.frmlen.toNat < 2 ^ 64) :
    StreamHeld s (s.putBits (bytesToBits (s.frmBytes s.frmlen.toNat))) := by
  have rd := readBit_putBits s (bytesToBits (s.frmBytes s.frmlen.toNat))
  have len : (bytesToBits (s.frmBytes s.frmlen.toNat)).length = 8 * s.frmlen.toNat := by simp
  constructor
  · simp; omega
  · intro k hk
    rw [rd, dif_pos (by simpa using hk)]
    apply Option.some.inj
    rw [← List.getElem?_eq_getElem, getElem?_bytesToBits, getElem?_frmBytes, if_pos (by simp at hk; omega)]
    rfl
  · intro k hk
    rw [rd, dif_neg (by simpa using hk)]

/-- The state a body is delivered in holds it in `PAY`. -/
theorem payloadHeld_putPay (s : State) (out : Bytes) (h : out.length < 2 ^ 64) : PayloadHeld out s (s.putPay out) := by
  constructor
  · simp; omega
  · intro j hj; rw [readPay_putPay, dif_pos hj]
  · intro j hj; rw [readPay_putPay, dif_neg (by omega)]

/-- The first forty entries of `BITS`, read as a header. -/
theorem parseHeader_stream {s : State} {len : BitVec 32} {m : Byte} (h : HeaderSpelt s.readBit len m) :
    parseHeader (s.stream 40) = { len := len, metadata := m, c := m.getLsbD 7, hbpp := headerBpp m } := by
  have rd : ∀ k, k < 40 → (s.stream 40).getD k false = s.readBit k := fun k hk => by
    rw [List.getD_eq_getElem?_getD, getElem?_stream, if_pos hk, Option.getD_some]
  refine parseHeader_of_spelt (by simp) ⟨fun k hk => ?_, fun k hk => ?_⟩
  · rw [h.len k hk, rd k (by omega)]
  · rw [h.metadata k hk, rd (32 + k) (by omega)]

end Sys2Proof.Machine
end

