-- ==== Sys2Proof/Laws/Memory.lean ====
section
/-! SUPPORT. Every operation that writes a buffer keeps the canonical form of the memory; the host's write and the
fresh reset are in Laws/Buffers.lean. -/

namespace Sys2Proof.Machine

/-- The canonical form depends on the buffers and the parameters alone. -/
theorem memory_wf_congr {s t : State} (h : Memory.wf s = true) (hp : t.params = s.params) (h1 : t.pix = s.pix)
    (h2 : t.pay = s.pay) (h3 : t.frm = s.frm) (h4 : t.bits = s.bits) : Memory.wf t = true := by
  rw [memory_wf_iff] at h ⊢
  rwa [hp, h1, h2, h3, h4]

@[simp] theorem memory_wf_raise (s : State) (k : ErrorKind) : Memory.wf (s.raise k) = Memory.wf s := rfl

@[simp] theorem memory_wf_succeed (s : State) : Memory.wf s.succeed = Memory.wf s := rfl

theorem memory_wf_putPay {s : State} {v : Bytes} (h : Memory.wf s = true) (hv : v.length ≤ s.params.payDepth) :
    Memory.wf (s.putPay v) = true := by
  rw [memory_wf_iff] at h ⊢
  exact ⟨h.1, bufferWf_memWrite h.2.1 (by simpa using hv), h.2.2⟩

theorem memory_wf_putFrm {s : State} {v : Bytes} (h : Memory.wf s = true) (hv : v.length ≤ s.params.frmDepth) :
    Memory.wf (s.putFrm v) = true := by
  rw [memory_wf_iff] at h ⊢
  exact ⟨h.1, h.2.1, bufferWf_memWrite h.2.2.1 (by simpa using hv), h.2.2.2⟩

theorem memory_wf_putBits {s : State} {v : Bits} (h : Memory.wf s = true) (hv : v.length ≤ s.params.bitDepth) :
    Memory.wf (s.putBits v) = true := by
  rw [memory_wf_iff] at h ⊢
  exact ⟨h.1, h.2.1, h.2.2.1, bufferWf_memWrite h.2.2.2 (by simpa using hv)⟩

theorem memory_wf_latchBits {s : State} {v : Bits} {p : Nat} (h : Memory.wf s = true)
    (hv : v.length ≤ s.params.bitDepth) : Memory.wf (latchBits v p s) = true :=
  memory_wf_congr (memory_wf_putBits h hv) rfl rfl rfl rfl rfl

/-- `WriteBits` within `NSAMP * BPP` slots, the samples within the depth. -/
theorem memory_wf_writeBits {s : State} {p : Nat} {v : Bits} (h : Memory.wf s = true) (hb : s.BppIs123)
    (hn : s.nsamp.toNat ≤ s.params.pixDepth) (hv : p + v.length ≤ s.slots) :
    Memory.wf (writeBits s.bpp.toNat p v s) = true := by
  rw [memory_wf_iff] at h ⊢
  simp only [writeBits_params, writeBits_pay, writeBits_frm, writeBits_bits]
  exact ⟨bufferWf_writeBits (bpp_bounds hb).1 p v s s.nsamp.toNat h.1 hn hv, h.2⟩

/-- Reset empties the buffers. -/
theorem memory_wf_assertReset (s : State) : Memory.wf s.assertReset = true :=
  memory_wf_congr (memory_wf_resetWith s.params) rfl rfl rfl rfl rfl

end Sys2Proof.Machine
end

