-- ==== Sys2Proof/Laws/PerInstr.lean ====
section
/-! SUPPORT. The family Encoding: what holds of every command's word (30_encoding.md R85 to R88). -/

namespace Sys2Proof.Laws.Encoding

/-- The command's word is well formed, its reserved field is zero, and its low byte is the command's opcode and no
other's. -/
def Statement (i : Instr) : Prop :=
  wordWf (encode i) = true ∧ fieldRsv (encode i) = 0 ∧ fieldOpc (encode i) = opcode i ∧ decodeOpc (opcode i) = some i

theorem b2bits : Statement .b2bits := by unfold Statement; decide

theorem bits2b : Statement .bits2b := by unfold Statement; decide

theorem capq : Statement .capq := by unfold Statement; decide

theorem fbuild : Statement .fbuild := by unfold Statement; decide

theorem fparse : Statement .fparse := by unfold Statement; decide

theorem fbody : Statement .fbody := by unfold Statement; decide

theorem lsbw : Statement .lsbw := by unfold Statement; decide

theorem lsbr : Statement .lsbr := by unfold Statement; decide

theorem embed : Statement .embed := by unfold Statement; decide

theorem extract : Statement .extract := by unfold Statement; decide

end Sys2Proof.Laws.Encoding
end

