-- ==== Sys2Proof/Tests/Slice0.lean ====
section
/-! SUPPORT. Small tests, their expected results from 95_test_vectors.md (named by table and row) and from the rules;
and, for every statement with hypotheses, states and operands that meet them. -/

namespace Sys2Proof.Tests

open Sys2Proof Sys2Proof.Machine

/-! ### Helpers -/

def bytes (v : List Nat) : Bytes := v.map (BitVec.ofNat 8)

def bitsOf (v : List Nat) : Bits := v.map (· == 1)

/-- The depths of table V-RES, no codec. -/
def depths : Params := ⟨64, 16, 21, 168, false⟩

def fresh : State := State.resetWith depths

def withPix (s : State) (v : List Nat) : State :=
  { s with pix := memWrite s.pix 0 (bytes v), nsamp := BitVec.ofNat 64 v.length }

def withPay (s : State) (v : List Nat) : State := s.putPay (bytes v)

def withFrm (s : State) (v : List Nat) : State := s.putFrm (bytes v)

def withBits (s : State) (v : List Nat) : State := s.putBits (bitsOf v)

def samples (s : State) (n : Nat) : Bytes := memRead s.readPix 0 n

def run (i : Instr) (s : State) : State :=
  match exec i s with
  | .next t => t
  | .fault _ => s
  | .refused _ => s

/-! ### Well-formedness refuses -/

theorem test_wordWf_refuses_reserved_bits : wordWf 0x00000111 = false ∧ wordWf 0x80000001 = false := by decide

theorem test_wordWf_refuses_unassigned_opcodes :
    wordWf 0x00 = false ∧ wordWf 0x09 = false ∧ wordWf 0x0F = false ∧ wordWf 0x12 = false := by decide

theorem test_paramsWf_refuses_pixDepth : Params.wf { depths with pixDepth := 0 } = false ∧
    Params.wf { depths with pixDepth := 2 ^ 32 } = false := by decide

theorem test_paramsWf_refuses_payDepth : Params.wf { depths with payDepth := 2 ^ 32 } = false := by decide

theorem test_paramsWf_refuses_frmDepth : Params.wf { depths with frmDepth := 4 } = false ∧
    Params.wf { depths with frmDepth := 2 ^ 32 + 5 } = false := by decide

theorem test_paramsWf_refuses_bitDepth : Params.wf { depths with bitDepth := 39 } = false ∧
    Params.wf { depths with bitDepth := 8 * (2 ^ 32 + 4) + 1 } = false := by decide

theorem test_paramsWf_accepts : depths.wf = true ∧ Config.params.wf = true := by
  exact ⟨by decide, by simp [paramsWf_iff, Config.params]⟩

theorem test_hostActionWf_refuses : HostAction.wf depths (.regRead 0x04) = false ∧
    HostAction.wf depths (.regWrite 0xA0 0) = false ∧ HostAction.wf depths (.bufRead .pix 64) = false ∧
    HostAction.wf depths (.bufWrite .bits 168 0) = false := by decide

theorem test_instrWf_accepts_all : ∀ i : Instr, i.wf = true := by
  intro i
  cases i <;> rfl

/-! ### Decoding: the ten words of R87 written out, and table V-ILL -/

theorem test_decode_b2bits : decode 0b00000000000000000000000000000001 = .ok .b2bits := by decide

theorem test_decode_bits2b : decode 0b00000000000000000000000000000010 = .ok .bits2b := by decide

theorem test_decode_capq : decode 0b00000000000000000000000000000011 = .ok .capq := by decide

theorem test_decode_fbuild : decode 0b00000000000000000000000000000100 = .ok .fbuild := by decide

theorem test_decode_fparse : decode 0b00000000000000000000000000000101 = .ok .fparse := by decide

theorem test_decode_fbody : decode 0b00000000000000000000000000000110 = .ok .fbody := by decide

theorem test_decode_lsbw : decode 0b00000000000000000000000000000111 = .ok .lsbw := by decide

theorem test_decode_lsbr : decode 0b00000000000000000000000000001000 = .ok .lsbr := by decide

theorem test_decode_embed : decode 0b00000000000000000000000000010000 = .ok .embed := by decide

theorem test_decode_extract : decode 0b00000000000000000000000000010001 = .ok .extract := by decide

theorem test_decode_refuses : decode 0x00000111 = .error (.reservedBits 0x00000111) ∧
    decode 0xFFFFFFFF = .error (.reservedBits 0xFFFFFFFF) ∧ decode 0x00000100 = .error (.reservedBits 0x00000100) ∧
    decode 0x00000000 = .error (.unassignedOpcode 0x00) ∧ decode 0x00000009 = .error (.unassignedOpcode 0x09) ∧
    decode 0x0000000F = .error (.unassignedOpcode 0x0F) ∧ decode 0x00000012 = .error (.unassignedOpcode 0x12) := by
  decide

theorem test_decodeTableWord : decodeTableWord 32 0x10 = some .embed ∧ decodeTableWord 32 0x111 = none := by decide

/-- Table V-RST: `CAPQ` straight after reset answers `InvalidParameter`, `FPARSE` answers `CorruptHeader`. -/
theorem test_first_command_after_reset :
    (step (State.reset.withFetchWord 32 3)) = .next { State.reset with cmd := 3, result := 1, status := ⟨true, true, false⟩ } ∧
    (step (State.reset.withFetchWord 32 5)) = .next { State.reset with cmd := 5, result := 4, status := ⟨true, true, false⟩ } :=
  ⟨rfl, rfl⟩

/-! ### One step per command -/

/-- Table V-BP row 6. -/
theorem test_b2bits : (run .b2bits (withFrm fresh [0x48, 0x69])).stream 16 =
    bitsOf [0, 1, 0, 0, 1, 0, 0, 0, 0, 1, 1, 0, 1, 0, 0, 1] := by decide

/-- Table V-RES row 4. -/
theorem test_b2bits_too_long : (run .b2bits { fresh with frmlen := 22 }).result = 9 := by decide

/-- Table V-BP row 9: seven zero bits on the right, also over stale entries. -/
theorem test_bits2b : (run .bits2b { withBits fresh [1, 0, 1, 0, 0, 1, 0, 1, 1, 1, 1, 1] with bitlen := 9 }).frmBytes 2 =
    bytes [0xA5, 0x80] := by decide

/-- Table V-RES row 5. -/
theorem test_bits2b_too_long : (run .bits2b { fresh with bitlen := 169 }).result = 9 := by decide

/-- Table V-CAP row 1. -/
theorem test_capq : ((run .capq { fresh with nsamp := 30000, bpp := 1 }).capbits,
    (run .capq { fresh with nsamp := 30000, bpp := 1 }).capbytes) = (29960, 3745) := by decide

/-- Table V-CAP rows 5 and 16: the capacity saturates; the parameter test comes first. And R12: `2^65 - 42` modulo 2^64. -/
theorem test_capq_edges : (run .capq { fresh with nsamp := 39, bpp := 1, capbits := 7 }).capbits = 0 ∧
    (run .capq fresh).result = 1 ∧
    (run .capq { fresh with nsamp := 0xFFFFFFFFFFFFFFFF, bpp := 2 }).capbits = 0xFFFFFFFFFFFFFFD6 := by decide

/-- Table V-FB row 4: `BPP` is masked to three bits and not validated. -/
theorem test_fbuild : (run .fbuild { withPay fresh [0x01] with bpp := 9 }).frmBytes 6 = bytes [0, 0, 0, 1, 1, 1] ∧
    (run .fbuild { withPay fresh [0x01] with bpp := 9 }).frmlen = 6 := by decide

/-- Table V-FP row 2: the field 5 falls back to 1, `META` keeps the byte as found. -/
theorem test_fparse : (fun t : State => (t.dlen, t.metadata, t.hbpp, t.result)) (run .fparse
    { fresh.putBits (bytesToBits (bytes [0, 0, 0, 2, 0x85])) with dlen := 77, metadata := 0x55 }) = (2, 0x85, 1, 0) := by
  decide

/-- Table V-FP row 5: the bound, and what the error leaves. -/
theorem test_fparse_bound : (fun t : State => (t.dlen, t.metadata, t.hbpp, t.result)) (run .fparse
    { fresh.putBits (bytesToBits (bytes [0, 0x98, 0x96, 0x81, 2])) with dlen := 77, metadata := 0x55 }) =
      (77, 0x55, 0, 5) := by decide

/-- Table V-FD row 5: `min(FRMLEN, DLEN)`. -/
theorem test_fbody : (fun t : State => (t.secret, t.paylen)) (run .fbody
    { withFrm fresh [3, 0x41, 2, 0x42] with dlen := 9 }) = (bytes [3, 0x41, 2, 0x42], 4) := by decide

/-- Table V-LW row 4: three slots in sample 0, slot 0 of sample 1, no other bit. -/
theorem test_lsbw : samples (run .lsbw { withBits (withPix fresh [0x00, 0xFF, 0x77]) [1, 0, 1, 0] with bpp := 3 }) 3 =
    bytes [0x05, 0xFE, 0x77] := by decide

/-- Table V-LW row 11. -/
theorem test_lsbw_no_room : (run .lsbw { withBits (withPix fresh [5, 6]) [1] with bpp := 1, bitpos := 2 }).result = 3 := by
  decide

/-- Table V-LR row 4. -/
theorem test_lsbr : (fun t : State => (t.stream 2, t.bitlen, t.bitpos)) (run .lsbr
    { withBits (withPix fresh [0x05, 0xFA]) [1, 1] with cnt := 2, bpp := 3, bitpos := 3 }) = (bitsOf [0, 1], 2, 5) := by
  decide

/-- Table V-LR row 7. -/
theorem test_lsbr_past_the_end : (run .lsbr { withPix fresh [0x05, 0xFA] with cnt := 1, bpp := 3, bitpos := 6 }).result =
    6 := by decide

/-- The start of program P2: cover `80 ... A7`, payload "HELLO", `BPP = 2`. -/
def hello : State := { withPay (withPix fresh ((List.range 40).map (0x80 + ·))) [0x48, 0x45, 0x4C, 0x4C, 0x4F] with bpp := 2 }

/-- The image of P2 after `EMBED`, as 95_test_vectors.md gives it. -/
def helloStego : List Nat :=
  [0x80, 0x80, 0x80, 0x80, 0x84, 0x84, 0x84, 0x84, 0x88, 0x88, 0x88, 0x88, 0x8C, 0x8C, 0x8E, 0x8E, 0x90, 0x90, 0x90, 0x91,
   0x96, 0x94, 0x95, 0x94, 0x9A, 0x98, 0x9A, 0x9A, 0x9E, 0x9C, 0x9F, 0x9C, 0xA2, 0xA0, 0xA3, 0xA0, 0xA6, 0xA4, 0xA7, 0xA7]

/-- Program P2. -/
theorem test_embed : samples (run .embed hello) 40 = bytes helloStego := by decide +kernel

/-- Program P3: one byte too many, reported in `AVAIL` and `REQ`. -/
theorem test_embed_over_capacity : (fun t : State => (t.result, t.avail, t.req))
    (run .embed (withPay hello [0x48, 0x45, 0x4C, 0x4C, 0x4F, 0x21])) = (3, 5, 6) := by decide +kernel

/-- Program P2 read by `EXTRACT`. -/
theorem test_extract : (fun t : State => (t.secret, t.frmlen, t.bitlen, t.bitpos, t.hbpp))
    (run .extract { withPix fresh helloStego with bpp := 2 }) = (bytes [0x48, 0x45, 0x4C, 0x4C, 0x4F], 5, 40, 80, 2) := by
  decide +kernel

/-- An image of 64 samples with the header `00 00 00 0D 03` at slot positions 0 to 39 of three a sample, zeros
elsewhere: the second part of table V-RES. -/
def deepHeader (p : Params) : State :=
  { withPix (State.resetWith p) ((List.range 64).map (fun q => if q = 9 then 6 else if q = 10 then 2 else if q = 12 then 4
      else if q = 13 then 1 else 0)) with bpp := 3 }

/-- Table V-RES, second part: the error keeps what the steps before it wrote. -/
theorem test_extract_too_deep : (fun t : State => (t.result, t.bitpos, t.bitlen, t.dlen, t.metadata, t.hbpp))
    (run .extract (deepHeader { depths with bitDepth := 100 })) = (9, 40, 40, 13, 3, 3) := by decide +kernel

/-! ### The codec TOYRLE of 95_test_vectors.md -/

/-- The pieces of runs, `n` copies of `v` already seen. -/
def rle (n : Nat) (v : Byte) : Bytes → Bytes
  | [] => [BitVec.ofNat 8 n, v]
  | x :: r => if x = v ∧ n < 255 then rle (n + 1) v r else BitVec.ofNat 8 n :: v :: rle 1 x r

def toyCompress : Bytes → Option Bytes
  | [] => some []
  | x :: r => some (rle 1 x r)

def toyDecompress : Bytes → Option Bytes
  | [] => some []
  | [_] => none
  | n :: v :: r => if n = 0 then none else (toyDecompress r).map (List.replicate n.toNat v ++ ·)

theorem toyDecompress_rle (r : Bytes) (n : Nat) (v : Byte) (h1 : 1 ≤ n) (h2 : n ≤ 255) :
    toyDecompress (rle n v r) = some (List.replicate n v ++ r) := by
  have hn : (BitVec.ofNat 8 n).toNat = n := by simp; omega
  have h0 : BitVec.ofNat 8 n ≠ 0 := fun e => by rw [e] at hn; simp at hn; omega
  induction r generalizing n v with
  | nil => simpa [rle, toyDecompress, hn] using h0
  | cons x r ih =>
    rw [rle]
    split
    · rename_i h
      obtain ⟨rfl, h⟩ := h
      have hn' : (BitVec.ofNat 8 (n + 1)).toNat = n + 1 := by simp; omega
      rw [ih (n + 1) x (by omega) (by omega) hn' (fun e => by rw [e] at hn'; simp at hn'), List.replicate_succ']
      simp
    · rw [toyDecompress, if_neg h0, ih 1 x (by omega) (by omega) (by decide) (by decide), hn]
      rfl

def toyCodec : Codec where
  compress := toyCompress
  decompress := toyDecompress
  inverse := by
    intro x y h
    cases x with
    | nil => cases h; rfl
    | cons a r => cases h; exact toyDecompress_rle r 1 a (by omega) (by omega)

/-- Depths that hold 101 bytes, with a codec. -/
def toyDepths : Params := ⟨64, 200, 300, 2400, true⟩

/-- Table V-CMP row 3: 101 equal bytes are compressed to two. -/
theorem test_fbuild_compressed : (fun t : State => (t.frmBytes 7, t.frmlen, t.dlen, t.metadata))
    (fbuild toyCodec { withPay (State.resetWith toyDepths) (List.replicate 101 0x41) with bpp := 2 }) =
      (bytes [0, 0, 0, 2, 0x82, 0x65, 0x41], 7, 2, 0x82) := by decide +kernel

/-- Table V-FD rows 3 and 4: truncation to `DLEN` comes before decompression. -/
theorem test_fbody_compressed :
    (fun t : State => (t.secret, t.result)) (fbody toyCodec { withFrm (State.resetWith toyDepths) [3, 0x41, 2, 0x42] with
      dlen := 2, metadata := 0x81 }) = (bytes [0x41, 0x41, 0x41], 0) ∧
    (fbody toyCodec { withFrm (State.resetWith toyDepths) [3, 0x41, 2, 0x42] with dlen := 3, metadata := 0x81 }).result =
      7 := by decide +kernel

/-! ### The host's port -/

/-- A buffer write keeps the low eight bits; the next read returns them with zeros above (R62). -/
theorem test_host_buffer : step { fresh with host := [.bufWrite .pay 15 0x1FF] } =
    .next { fresh with pay := [(15, 0xFF)] } ∧
    step { fresh with pay := [(15, 0xFF)], host := [.bufRead .pay 15] } =
      .next { fresh with pay := [(15, 0xFF)], dataOut := 0xFF } := ⟨rfl, rfl⟩

/-- A write to a read-only register is ignored; one to `BPP` keeps 32 bits (R20). -/
theorem test_host_register : step { fresh with host := [.regWrite 0x88 5] } = .next fresh ∧
    step { fresh with host := [.regWrite 0x28 0x100000003] } = .next { fresh with bpp := 3 } := ⟨rfl, rfl⟩

/-- `STATUS` reads 1 after a success, 3 after an error (head of 95_test_vectors.md), with `BUSY` as bit 2 (R22). -/
theorem test_host_reads_status : step { fresh with status := Status.success, host := [.regRead 0x08] } =
    .next { fresh with status := Status.success, dataOut := 1 } ∧
    step { fresh with status := Status.error, host := [.regRead 0x08] } =
      .next { fresh with status := Status.error, dataOut := 3 } ∧
    State.regRead { fresh with status := ⟨true, false, true⟩ } .status = 5 := ⟨rfl, rfl, rfl⟩

/-- `CONFIG` reads `DEFLATE_PRESENT` (R25); `META` and `AVAIL` read as written, zeros above (R20). -/
theorem test_host_reads_registers : fresh.regRead .config = 0 ∧ (State.resetWith toyDepths).regRead .config = 1 ∧
    State.regRead { fresh with metadata := 0x85 } .metadata = 0x85 ∧
    State.regRead { fresh with avail := 5, req := 6 } .avail = 5 := ⟨rfl, rfl, rfl, rfl⟩

/-- The map's holes and the entries past a depth are refused by name (U3, log 8). -/
theorem test_host_refusals : step { fresh with host := [.regRead 0xA0] } = .refused (.noSuchRegister 0xA0) ∧
    step { fresh with host := [.bufRead .pix 64] } = .refused (.noSuchEntry .pix 64) := ⟨rfl, rfl⟩

/-! ### States and operands that meet the hypotheses of the statements, clause by clause at their boundaries -/

theorem test_meets_CmdWriteRunsTheDecodedCommand :
    ({ fresh with host := [.regWrite 0x00 0xFFFFFFFF00000003] } : State).host = .regWrite 0x00 0xFFFFFFFF00000003 :: [] ∧
    decode ((0xFFFFFFFF00000003 : Word64).setWidth 32) = .ok .capq := ⟨rfl, by decide⟩

theorem test_meets_EncodeAndDecodeAgree : Instr.extract.wf = true ∧ decode 0x00000011 = .ok .extract := by decide

theorem test_meets_IllegalWordChangesOnlyCmdStatusResult :
    ({ fresh with host := [.regWrite 0x00 0x111] } : State).host = .regWrite 0x00 0x111 :: [] ∧
    (0x111 : Word64).toNat % 2 ^ 32 / 256 ≠ 0 ∧
    ∀ v ∈ [(0x00 : Word64), 0x09, 0x0F, 0x12, 0xFF, 0xFFFFFFFF00000009],
      v.toNat % 256 ∉ [0x01, 0x02, 0x03, 0x04, 0x05, 0x06, 0x07, 0x08, 0x10, 0x11] :=
  ⟨rfl, by simp, by simp⟩

theorem test_meets_HostRegisterWriteStoresItsLowBits :
    (Reg.bpp ≠ .cmd ∧ ({ fresh with host := [.regWrite 0x28 0x100000003] } : State).host =
      .regWrite Reg.bpp.offset 0x100000003 :: []) ∧
    (Reg.req ≠ .cmd ∧ Reg.req.readOnly = true ∧
      ({ fresh with host := [.regWrite 0x98 7] } : State).host = .regWrite Reg.req.offset 7 :: []) :=
  ⟨⟨by decide, rfl⟩, by decide, rfl, rfl⟩

theorem test_meets_HostReadsReturnTheValueAndChangeNothing :
    ({ fresh with host := [.regRead 0x88] } : State).host = .regRead Reg.hdrbits.offset :: [] ∧
    (({ fresh with host := [.bufRead .bits 167] } : State).host = .bufRead .bits 167 :: [] ∧
      167 < depthOf fresh.params .bits) := ⟨rfl, rfl, by decide⟩

theorem test_meets_HostBufferWriteStoresOneEntry :
    ({ fresh with host := [.bufWrite .bits 167 2] } : State).host = .bufWrite .bits 167 2 :: [] ∧
    167 < depthOf fresh.params .bits ∧ 15 < depthOf fresh.params .pay ∧ depthOf fresh.params .pay ≤ 16 :=
  ⟨rfl, by decide, by decide, by decide⟩

/-- An offset between two registers, the first offset past the map, and the first entry past a depth. -/
theorem test_meets_StepRefusesExactlyTheMeaninglessActions :
    (∀ t, step { fresh with host := [.regWrite 0x04 1] } ≠ .next t) ∧
    (({ fresh with host := [.regRead 0xA0] } : State).host = .regRead 0xA0 :: [] ∧
      (∀ n, n < 20 → 0xA0 ≠ 8 * n) ∧ ∀ n, n < 20 → 0x04 ≠ 8 * n) ∧
    (({ fresh with host := [.bufRead .pix 64] } : State).host = .bufRead .pix 64 :: [] ∧ depthOf fresh.params .pix ≤ 64) := by
  refine ⟨fun t h => ?_, ⟨rfl, by decide, by decide⟩, rfl, by decide⟩
  cases h

theorem test_meets_EngineIdlesWithoutHostAction : fresh.host = [] := rfl

theorem test_meets_ResetActionGivesTheResetState :
    ({ hello with host := [.reset, .regRead 0] } : State).host = .reset :: [.regRead 0] := rfl

theorem test_meets_bit_packing : (0 < (bytes [0xA5]).length ∧ 7 ≤ 7) ∧
    (1 < (bitsToBytes (bitsOf [1, 0, 1, 0, 0, 1, 0, 1, 1])).length) := by decide

theorem test_meets_CompressionIsUsedOnlyWhenStrictlySmaller :
    (List.replicate 100 (0x41 : Byte)).length ≤ 100 ∧ compress toyCodec false (List.replicate 101 0x41) = none ∧
    (compressStage toyCodec true (List.replicate 101 0x41) false).2 = true ∧
    (compressStage toyCodec true (List.replicate 101 0x41) true).2 = false := by decide +kernel

theorem test_meets_SlotAddressingIsABijection : ((3 = 1 ∨ 3 = 2 ∨ 3 = 3) ∧ 5 < 2 * 3 ∧ 1 < 2 ∧ 2 < 3) ∧
    slotAddr 5 3 = slotAddr 5 3 := by decide

theorem test_meets_WriteBitsTouchesOnlyItsSlots :
    (3 = 1 ∨ 3 = 2 ∨ 3 = 3) ∧ 0 < (bitsOf [1, 0]).length ∧ (0 < 3 / 3 ∨ (3 + 2 - 1) / 3 < 0) := by decide

/-- `B2BITS`: both errors and success at the depths. -/
theorem test_meets_B2bitsFollowsItsRule : depths.wf = true ∧
    ({ fresh with frmlen := 22 } : State).frmlen.toNat > depths.frmDepth ∧
    (Params.wf { depths with bitDepth := 100 } = true ∧ 8 * ({ fresh with frmlen := 13 } : State).frmlen.toNat > 100) ∧
    (({ fresh with frmlen := 21 } : State).frmlen.toNat ≤ depths.frmDepth ∧ 8 * 21 ≤ depths.bitDepth) := by decide

/-- `BITS2B`: both errors and success at the depths. -/
theorem test_meets_Bits2bFollowsItsRule : depths.wf = true ∧
    ({ fresh with bitlen := 169 } : State).bitlen.toNat > depths.bitDepth ∧
    (Params.wf { depths with frmDepth := 5 } = true ∧ (({ fresh with bitlen := 41 } : State).bitlen.toNat + 7) / 8 > 5) ∧
    (({ fresh with bitlen := 168 } : State).bitlen.toNat ≤ depths.bitDepth ∧ (168 + 7) / 8 ≤ depths.frmDepth) := by decide

/-- `CAPQ`: each clause, and the clause past the register. -/
theorem test_meets_CapqFollowsItsRule : ¬ ({ fresh with bpp := 4 } : State).BppIs123 ∧
    (({ fresh with bpp := 3 } : State).BppIs123 ∧ fresh.nsamp = 0) ∧
    ((0xFFFFFFFFFFFFFFFF : BitVec 64) ≠ 0 ∧ (0xFFFFFFFFFFFFFFFF : BitVec 64).toNat * (1 : BitVec 32).toNat - 40 < 2 ^ 64) ∧
    2 ^ 64 ≤ (0xFFFFFFFFFFFFFFFF : BitVec 64).toNat * (2 : BitVec 32).toNat - 40 := by decide

/-- `FBUILD`: the stage's answer, both errors and success at the depths. -/
theorem test_meets_FbuildFollowsItsRule :
    (∀ n ∈ [16, 17], compressStage Config.codec false (({ fresh with paylen := BitVec.ofNat 64 n } : State).secret) false =
      (({ fresh with paylen := BitVec.ofNat 64 n } : State).secret, false)) ∧
    depths.wf = true ∧ ({ fresh with paylen := 17 } : State).paylen.toNat > depths.payDepth ∧
    (Params.wf { depths with payDepth := 17 } = true ∧ 5 + ({ fresh with paylen := 17 } : State).secret.length > 21) ∧
    (16 ≤ depths.payDepth ∧ 5 + ({ fresh with paylen := 16 } : State).secret.length ≤ depths.frmDepth) := by
  refine ⟨?_, by decide, by decide, by decide, by decide⟩
  intro n hn
  fin_cases hn <;> rfl

/-- Forty bits of a header, `BITLEN` as given. -/
def headerBits (v : List Nat) (n : BitVec 64) : State := { fresh.putBits (bytesToBits (bytes v)) with bitlen := n }

/-- `FPARSE`: the header, and each clause at its boundary. -/
theorem test_meets_FparseFollowsItsRule :
    HeaderSpelt (headerBits [0x00, 0x98, 0x96, 0x80, 0x02] 40).readBit 10000000 0x02 ∧
    HeaderSpelt (headerBits [0x00, 0x98, 0x96, 0x81, 0x02] 40).readBit 10000001 0x02 ∧
    ((169 : BitVec 64).toNat > depths.bitDepth ∧ (39 : BitVec 64).toNat < 40 ∧ 40 ≤ depths.bitDepth ∧
      (10000001 : BitVec 32).toNat > 10000000 ∧ (10000000 : BitVec 32).toNat ≤ 10000000) :=
  ⟨⟨by decide, by decide⟩, ⟨by decide, by decide⟩, by decide⟩

/-- `FBODY`: each clause at its boundary; no codec, so a set flag fails. -/
theorem test_meets_FbodyFollowsItsRule : depths.wf = true ∧ (22 : BitVec 64).toNat > depths.frmDepth ∧
    decompressStage Config.codec depths.deflatePresent [0x41] ((0x80 : Byte).getLsbD 7) = none ∧
    decompressStage Config.codec depths.deflatePresent (List.replicate 17 0x41) ((0x7F : Byte).getLsbD 7) =
      some (List.replicate 17 0x41) ∧
    (List.replicate 17 (0x41 : Byte)).length > depths.payDepth ∧
    (List.replicate 16 (0x41 : Byte)).length ≤ depths.payDepth :=
  ⟨by decide, by decide, rfl, rfl, by decide, by decide⟩

/-- `LSBW` and `LSBR`: each clause at its boundary. -/
theorem test_meets_LsbwLsbrFollowTheirRules : depths.wf = true ∧ ¬ fresh.BppIs123 ∧
    ({ fresh with bpp := 3 } : State).BppIs123 ∧ (65 : BitVec 64).toNat > depths.pixDepth ∧
    (169 : BitVec 64).toNat > depths.bitDepth ∧ (64 : BitVec 64).toNat ≤ depths.pixDepth ∧
    (168 : BitVec 64).toNat ≤ depths.bitDepth ∧
    ((0xFFFFFFFFFFFFFFFF : BitVec 64).toNat + (1 : BitVec 64).toNat > (64 : BitVec 64).toNat * (3 : BitVec 32).toNat) ∧
    ((24 : BitVec 64).toNat + (168 : BitVec 64).toNat ≤ (64 : BitVec 64).toNat * (3 : BitVec 32).toNat) := by decide

/-- What the stage makes of the payload of P2, and of a state's payload of at most 100 bytes without a codec. -/
theorem hello_stage : compressStage Config.codec depths.deflatePresent ((List.range hello.paylen.toNat).map hello.readPay)
    (hello.ctrl == 1) = (bytes [0x48, 0x45, 0x4C, 0x4C, 0x4F], false) := rfl

/-- `EMBED`: each failing clause; the last two at the boundary. -/
theorem test_meets_EmbedFailsInOrderKeepingEarlierSteps : depths.wf = true ∧
    compressStage Config.codec depths.deflatePresent ((List.range hello.paylen.toNat).map hello.readPay)
      (hello.ctrl == 1) = (bytes [0x48, 0x45, 0x4C, 0x4C, 0x4F], false) ∧
    ¬ ({ hello with bpp := 0 } : State).BppIs123 ∧ hello.BppIs123 ∧
    (65 : BitVec 64).toNat > depths.pixDepth ∧ (17 : BitVec 64).toNat > depths.payDepth ∧
    5 + (bytes [0x48, 0x45, 0x4C, 0x4C, 0x4F]).length > 9 ∧ Params.wf { depths with frmDepth := 9 } = true ∧
    8 * (5 + (bytes [0x48, 0x45, 0x4C, 0x4C, 0x4F]).length) > 79 ∧ Params.wf { depths with bitDepth := 79 } = true ∧
    5 + (bytes [0x48, 0x45, 0x4C, 0x4C, 0x4F]).length ≤ depths.frmDepth ∧
    8 * (5 + (bytes [0x48, 0x45, 0x4C, 0x4C, 0x4F]).length) ≤ depths.bitDepth ∧
    (0 : BitVec 64) = 0 ∧ (39 : BitVec 64) ≠ 0 ∧
    8 * (5 + (bytes [0x48, 0x45, 0x4C, 0x4C, 0x4F]).length) > (39 : BitVec 64).toNat * hello.bpp.toNat := by
  refine ⟨by decide, hello_stage, ?_⟩
  decide

theorem test_meets_EmbedWritesTheFrameIntoTheImage : hello.params.wf = true ∧
    compressStage Config.codec hello.params.deflatePresent ((List.range hello.paylen.toNat).map hello.readPay)
      (hello.ctrl == 1) = (bytes [0x48, 0x45, 0x4C, 0x4C, 0x4F], false) ∧
    hello.BppIs123 ∧ hello.nsamp.toNat ≤ hello.params.pixDepth ∧ hello.paylen.toNat ≤ hello.params.payDepth ∧
    5 + (bytes [0x48, 0x45, 0x4C, 0x4C, 0x4F]).length ≤ hello.params.frmDepth ∧
    8 * (5 + (bytes [0x48, 0x45, 0x4C, 0x4C, 0x4F]).length) ≤ hello.params.bitDepth ∧
    8 * (5 + (bytes [0x48, 0x45, 0x4C, 0x4C, 0x4F]).length) ≤ hello.nsamp.toNat * hello.bpp.toNat := by
  refine ⟨by decide, hello_stage, ?_⟩
  decide

/-- `PIX` holding the bits of the bytes, one a sample, then zeros up to 64 samples. -/
def imageOf (p : Params) (v : List Nat) : State :=
  { withPix (State.resetWith p) (((bytesToBits (bytes v)).map Bool.toNat ++ List.replicate 64 0).take 64) with bpp := 1 }

/-- `EXTRACT` before the body: the headers, and each clause at its boundary. -/
theorem test_meets_ExtractFailsInOrderBeforeTheBody : depths.wf = true ∧
    HeaderSpelt (imageOf depths [0x00, 0x98, 0x96, 0x81, 0x01]).slotBit 10000001 0x01 ∧
    HeaderSpelt (imageOf depths [0x00, 0x98, 0x96, 0x80, 0x01]).slotBit 10000000 0x01 ∧
    HeaderSpelt (imageOf { depths with bitDepth := 40 } [0x00, 0x00, 0x00, 0x03, 0x01]).slotBit 3 0x01 ∧
    ¬ fresh.BppIs123 ∧ (imageOf depths []).BppIs123 ∧ (65 : BitVec 64).toNat > depths.pixDepth ∧
    (39 : BitVec 64).toNat < 40 ∧ 40 ≤ (imageOf depths []).nsamp.toNat ∧ (imageOf depths []).nsamp.toNat ≤ depths.pixDepth ∧
    40 + 8 * (10000000 : BitVec 32).toNat > (imageOf depths []).nsamp.toNat * (imageOf depths []).bpp.toNat := by
  refine ⟨by decide, ⟨by decide +kernel, by decide +kernel⟩, ⟨by decide +kernel, by decide +kernel⟩,
    ⟨by decide +kernel, by decide +kernel⟩, ?_⟩
  decide +kernel

/-- An image of 64 samples that carries a frame of one byte. -/
theorem bytesSpelt_one {p : Params} {m d : Nat}
    (h : ∀ b : Fin 8, (BitVec.ofNat 8 d).getLsbD (7 - b.val) = (imageOf p [0, 0, 0, 1, m, d]).slotBit (40 + b.val)) :
    BytesSpelt (fun k => (imageOf p [0, 0, 0, 1, m, d]).slotBit (40 + k)) (bytes [d]) := by
  intro j b hj hb
  have h0 : j = 0 := by simp [bytes] at hj; omega
  subst h0
  have := h ⟨b, hb⟩
  rwa [show 8 * 0 + b = b by omega]

/-- `EXTRACT` after the body: the frame depth (in the next theorem), the missing codec, and a payload depth of 0. -/
theorem test_meets_ExtractFailsInOrderAfterTheBody :
    (Params.wf { depths with payDepth := 0 } = true ∧
      HeaderSpelt (imageOf { depths with payDepth := 0 } [0, 0, 0, 1, 0x81, 0xA5]).slotBit 1 0x81 ∧
      HeaderSpelt (imageOf { depths with payDepth := 0 } [0, 0, 0, 1, 0x01, 0xA5]).slotBit 1 0x01 ∧
      BytesSpelt (fun k => (imageOf { depths with payDepth := 0 } [0, 0, 0, 1, 0x81, 0xA5]).slotBit (40 + k))
        (bytes [0xA5]) ∧
      BytesSpelt (fun k => (imageOf { depths with payDepth := 0 } [0, 0, 0, 1, 0x01, 0xA5]).slotBit (40 + k))
        (bytes [0xA5])) ∧
    (bytes [0xA5]).length = (1 : BitVec 32).toNat ∧ (imageOf depths []).BppIs123 ∧ 40 + 8 * 1 ≤ 64 * 1 ∧
    (decompressStage Config.codec depths.deflatePresent (bytes [0xA5]) ((0x81 : Byte).getLsbD 7) = none ∧
      decompressStage Config.codec depths.deflatePresent (bytes [0xA5]) ((0x01 : Byte).getLsbD 7) =
        some (bytes [0xA5]) ∧ (bytes [0xA5]).length > 0) :=
  ⟨⟨by decide, ⟨by decide +kernel, by decide +kernel⟩, ⟨by decide +kernel, by decide +kernel⟩,
      bytesSpelt_one (by decide +kernel), bytesSpelt_one (by decide +kernel)⟩,
    rfl, by decide, by decide, rfl, rfl, by decide⟩

/-- `FRM_DEPTH = 5` and an image of 64 samples, three slots each, with the header of a stored body of six zero bytes.
-/
def shallow : State :=
  { withPix (State.resetWith { depths with frmDepth := 5 })
      ((List.range 64).map (fun q => if q = 9 then 4 else if q = 10 then 1 else if q = 13 then 1 else 0)) with bpp := 3 }

/-- The frame-depth clause. -/
theorem test_meets_ExtractFrameDepth : shallow.params.wf = true ∧ HeaderSpelt shallow.slotBit 6 0x01 ∧
    BytesSpelt (fun k => shallow.slotBit (40 + k)) (List.replicate 6 0) ∧ shallow.BppIs123 ∧
    (6 : BitVec 32).toNat > 5 ∧ 40 + 8 * (6 : BitVec 32).toNat ≤ 64 * 3 ∧ 8 * (6 : BitVec 32).toNat ≤ depths.bitDepth := by
  have key : ∀ j : Fin 6, ∀ b : Fin 8, false = shallow.slotBit (40 + (8 * j.val + b.val)) := by decide +kernel
  refine ⟨by decide, ⟨by decide +kernel, by decide +kernel⟩, fun j b hj hb => ?_, by decide, by decide, by decide, by decide⟩
  refine Eq.trans ?_ (key ⟨j, by simpa using hj⟩ ⟨b, hb⟩)
  rw [List.getElem_replicate]
  simp

theorem test_meets_ExtractDeliversTheBody : depths.wf = true ∧
    HeaderSpelt (imageOf depths [0, 0, 0, 1, 0x01, 0xA5]).slotBit 1 0x01 ∧
    BytesSpelt (fun k => (imageOf depths [0, 0, 0, 1, 0x01, 0xA5]).slotBit (40 + k)) (bytes [0xA5]) ∧
    (bytes [0xA5]).length = (1 : BitVec 32).toNat ∧
    decompressStage Config.codec depths.deflatePresent (bytes [0xA5]) ((0x01 : Byte).getLsbD 7) = some (bytes [0xA5]) ∧
    (bytes [0xA5]).length ≤ depths.payDepth ∧ 40 ≤ (imageOf depths []).nsamp.toNat ∧
    40 + 8 * 1 ≤ (imageOf depths []).nsamp.toNat * (imageOf depths []).bpp.toNat :=
  ⟨by decide, ⟨by decide +kernel, by decide +kernel⟩, bytesSpelt_one (by decide +kernel), rfl, rfl, by decide,
    by decide +kernel, by decide +kernel⟩

/-- The state after `EMBED` on P2 succeeds, keeps 40 samples and a body within the bound: the hypotheses of the round
trip, with the image left alone, and of the first half of R186. -/
theorem test_meets_ExtractRecoversWhatEmbedHid : hello.params.wf = true ∧ exec .embed hello = .next (run .embed hello) ∧
    (run .embed hello).result = 0 ∧ 40 ≤ hello.nsamp.toNat ∧ (run .embed hello).dlen.toNat ≤ 10000000 := by
  refine ⟨by decide, rfl, ?_⟩
  decide +kernel

/-- The second half of R186: `EXTRACT` on the image of P2 succeeds. -/
theorem test_meets_ExtractIsItsSequenceOfPrimitives :
    exec .extract { withPix fresh helloStego with bpp := 2 } = .next (run .extract { withPix fresh helloStego with bpp := 2 }) ∧
    (run .extract { withPix fresh helloStego with bpp := 2 }).result = 0 := ⟨rfl, by decide +kernel⟩

/-- The capacity boundary: five bytes of five, six of five; the premises at P2. -/
theorem test_meets_EmbedSucceedsUpToTheCapacity : hello.params.wf = true ∧ hello.BppIs123 ∧
    40 ≤ hello.nsamp.toNat * hello.bpp.toNat ∧
    (bytes [0x48, 0x45, 0x4C, 0x4C, 0x4F]).length ≤ capBytes hello.nsamp.toNat hello.bpp.toNat ∧
    (bytes [0x48, 0x45, 0x4C, 0x4C, 0x4F, 0x21]).length > capBytes hello.nsamp.toNat hello.bpp.toNat ∧
    5 + 6 ≤ depths.frmDepth ∧ 8 * (5 + 6) ≤ depths.bitDepth := by decide

/-- Commands that fail straight after reset: `BPP` is 0. -/
theorem test_meets_failing_commands : ∀ i ∈ [Instr.embed, .lsbw, .extract, .capq],
    exec i fresh = .next (run i fresh) ∧ (run i fresh).result ≠ 0 := by
  intro i hi
  fin_cases hi <;> exact ⟨rfl, by decide⟩

/-- Every command ends in a next state; and stale entries may differ. -/
theorem test_meets_rules_about_all_commands : (∀ i : Instr, exec i hello = .next (run i hello)) ∧
    (∀ j, j < (withFrm fresh [1]).frmlen.toNat →
      State.readFrm { withFrm fresh [1] with frm := [(0, 1), (7, 9)] } j = (withFrm fresh [1]).readFrm j) ∧
    (∀ j, j < (withPay fresh [1]).paylen.toNat →
      State.readPay { withPay fresh [1] with pay := [(0, 1), (7, 9)] } j = (withPay fresh [1]).readPay j) ∧
    (∀ j, j < (withBits fresh [1]).bitlen.toNat →
      State.readBit { withBits fresh [1] with bits := [(0, true), (7, true)] } j = (withBits fresh [1]).readBit j) ∧
    (∀ q, q < (withPix fresh [1]).nsamp.toNat →
      State.readPix { withPix fresh [1] with pix := [(0, 1), (7, 9)] } q = (withPix fresh [1]).readPix q) := by
  refine ⟨fun i => ?_, by decide, by decide, by decide, by decide⟩
  cases i <;> rfl

theorem test_meets_EngineWritesStayWithinTheirBounds : hello.params.wf = true ∧
    exec .capq hello = .next (run .capq hello) ∧ hello.nsamp.toNat ≤ hello.params.pixDepth ∧
    (run .capq hello).capbits ≠ hello.capbits := by
  refine ⟨by decide, rfl, ?_⟩
  decide

theorem test_meets_DoneIsClearedOnlyByReset :
    step { fresh with status := ⟨true, false, false⟩, host := [.regWrite 0x08 0] } =
      .next { fresh with status := ⟨true, false, false⟩ } ∧
    ∀ rest, ({ fresh with host := [.regWrite 0x08 0] } : State).host ≠ .reset :: rest := by
  refine ⟨rfl, fun rest h => ?_⟩
  cases h

theorem test_meets_EveryStepKeepsTheMachineInvariant : ({ fresh with host := [.regWrite 0x00 0x10] } : State).Inv ∧
    step { fresh with host := [.regWrite 0x00 0x10] } =
      .next { fresh with cmd := 0x10, result := 1, status := ⟨true, true, false⟩ } :=
  ⟨⟨by decide, by decide, rfl, by decide, by decide, by decide, by decide⟩, rfl⟩

end Sys2Proof.Tests
end

namespace Sys2Proof.Machine

/-- `HDRBITS` is hard-wired to `HDR_BITS`: no field of the state enters the read (R9, R38). -/
@[simp] theorem State.regRead_hdrbits (s : State) : s.regRead .hdrbits = BitVec.ofNat 64 hdrBits := rfl

/-- Settles O13: the read is `HDR_BITS` in every state, and `HDR_BITS` is 40. -/
theorem hdrbitsReadsFortyAlways : Obligations.HdrbitsReadsFortyAlways := by
  intro s
  calc s.regRead .hdrbits = BitVec.ofNat 64 hdrBits := s.regRead_hdrbits
    _ = 40 := rfl

end Sys2Proof.Machine

namespace Sys2Proof

/-! ### The decoder (30_encoding.md R85 to R88) -/

/-- `RSV` is bits 31:8 of the word (R85). -/
@[simp] theorem fieldRsv_toNat (w : CmdWord) : (fieldRsv w).toNat = w.toNat / 256 := by
  have := w.isLt
  rw [fieldRsv, BitVec.extractLsb'_toNat, Nat.shiftRight_eq_div_pow]
  omega

/-- `OPC` is bits 7:0 of the word (R85). -/
@[simp] theorem fieldOpc_toNat (w : CmdWord) : (fieldOpc w).toNat = w.toNat % 256 := by
  simp [fieldOpc]

theorem fieldRsv_ne_zero_iff (w : CmdWord) : fieldRsv w ≠ 0 ↔ w.toNat / 256 ≠ 0 := by
  rw [ne_eq, ← BitVec.toNat_inj, fieldRsv_toNat]
  rfl

/-- The opcode map answers on the ten opcodes of R87 only. -/
theorem decodeOpc_eq_none (opc : Byte)
    (h : opc.toNat ∉ [0x01, 0x02, 0x03, 0x04, 0x05, 0x06, 0x07, 0x08, 0x10, 0x11]) : decodeOpc opc = none := by
  unfold decodeOpc
  split
  case h_11 => rfl
  all_goals exact absurd (by simp [*]) h

theorem decode_of_fieldRsv_ne_zero {w : CmdWord} (h : fieldRsv w ≠ 0) : decode w = .error (.reservedBits w) :=
  if_pos h

theorem decode_of_fieldRsv_eq_zero {w : CmdWord} (h : fieldRsv w = 0) :
    decode w = (decodeOpc (fieldOpc w)).elim (.error (.unassignedOpcode (fieldOpc w))) .ok := by
  rw [decode, if_neg (not_not_intro h)]
  cases decodeOpc (fieldOpc w) <;> rfl

/-- Every word R86 maps to no command is illegal (R88): by its reserved bits, or else by its opcode. -/
theorem exists_decode_eq_error {w : CmdWord} (h : w.toNat / 256 ≠ 0 ∨
    w.toNat % 256 ∉ [0x01, 0x02, 0x03, 0x04, 0x05, 0x06, 0x07, 0x08, 0x10, 0x11]) :
    ∃ e, decode w = .error e := by
  by_cases hr : fieldRsv w = 0
  · have hopc : decodeOpc (fieldOpc w) = none := by
      refine decodeOpc_eq_none _ ?_
      rw [fieldOpc_toNat]
      exact h.resolve_left (fun hq => (fieldRsv_ne_zero_iff w).mpr hq hr)
    exact ⟨_, by rw [decode_of_fieldRsv_eq_zero hr, hopc]; rfl⟩
  · exact ⟨_, decode_of_fieldRsv_ne_zero hr⟩

/-- The facts of Laws/PerInstr.lean, for every command. -/
theorem encoding_statement (i : Instr) : Laws.Encoding.Statement i := by
  cases i
  case b2bits => exact Laws.Encoding.b2bits
  case bits2b => exact Laws.Encoding.bits2b
  case capq => exact Laws.Encoding.capq
  case fbuild => exact Laws.Encoding.fbuild
  case fparse => exact Laws.Encoding.fparse
  case fbody => exact Laws.Encoding.fbody
  case lsbw => exact Laws.Encoding.lsbw
  case lsbr => exact Laws.Encoding.lsbr
  case embed => exact Laws.Encoding.embed
  case extract => exact Laws.Encoding.extract

/-- A command's word decodes to the command (R86, R87). -/
@[simp] theorem decode_encode (i : Instr) : decode (encode i) = .ok i := by
  obtain ⟨-, hrsv, hopc, hmap⟩ := encoding_statement i
  rw [decode_of_fieldRsv_eq_zero hrsv, hopc, hmap]
  rfl

/-- Settles O1: each word is its command's encoding. -/
theorem commandWordsDecodeToTheirCommands : Obligations.CommandWordsDecodeToTheirCommands :=
  ⟨decode_encode .b2bits, decode_encode .bits2b, decode_encode .capq, decode_encode .fbuild, decode_encode .fparse,
    decode_encode .fbody, decode_encode .lsbw, decode_encode .lsbr, decode_encode .embed, decode_encode .extract⟩

end Sys2Proof

namespace Sys2Proof.Machine

/-! ### An illegal word in the `CMD` write (R21, R88) -/

/-- A `CMD` write stores the word, sets `BUSY`, and runs the command within the step (R21, R74). -/
theorem step_cmdWrite {s : State} {v : Word64} {rest : List HostAction} (h : s.host = .regWrite 0x00 v :: rest) :
    step s = runCommand (State.startCommand { s with host := rest } v) := by
  rw [step, hostStep, h]
  rfl

/-- An illegal word raises `IllegalCommand` and does nothing else (R86, R88). -/
theorem runCommand_of_decode_error {s : State} {e : IllegalWord} (h : decode s.cmd = .error e) :
    runCommand s = .next (s.raise .illegalCommand) := by
  rw [runCommand, h]

/-- Settles O4: the stored word does not decode, so the step ends in error entry from the state of the `CMD` write, which
also overwrites the `BUSY` set by it. -/
theorem illegalWordChangesOnlyCmdStatusResult : Obligations.IllegalWordChangesOnlyCmdStatusResult := by
  intro s v rest hhost hword
  have hcmd : (v.setWidth 32).toNat = v.toNat % 2 ^ 32 := BitVec.toNat_setWidth 32 v
  obtain ⟨e, he⟩ : ∃ e, decode (v.setWidth 32) = .error e := by
    refine exists_decode_eq_error ?_
    rwa [hcmd, Nat.mod_mod_of_dvd v.toNat (by decide : 256 ∣ 2 ^ 32)]
  calc step s = runCommand (State.startCommand { s with host := rest } v) := step_cmdWrite hhost
    _ = .next ((State.startCommand { s with host := rest } v).raise .illegalCommand) := runCommand_of_decode_error he
    _ = .next { s with host := rest, cmd := v.setWidth 32, result := 8, status := errStatus } := rfl

/-! ### The slot map (30_encoding.md R98) -/

/-- The address of a position, read backwards (R98). -/
theorem slotAddr_eq_iff {bpp : Nat} (hb : 0 < bpp) (i q u : Nat) :
    slotAddr i bpp = (q, u) ↔ u < bpp ∧ q * bpp + u = i := by
  rw [← position_iff hb, slotAddr, Prod.mk.injEq, eq_comm, eq_comm (a := u)]

/-- Two positions with one address are one: the address tells the position (R98). -/
theorem slotAddr_injective {bpp : Nat} (hb : 0 < bpp) : Function.Injective (slotAddr · bpp) := by
  intro i i' h
  obtain ⟨-, hi⟩ := (slotAddr_eq_iff hb i _ _).mp h
  obtain ⟨-, hi'⟩ := (slotAddr_eq_iff hb i' _ _).mp rfl
  exact hi.symm.trans hi'

/-- Positions below `n * bpp` lie in samples below `n` and slots below `bpp` (R98). -/
theorem slotAddr_lt {n bpp i : Nat} (hb : 0 < bpp) (h : i < n * bpp) :
    (slotAddr i bpp).1 < n ∧ (slotAddr i bpp).2 < bpp :=
  ⟨(Nat.div_lt_iff_lt_mul hb).mpr h, Nat.mod_lt i hb⟩

/-- Settles O20: `bpp` is never 0, so an address is a quotient and remainder, and slot `u` of sample `q` is the address of
position `q * bpp + u`. -/
theorem slotAddressingIsABijection : Obligations.SlotAddressingIsABijection := by
  intro n bpp hbpp
  have hb : 0 < bpp := by omega
  refine ⟨fun _ => rfl, fun _ => slotAddr_lt hb, fun _ _ h => slotAddr_injective hb h, fun q u hq hu => ?_⟩
  have hlt : q * bpp + u < n * bpp := by
    calc q * bpp + u < (q + 1) * bpp := by rw [Nat.succ_mul]; omega
      _ ≤ n * bpp := Nat.mul_le_mul_right bpp hq
  exact ⟨q * bpp + u, hlt, (slotAddr_eq_iff hb _ q u).mpr ⟨hu, rfl⟩⟩

end Sys2Proof.Machine

namespace Sys2Proof.Machine

/-! ### Bit packing (40_bitpack.md R110, R111) -/

/-- Bit `b` of the stream's group `j` is bit `7 - b` of byte `j` (R110). -/
theorem getElem?_bytesToBits_group (d : Bytes) {j b : Nat} (hj : j < d.length) (hb : b < 8) :
    (bytesToBits d)[8 * j + b]? = some (d[j].getLsbD (7 - b)) := by
  have hdiv : (8 * j + b) / 8 = j := by omega
  have hmod : (8 * j + b) % 8 = b := by omega
  rw [getElem?_bytesToBits, hdiv, hmod, List.getElem?_eq_getElem hj, Option.map_some]

/-- Settles O14: position `8 * j + b` has quotient `j` and remainder `b` by 8. -/
theorem bytesToBitsIsMsbFirst : Obligations.BytesToBitsIsMsbFirst := fun d =>
  ⟨length_bytesToBits d, fun _ _ hj hb => getElem?_bytesToBits_group d hj (Nat.lt_succ_of_le hb)⟩

/-- Bit `7 - b` of byte `j`, the byte read by an index within the packed bytes (R111). -/
theorem getLsbD_getElem_bitsToBytes (s : Bits) {j b : Nat} (hj : j < (bitsToBytes s).length) (hb : b < 8) :
    (bitsToBytes s)[j].getLsbD (7 - b) = s.getD (8 * j + b) false := by
  rw [List.getElem_eq_getD 0]
  exact getLsbD_bitsToBytes s j b (by simpa using hj) hb

/-- The bit R111 reads at `k`: 0 past the end of the stream. -/
theorem getD_eq_decide_and_getD (s : Bits) (k : Nat) : s.getD k false = (decide (k < s.length) && s.getD k false) := by
  by_cases h : k < s.length
  · rw [decide_eq_true h, Bool.true_and]
  · rw [List.getD_eq_default _ _ (Nat.le_of_not_lt h), Bool.and_false]

/-- Settles O15: each packed byte holds its group of eight bits, and a bit past the end of the stream is 0. -/
theorem bitsToBytesPadsOnTheRight : Obligations.BitsToBytesPadsOnTheRight := by
  intro s
  refine ⟨length_bitsToBytes s, fun j b hj hb => ?_⟩
  rw [getLsbD_getElem_bitsToBytes s hj (Nat.lt_succ_of_le hb)]
  exact getD_eq_decide_and_getD s (8 * j + b)

/-! ### `B2BITS` and `BITS2B` (40_bitpack.md R113, R114) -/

/-- Settles O24: past the two depth tests the command stores the frame's stream, whose length R7's bound on `BIT_DEPTH`
keeps below 2^64, so `BITLEN` receives it unwrapped. -/
theorem b2bitsFollowsItsRule : Obligations.B2bitsFollowsItsRule := by
  intro s hwf
  obtain ⟨-, -, -, -, -, -, hdepth⟩ := (paramsWf_iff s.params).mp hwf
  rcases b2bits_cases s with ⟨herr, hrun⟩ | ⟨hfrm, hbits, hrun⟩
  · exact ⟨fun _ => congrArg Host.Outcome.next hrun, fun hfrm hbits => by omega⟩
  · have held := streamHeld_putBits s (by omega)
    exact ⟨fun herr => by omega,
      fun _ _ => ⟨_, congrArg Host.Outcome.next hrun, rfl, held.bitlen, held.streamBits, held.stale⟩⟩

/-- A bit of `BITS[0..n)`, 0 past its end. -/
theorem getD_stream (s : State) (n k : Nat) : (s.stream n).getD k false = (decide (k < n) && s.readBit k) := by
  rw [List.getD_eq_getElem?_getD, getElem?_stream]
  by_cases h : k < n <;> simp [h]

/-- `FRM` after packed bits were put there: bit `7 - b` of entry `j` is bit `8 * j + b` of the stream, 0 past its end. -/
theorem getLsbD_readFrm_putFrm_bitsToBytes (s : State) (v : Bits) {j b : Nat} (hj : j < ceil8 v.length) (hb : b < 8) :
    ((s.putFrm (bitsToBytes v)).readFrm j).getLsbD (7 - b) = v.getD (8 * j + b) false := by
  have hlen : j < (bitsToBytes v).length := by rwa [length_bitsToBytes]
  rw [readFrm_putFrm, dif_pos hlen, getLsbD_getElem_bitsToBytes v hlen hb]

/-- Entries of `FRM` past the packed bits are left (R49). -/
theorem readFrm_putFrm_bitsToBytes_of_le (s : State) (v : Bits) {j : Nat} (hj : ceil8 v.length ≤ j) :
    (s.putFrm (bitsToBytes v)).readFrm j = s.readFrm j := by
  rw [readFrm_putFrm, dif_neg (by rw [length_bitsToBytes]; omega)]

/-- `FRMLEN` after packed bits were put into `FRM`, where their length fits the register. -/
theorem frmlen_putFrm_bitsToBytes (s : State) (v : Bits) (h : ceil8 v.length < 2 ^ 64) :
    (s.putFrm (bitsToBytes v)).frmlen.toNat = ceil8 v.length := by
  rw [State.putFrm, length_bitsToBytes, BitVec.toNat_ofNat, Nat.mod_eq_of_lt h]

/-- Settles O25: past the two depth tests the command stores the packed stream, whose length R7's bound on `FRM_DEPTH`
keeps below 2^64, so `FRMLEN` receives it unwrapped. -/
theorem bits2bFollowsItsRule : Obligations.Bits2bFollowsItsRule := by
  intro s hwf
  obtain ⟨-, -, -, -, hdepth, -, -⟩ := (paramsWf_iff s.params).mp hwf
  have hceil : ceil8 (s.stream s.bitlen.toNat).length = (s.bitlen.toNat + 7) / 8 := by rw [length_stream, ceil8]
  rcases bits2b_cases s with ⟨herr, hrun⟩ | ⟨hbits, hfrm, hrun⟩
  · rw [ceil8] at herr
    exact ⟨fun _ => congrArg Host.Outcome.next hrun, fun hbits hfrm => by omega⟩
  · rw [ceil8] at hfrm
    refine ⟨fun herr => by omega, fun _ _ => ⟨_, congrArg Host.Outcome.next hrun, rfl, ?frmlen, ?packed, ?stale⟩⟩
    case frmlen =>
      rw [← hceil]
      exact frmlen_putFrm_bitsToBytes s _ (by omega)
    case packed =>
      intro j b hj hb
      rw [readFrm_succeed, getLsbD_readFrm_putFrm_bitsToBytes s _ (by omega) hb, getD_stream]
    case stale =>
      intro j hj
      exact readFrm_putFrm_bitsToBytes_of_le s _ (by omega)

end Sys2Proof.Machine

namespace Sys2Proof.Machine

/-! ### What a successful end keeps -/

/-- A successful end touches neither the frame nor its registers (R215). -/
theorem FrameHeld.succeed {body : Bytes} {c : Bool} {s t : State} (h : FrameHeld body c s t) :
    FrameHeld body c s t.succeed :=
  ⟨h.frmlen, h.dlen, h.metadata, h.length3, h.length2, h.length1, h.length0, h.metaByte, h.bodyBytes, h.stale⟩

/-- A successful end touches neither the payload nor its length (R215). -/
theorem PayloadHeld.succeed {out : Bytes} {s t : State} (h : PayloadHeld out s t) : PayloadHeld out s t.succeed :=
  ⟨h.paylen, h.bytes, h.stale⟩

/-! ### `FBUILD` (42_frame.md R130) -/

/-- `FBUILD`: what it can do, for the body and the flag the stage gives. -/
theorem fbuild_cases {codec : Codec} {s : State} {body : Bytes} {c : Bool}
    (hstage : compressStage codec s.params.deflatePresent s.secret s.cdis = (body, c)) :
    ((s.paylen.toNat > s.params.payDepth ∨ 5 + body.length > s.params.frmDepth) ∧
      fbuild codec s = s.raise .resourceExceeded) ∨
    (s.paylen.toNat ≤ s.params.payDepth ∧ 5 + body.length ≤ s.params.frmDepth ∧ fbuild codec s = State.succeed
      { s.putFrm (packHeader (BitVec.ofNat 32 body.length) c s.bpp ++ body) with
          dlen := BitVec.ofNat 32 body.length, metadata := metadataByte c s.bpp }) := by
  have hcases := buildFrame_cases codec s
  rw [hstage] at hcases
  rcases hcases with ⟨herr, hflow⟩ | ⟨hpay, hfrm, hflow⟩
  · exact .inl ⟨herr, congrArg Flow.finish hflow⟩
  · exact .inr ⟨hpay, hfrm, congrArg Flow.finish (hflow body c rfl)⟩

/-- Settles O28: a frame within R7's bound on `FRM_DEPTH` has a body shorter than 2^32 bytes, so its length field, `DLEN`
and `FRMLEN` receive their lengths unwrapped. -/
theorem fbuildFollowsItsRule : Obligations.FbuildFollowsItsRule := by
  intro s body c hwf hstage
  obtain ⟨-, -, -, -, hdepth, -, -⟩ := (paramsWf_iff s.params).mp hwf
  rw [← secret_eq, ← cdis_eq] at hstage
  rcases fbuild_cases hstage with ⟨herr, hrun⟩ | ⟨hpay, hfrm, hrun⟩
  · exact ⟨fun _ => congrArg Host.Outcome.next hrun, fun hpay hfrm => by omega⟩
  · have held := frameHeld_build s body c (by omega)
    exact ⟨fun herr => by omega, fun _ _ => ⟨_, congrArg Host.Outcome.next hrun, rfl, held.succeed⟩⟩

/-! ### `FPARSE` (42_frame.md R131) -/

/-- The latch of a header already parsed: too long a length field raises, any other header is latched. -/
theorem latchHeader_cases_of_parse {b : Bits} {h : Header} (hparse : parseHeader b = h) (s : State) :
    (h.len.toNat > 10000000 ∧ latchHeader b s = .ended (s.raise .invalidDataLength)) ∨
    (h.len.toNat ≤ 10000000 ∧
      latchHeader b s = .goOn { s with dlen := h.len, metadata := h.metadata, hbpp := h.hbpp }) :=
  hparse ▸ latchHeader_cases b s

/-- Settles O29: past the two length tests the stream holds a whole header, which parses to what its forty bits spell. -/
theorem fparseFollowsItsRule : Obligations.FparseFollowsItsRule := by
  intro s len m hspelt
  rcases fparse_cases s with ⟨hdeep, hrun⟩ | ⟨hdepth, hshort, hrun⟩ | ⟨hdepth, hlong, hrun⟩
  · exact ⟨fun _ => congrArg Host.Outcome.next hrun, fun hdepth => by omega, fun hdepth => by omega,
      fun hdepth => by omega⟩
  · exact ⟨fun hdeep => by omega, fun _ _ => congrArg Host.Outcome.next hrun, fun _ hlong => by omega,
      fun _ hlong => by omega⟩
  · refine ⟨fun hdeep => by omega, fun _ hshort => by omega, ?_⟩
    rcases latchHeader_cases_of_parse (parseHeader_stream hspelt) s with ⟨hbad, hflow⟩ | ⟨hgood, hflow⟩
    · rw [hflow] at hrun
      exact ⟨fun _ _ _ => congrArg Host.Outcome.next hrun, fun _ _ hgood => absurd hbad (Nat.not_lt.mpr hgood)⟩
    · rw [hflow] at hrun
      exact ⟨fun _ _ hbad => absurd hbad (Nat.not_lt.mpr hgood),
        fun _ _ _ => ⟨_, congrArg Host.Outcome.next hrun, rfl, headerBpp_toNat m⟩⟩

/-! ### `FBODY` (42_frame.md R132) -/

/-- A body the stage cannot decompress is not delivered. -/
theorem deliverBody_of_none {codec : Codec} {n : Nat} {s : State}
    (hnone : decompressStage codec s.params.deflatePresent (s.frmBytes n) s.metaC = none) :
    deliverBody codec n s = .ended (s.raise .decompressionError) := by
  rcases deliverBody_cases codec n s with ⟨-, hflow⟩ | ⟨out, hsome, -⟩
  · exact hflow
  · cases hnone.symm.trans hsome

/-- The delivery of what the stage gives depends on the depth of `PAY` alone. -/
theorem deliverBody_cases_of_some {codec : Codec} {n : Nat} {s : State} {out : Bytes}
    (hsome : decompressStage codec s.params.deflatePresent (s.frmBytes n) s.metaC = some out) :
    (out.length > s.params.payDepth ∧ deliverBody codec n s = .ended (s.raise .resourceExceeded)) ∨
    (out.length ≤ s.params.payDepth ∧ deliverBody codec n s = .goOn (s.putPay out)) := by
  rcases deliverBody_cases codec n s with ⟨hnone, -⟩ | ⟨out', hsome', hcases⟩
  · cases hnone.symm.trans hsome
  · cases hsome'.symm.trans hsome
    exact hcases

/-- Settles O30: past the depth test of `FRM` the body is the first `min(FRMLEN, DLEN)` bytes, and the answer of the stage
on it decides; a result within `PAY_DEPTH` has a length `PAYLEN` receives unwrapped. -/
theorem fbodyFollowsItsRule : Obligations.FbodyFollowsItsRule := by
  intro s body hwf hbody
  obtain ⟨-, -, hpayDepth, -, -, -, -⟩ := (paramsWf_iff s.params).mp hwf
  rw [← frmBytes_eq] at hbody
  subst hbody
  rcases fbody_cases Config.codec s with ⟨hdeep, hrun⟩ | ⟨hdepth, hrun⟩
  · exact ⟨fun _ => congrArg Host.Outcome.next hrun, fun hdepth => by omega, fun _ hdepth => by omega,
      fun _ hdepth => by omega⟩
  · refine ⟨fun hdeep => by omega, fun _ hnone => ?noBody, fun out _ hsome hlong => ?tooLong,
      fun out _ hsome hfits => ?delivered⟩
    case noBody =>
      rw [deliverBody_of_none hnone] at hrun
      exact congrArg Host.Outcome.next hrun
    case tooLong =>
      rcases deliverBody_cases_of_some hsome with ⟨-, hflow⟩ | ⟨hfits, -⟩
      · rw [hflow] at hrun
        exact congrArg Host.Outcome.next hrun
      · omega
    case delivered =>
      rcases deliverBody_cases_of_some hsome with ⟨hlong, -⟩ | ⟨-, hflow⟩
      · omega
      · rw [hflow] at hrun
        have held := payloadHeld_putPay s out (by omega)
        exact ⟨_, congrArg Host.Outcome.next hrun, rfl, held.succeed⟩

end Sys2Proof.Machine

namespace Sys2Proof.Machine

/-! ### Bit positions of the image (43_lsb.md R150 to R153) -/

/-- The image has fewer than 2^34 bit positions, where `NSAMP` is within `PIX_DEPTH` and `BPP` is legal (R7, R26). -/
theorem slots_lt {s : State} (hwf : s.params.wf = true) (hbpp : s.BppIs123) (hn : s.nsamp.toNat ≤ s.params.pixDepth) :
    s.slots < 2 ^ 34 := by
  obtain ⟨-, hdepth, -, -, -, -, -⟩ := (paramsWf_iff s.params).mp hwf
  calc s.slots ≤ (2 ^ 32 - 1) * 3 := Nat.mul_le_mul (hn.trans hdepth) (bpp_bounds hbpp).2
    _ < 2 ^ 34 := by decide

/-- The `BITPOS` after the write or read of `len` bits within the image is the sum of R152 and R153, unwrapped. -/
theorem toNat_ofNat_position {s : State} (hwf : s.params.wf = true) (hbpp : s.BppIs123)
    (hn : s.nsamp.toNat ≤ s.params.pixDepth) {n : Nat} (hfits : n ≤ s.slots) : (BitVec.ofNat 64 n).toNat = n := by
  have hslots := slots_lt hwf hbpp hn
  exact Nat.mod_eq_of_lt (by omega)

/-- `WriteBits` of a stream puts it into its slots and changes no other bit of `PIX` (R150, R154). -/
theorem slotsHold_writeBits {bpp : Nat} (hb : 0 < bpp) (hb8 : bpp ≤ 8) (p : Nat) (v : Bits) (s : State) :
    SlotsHold bpp p v.length (fun k => v.getD k false) s (writeBits bpp p v s) :=
  fun q u hu => readPix_writeBits hb hb8 p v s q u hu

/-- What the slots hold depends on the first `n` bits alone. -/
theorem SlotsHold.congr {bpp p n : Nat} {bit bit' : Nat → Bool} {s t : State} (h : SlotsHold bpp p n bit s t)
    (heq : ∀ k < n, bit k = bit' k) : SlotsHold bpp p n bit' s t := by
  intro q u hu
  rw [h q u hu]
  split
  · exact heq _ (by omega)
  · rfl

/-- `WriteBits` of `BITS[0..n)` puts these entries into the slots (R152). -/
theorem slotsHold_writeBits_stream {bpp : Nat} (hb : 0 < bpp) (hb8 : bpp ≤ 8) (p n : Nat) (s : State) :
    SlotsHold bpp p n s.readBit s (writeBits bpp p (s.stream n) s) := by
  have held := slotsHold_writeBits hb hb8 p (s.stream n) s
  rw [length_stream] at held
  exact held.congr (fun k hk => by rw [getD_stream, decide_eq_true hk, Bool.true_and])

/-! ### The four tests of `LSBW` and `LSBR` (43_lsb.md R152, R153) -/

/-- The clauses of a command that runs to `t` and begins with the tests of R152 and R153 on `len` bits from `BITPOS` on,
raising `k` where the image is too short: the first failing test decides, and where all four pass `t` is `u`. -/
theorem clauses_of_sampleTests {s t u : State} {len : Nat} {k : ErrorKind} {Success : Prop}
    (hcases : (¬ s.BppIs123 ∧ t = s.raise .invalidParameter) ∨
      (s.BppIs123 ∧ (s.nsamp.toNat > s.params.pixDepth ∨ len > s.params.bitDepth) ∧ t = s.raise .resourceExceeded) ∨
      (s.BppIs123 ∧ s.nsamp.toNat ≤ s.params.pixDepth ∧ len ≤ s.params.bitDepth ∧
        s.bitpos.toNat + len > s.slots ∧ t = s.raise k) ∨
      (s.BppIs123 ∧ s.nsamp.toNat ≤ s.params.pixDepth ∧ len ≤ s.params.bitDepth ∧
        s.bitpos.toNat + len ≤ s.slots ∧ t = u))
    (hsuccess : s.BppIs123 → s.nsamp.toNat ≤ s.params.pixDepth → s.bitpos.toNat + len ≤ s.slots → t = u → Success) :
    (¬ s.BppIs123 → t = s.withError 1) ∧
    (s.BppIs123 → s.nsamp.toNat > s.params.pixDepth ∨ len > s.params.bitDepth → t = s.withError 9) ∧
    (s.BppIs123 → s.nsamp.toNat ≤ s.params.pixDepth → len ≤ s.params.bitDepth → s.bitpos.toNat + len > s.slots →
      t = s.withError k.code) ∧
    (s.BppIs123 → s.nsamp.toNat ≤ s.params.pixDepth → len ≤ s.params.bitDepth → s.bitpos.toNat + len ≤ s.slots →
      Success) := by
  rcases hcases with ⟨hbad, hrun⟩ | ⟨hbpp, hdeep, hrun⟩ | ⟨hbpp, hn, hlen, hover, hrun⟩ | ⟨hbpp, hn, hlen, hfits, hrun⟩
  · exact ⟨fun _ => hrun, fun hbpp => absurd hbpp hbad, fun hbpp => absurd hbpp hbad, fun hbpp => absurd hbpp hbad⟩
  · exact ⟨absurd hbpp, fun _ _ => hrun, fun _ hn hlen => by omega, fun _ hn hlen => by omega⟩
  · exact ⟨absurd hbpp, fun _ hdeep => by omega, fun _ _ _ _ => hrun, fun _ _ _ hfits => by omega⟩
  · exact ⟨absurd hbpp, fun _ hdeep => by omega, fun _ _ _ hover => by omega,
      fun _ _ _ _ => hsuccess hbpp hn hfits hrun⟩

/-! ### `LSBW` (43_lsb.md R152) -/

/-- The meaning of `LSBW` is its function on states: it never stops (R18, R152). -/
theorem exec_lsbw (s : State) : exec .lsbw s = .next (lsbw s) := rfl

/-- Settles O31: past the four tests the command writes the stream's bits into the slots from `BITPOS` on; the end
position is within the image, so R7's bound on `PIX_DEPTH` keeps it below 2^64 and `BITPOS` receives it unwrapped. -/
theorem lsbwFollowsItsRule : Obligations.LsbwFollowsItsRule := by
  intro s hwf
  simp only [exec_lsbw, Host.Outcome.next.injEq]
  refine clauses_of_sampleTests (k := .capacityExceeded) (lsbw_cases s) (fun hbpp hn hfits hrun => ?_)
  refine ⟨_, hrun, ?frame, ?bitpos, ?slots⟩
  case frame =>
    rw [writeBits_frame]
    rfl
  case bitpos => exact toNat_ofNat_position hwf hbpp hn hfits
  case slots =>
    obtain ⟨hb, hb3⟩ := bpp_bounds hbpp
    exact slotsHold_writeBits_stream hb (by omega) s.bitpos.toNat s.bitlen.toNat s

/-! ### `LSBR` (43_lsb.md R153) -/

/-- The meaning of `LSBR` is its function on states: it never stops (R18, R153). -/
theorem exec_lsbr (s : State) : exec .lsbr s = .next (lsbr s) := rfl

/-- Latching bits writes `BITS`, `BITLEN` and `BITPOS` and nothing else (R153). -/
theorem latchBits_frame {v : Bits} {n : Word64} (hlen : v.length = n.toNat) (p : Nat) (s : State) :
    latchBits v p s = { s with bits := (latchBits v p s).bits, bitlen := n, bitpos := (latchBits v p s).bitpos } := by
  have hn : BitVec.ofNat 64 v.length = n := by rw [hlen, BitVec.ofNat_toNat, BitVec.setWidth_eq]
  rw [← hn]
  rfl

/-- `BITS` after bits were latched: the bits at their indices, every later entry as before (R49, R153). -/
theorem readBit_latchBits (v : Bits) (p : Nat) (s : State) (k : Nat) :
    (latchBits v p s).readBit k = if h : k < v.length then v[k] else s.readBit k :=
  readBit_putBits s v k

/-- Bit `k` of what `ReadBits` returns from `p` on is the bit at position `p + k` of the image (R151). -/
theorem getElem_readBits_bpp {p n k : Nat} {s : State} (h : k < (readBits s.bpp.toNat p n s).length) :
    (readBits s.bpp.toNat p n s)[k] = s.slotBit (p + k) :=
  getElem_memRead _ p n k h

/-- Settles O32: past the four tests the command latches the bits read from `BITPOS` on; their number is `CNT`, and the end
position is within the image, so R7's bound on `PIX_DEPTH` keeps it below 2^64 and `BITPOS` receives it unwrapped. -/
theorem lsbrFollowsItsRule : Obligations.LsbrFollowsItsRule := by
  intro s hwf
  simp only [exec_lsbr, Host.Outcome.next.injEq]
  refine clauses_of_sampleTests (k := .insufficientData) (lsbr_cases s) (fun hbpp hn hfits hrun => ?_)
  have hlen := length_readBits s.bpp.toNat s.bitpos.toNat s.cnt.toNat s
  refine ⟨_, hrun, ?frame, ?bitpos, ?read, ?stale⟩
  case frame => exact congrArg State.succeed (latchBits_frame hlen s.bitpos.toNat s)
  case bitpos =>
    rw [State.succeed_bitpos, State.latchBits_bitpos, hlen]
    exact toNat_ofNat_position hwf hbpp hn hfits
  case read =>
    intro k hk
    rw [readBit_succeed, readBit_latchBits, dif_pos (by rwa [hlen]), getElem_readBits_bpp]
  case stale =>
    intro k hk
    rw [readBit_succeed, readBit_latchBits, dif_neg (by omega)]

end Sys2Proof.Machine

namespace Sys2Proof.Machine

/-! ### Bytes and bits, there and back (40_bitpack.md R112, R115) -/

@[simp] theorem ceil8_eight_mul (n : Nat) : ceil8 (8 * n) = n := by
  rw [ceil8]
  omega

/-- Packing undoes spelling out: each group of eight bits is the byte it came from (R112). -/
@[simp] theorem bitsToBytes_bytesToBits (x : Bytes) : bitsToBytes (bytesToBits x) = x := by
  refine List.ext_getElem (by simp) (fun j hj hjx => byte_ext (fun b hb => ?_))
  rw [getLsbD_getElem_bitsToBytes _ hj hb, List.getD_eq_getElem?_getD, getElem?_bytesToBits_group x hjx hb,
    Option.getD_some]

/-- Spelling out undoes packing but for the zero bits that fill the last byte (R115). -/
theorem bytesToBits_bitsToBytes (s : Bits) :
    bytesToBits (bitsToBytes s) = s ++ List.replicate ((8 - s.length % 8) % 8) false := by
  have hlen : (bytesToBits (bitsToBytes s)).length = (s ++ List.replicate ((8 - s.length % 8) % 8) false).length := by
    rw [length_bytesToBits, length_bitsToBytes, ceil8, List.length_append, List.length_replicate]
    omega
  refine List.ext_getElem hlen (fun k hk _ => ?_)
  have hj : k / 8 < (bitsToBytes s).length := by rw [length_bytesToBits] at hk; omega
  have hbit : (bytesToBits (bitsToBytes s))[k]? = some (s.getD k false) := by
    have hgroup := getElem?_bytesToBits_group (bitsToBytes s) hj (Nat.mod_lt k (by decide : 0 < 8))
    rwa [getLsbD_getElem_bitsToBytes s hj (Nat.mod_lt k (by decide)), Nat.div_add_mod] at hgroup
  rw [List.getElem?_eq_getElem hk, Option.some.injEq] at hbit
  rw [hbit, List.getD_eq_getElem?_getD, List.getElem_append]
  by_cases h : k < s.length
  · simp [h]
  · simp [h]

/-- Settles O16: the two round trips. -/
theorem bitPackingRoundTrips : Obligations.BitPackingRoundTrips :=
  ⟨bitsToBytes_bytesToBits, bytesToBits_bitsToBytes⟩

/-! ### The header, packed and parsed (30_encoding.md R93 to R97) -/

/-- The four length bytes, put together again, are the length (R64, R93). -/
theorem append_length_bytes (len : BitVec 32) : (len.extractLsb' 24 8 ++ len.extractLsb' 16 8 ++ len.extractLsb' 8 8 ++
    len.extractLsb' 0 8 : BitVec 32) = len := by
  refine BitVec.eq_of_getLsbD_eq (fun i hi => ?_)
  rw [getLsbD_bigEndian _ _ _ _ i hi]
  simp only [BitVec.getLsbD_extractLsb']
  by_cases h0 : i < 8
  · simp [h0]
  · by_cases h1 : i < 16
    · simp [h0, h1, show i - 8 < 8 by omega, show 8 + (i - 8) = i by omega]
    · by_cases h2 : i < 24
      · simp [h0, h1, h2, show i - 16 < 8 by omega, show 16 + (i - 16) = i by omega]
      · simp [h0, h1, h2, show i - 24 < 8 by omega, show 24 + (i - 24) = i by omega]

/-- The bits of a packed header parse to its fields (R94, R96). -/
theorem parseHeader_packHeader (len : BitVec 32) (c : Bool) (bpp : BitVec 32) :
    parseHeader (bytesToBits (packHeader len c bpp)) =
      { len := len, metadata := metadataByte c bpp, c := c, hbpp := headerBpp (metadataByte c bpp) } := by
  rw [parseHeader, bitsToBytes_bytesToBits]
  simp only [packHeader, List.getD_cons_zero, List.getD_cons_succ, append_length_bytes, metadataByte_flag]

/-- Settles O17: the fallback of the parser sees `BPP & 7`, since the flag of the metadata byte stands above it. -/
theorem parseHeaderInvertsPackHeader : Obligations.ParseHeaderInvertsPackHeader := by
  intro len c bpp
  rw [parseHeader_packHeader]
  refine ⟨rfl, rfl, metadataByte_toNat c bpp, ?_⟩
  have hfield : (metadataByte c bpp).toNat % 8 = bpp.toNat % 8 := by rw [metadataByte_toNat]; omega
  rw [headerBpp_toNat, fallbackBpp, hfield]

/-! ### The compression stage (44_compression.md R170 to R176) -/

/-- The stage: what it can do. -/
theorem compressStage_cases (codec : Codec) (present : Bool) (x : Bytes) (cdis : Bool) :
    ((cdis = true ∨ x.length ≤ 100 ∨ compress codec present x = none) ∧
      compressStage codec present x cdis = (x, false)) ∨
    (∃ y, cdis = false ∧ 101 ≤ x.length ∧ compress codec present x = some y ∧
      (x.length ≤ y.length ∧ compressStage codec present x cdis = (x, false) ∨
        y.length < x.length ∧ compressStage codec present x cdis = (y, true))) := by
  unfold compressStage
  by_cases hcdis : cdis = true
  · exact .inl ⟨.inl hcdis, if_pos hcdis⟩
  · rw [if_neg hcdis]
    by_cases hshort : x.length ≤ cThresh
    · exact .inl ⟨.inr (.inl hshort), if_pos hshort⟩
    · rw [if_neg hshort]
      cases hy : compress codec present x with
      | none => exact .inl ⟨.inr (.inr rfl), rfl⟩
      | some y =>
        refine .inr ⟨y, by simpa using hcdis, Nat.lt_of_not_le hshort, rfl, ?_⟩
        by_cases hgain : y.length < x.length
        · exact .inr ⟨hgain, if_pos hgain⟩
        · exact .inl ⟨Nat.le_of_not_lt hgain, if_neg hgain⟩

/-- `CODEC_INVERSE` of the built-in pair, also where none is built in (R8). -/
theorem decompress_of_compress {codec : Codec} {present : Bool} {x y : Bytes}
    (h : compress codec present x = some y) : decompress codec present y = some x := by
  cases present with
  | true => exact codec.inverse x y h
  | false => cases h

/-- Settles O18: the secret is stored unless the stage finds strictly fewer bytes for it. -/
theorem compressionIsUsedOnlyWhenStrictlySmaller : Obligations.CompressionIsUsedOnlyWhenStrictlySmaller := by
  intro codec present x cdis
  have codecFacts : compress codec true x = codec.compress x ∧ decompress codec true x = codec.decompress x ∧
      compress codec false x = none ∧ decompress codec false x = none := ⟨rfl, rfl, rfl, rfl⟩
  rcases compressStage_cases codec present x cdis with
    ⟨hwhy, hstage⟩ | ⟨y, hcdis, hlong, hy, ⟨hloss, hstage⟩ | ⟨hgain, hstage⟩⟩ <;> rw [hstage]
  · refine ⟨fun _ => rfl, Nat.le_refl _, nofun, fun _ => rfl, fun y hcdis hlong hy _ => ?_, codecFacts⟩
    simp [hcdis, hy, Nat.not_le.mpr hlong] at hwhy
  · refine ⟨fun _ => rfl, Nat.le_refl _, nofun, fun _ => rfl, fun z _ _ hz hlt => ?_, codecFacts⟩
    cases hy.symm.trans hz
    omega
  · refine ⟨fun hwhy => ?_, Nat.le_of_lt hgain, fun _ => ⟨hgain, hlong, hy⟩, nofun, fun z _ _ hz _ => ?_, codecFacts⟩
    · simp [hcdis, hy, Nat.not_le.mpr hlong] at hwhy
    · cases hy.symm.trans hz
      rfl

/-- What the stage makes of a secret, `DecompressStage` undoes (R176). -/
theorem decompressStage_compressStage {codec : Codec} {present : Bool} {x : Bytes} {cdis : Bool} {body : Bytes} {c : Bool}
    (hstage : compressStage codec present x cdis = (body, c)) : decompressStage codec present body c = some x := by
  rcases compressStage_cases codec present x cdis with
    ⟨-, hcase⟩ | ⟨y, -, -, hy, ⟨-, hcase⟩ | ⟨-, hcase⟩⟩ <;> cases hstage.symm.trans hcase
  · rfl
  · rfl
  · exact decompress_of_compress hy

/-- Settles O19: a stored body is returned as it is, and a compressed one is what `CODEC_INVERSE` speaks of. -/
theorem compressionIsTransparent : Obligations.CompressionIsTransparent :=
  fun _ _ _ _ => ⟨rfl, rfl, decompressStage_compressStage rfl⟩

/-! ### The capacity on bits and on bytes (41_capacity.md R120, R123) -/

/-- Settles O23: dividing the usable bits by 8 drops less than a byte. -/
theorem bitTestAgreesWithByteTest : Obligations.BitTestAgreesWithByteTest := by
  intro n bpp len
  rw [capBytes, capBits, hdrBits]
  omega

/-! ### The sample loops (43_lsb.md R150 to R157) -/

/-- A sample no written position falls into is as it was (R154). -/
theorem readPix_writeBits_of_outside {bpp : Nat} (hb : 0 < bpp) (hb8 : bpp ≤ 8) (p : Nat) (v : Bits) (s : State) {q : Nat}
    (h : ∀ u < bpp, ¬ (p ≤ q * bpp + u ∧ q * bpp + u < p + v.length)) :
    (writeBits bpp p v s).readPix q = s.readPix q := by
  refine BitVec.eq_of_getLsbD_eq (fun u hu => ?_)
  rw [readPix_writeBits hb hb8 p v s q u hu, if_neg (fun hin => h u hin.1 hin.2)]

/-- Settles O21: outside the samples of its first and last position the write has no slot. -/
theorem writeBitsTouchesOnlyItsSlots : Obligations.WriteBitsTouchesOnlyItsSlots := by
  intro bpp p v s hbpp
  have hb : 0 < bpp := by omega
  have hb8 : bpp ≤ 8 := by omega
  refine ⟨slotsHold_writeBits hb hb8 p v s, fun hv q hq => readPix_writeBits_of_outside hb hb8 p v s (fun u hu hin => ?_),
    writeBits_frame bpp p v s⟩
  have hsample : (q * bpp + u) / bpp = q := (((position_iff hb (q * bpp + u) q u).mpr ⟨hu, rfl⟩).1).symm
  rcases hq with hq | hq
  · have hle := Nat.div_le_div_right (c := bpp) hin.1
    omega
  · have hle := Nat.div_le_div_right (c := bpp) (show q * bpp + u ≤ p + v.length - 1 by omega)
    omega

/-- The slot at a written position holds the bit written there (R157). -/
theorem readSlot_writeBits {bpp : Nat} (hb : 0 < bpp) (hb8 : bpp ≤ 8) (p : Nat) (v : Bits) (s : State) {k : Nat}
    (hk : k < v.length) : (writeBits bpp p v s).readSlot bpp (p + k) = v[k] := by
  have hpos : (p + k) / bpp * bpp + (p + k) % bpp = p + k := Nat.div_add_mod' _ _
  have hslot : (p + k) % bpp < bpp := Nat.mod_lt _ hb
  rw [State.readSlot, slotAddr]
  dsimp only
  rw [readPix_writeBits hb hb8 p v s _ _ (by omega), hpos, if_pos (by omega), Nat.add_sub_cancel_left,
    List.getD_eq_getElem _ _ hk]

/-- The bits written read back (R157). -/
theorem readBits_writeBits {bpp : Nat} (hb : 0 < bpp) (hb8 : bpp ≤ 8) (p : Nat) (v : Bits) (s : State) :
    readBits bpp p v.length (writeBits bpp p v s) = v := by
  refine List.ext_getElem (length_readBits _ _ _ _) (fun k _ hk => ?_)
  exact (getElem_memRead _ _ _ _ _).trans (readSlot_writeBits hb hb8 p v s hk)

/-- Settles O22: any of the three values of `BPP` keeps its slots within the sample. -/
theorem bitsWrittenReadBack : Obligations.BitsWrittenReadBack := by
  intro bpp p v s hbpp
  exact readBits_writeBits (by omega) (by omega) p v s

/-! ### `CAPQ` (41_capacity.md R121) -/

/-- The meaning of `CAPQ` is its function on states: it never stops (R18, R121). -/
theorem exec_capq (s : State) : exec .capq s = .next (capq s) := rfl

/-- Settles O26: a capacity that fits its register is stored unwrapped; the subtraction of `Nat` is the `max` of R121. -/
theorem capqFollowsItsRule : Obligations.CapqFollowsItsRule := by
  intro s
  simp only [exec_capq, Host.Outcome.next.injEq]
  rcases capq_cases s with ⟨hbad, hrun⟩ | ⟨hbpp, hzero, hrun⟩ | ⟨hbpp, hsome, hrun⟩
  · exact ⟨fun _ => hrun, fun hbpp => absurd hbpp hbad, fun hbpp => absurd hbpp hbad⟩
  · exact ⟨absurd hbpp, fun _ _ => hrun, fun _ hsome => absurd hzero hsome⟩
  · refine ⟨absurd hbpp, fun _ hzero => absurd hzero hsome, fun _ _ hfits => ⟨_, hrun, rfl, ?capbits, ?capbytes⟩⟩
    all_goals
      have hcap : (capRegister s.nsamp s.bpp).toNat = max 40 (s.nsamp.toNat * s.bpp.toNat) - 40 := by
        rw [capRegister_toNat hfits, capBits, hdrBits]
        omega
    case capbits => exact hcap
    case capbytes => exact (capBytesRegister_toNat _).trans (congrArg (· / 8) hcap)

/-- Settles O27: a capacity past the register comes from samples, so both tests pass, and the register wraps. -/
theorem capqWrapsPastTheRegister : Obligations.CapqWrapsPastTheRegister := by
  intro s hbpp hlarge
  simp only [exec_capq, Host.Outcome.next.injEq]
  rcases capq_cases s with ⟨hbad, -⟩ | ⟨-, hzero, -⟩ | ⟨-, -, hrun⟩
  · exact absurd hbpp hbad
  · simp [hzero] at hlarge
  · exact ⟨_, hrun, rfl, capRegister_toNat_mod s.nsamp s.bpp, capBytesRegister_toNat _⟩

end Sys2Proof.Machine

namespace Sys2Proof

/-! ### Decoding read backwards (30_encoding.md R86, R87) -/

/-- An opcode the map answers on is the answer's opcode (R87). -/
theorem eq_opcode_of_decodeOpc {opc : Byte} {i : Instr} (h : decodeOpc opc = some i) : opc = opcode i := by
  unfold decodeOpc at h
  split at h
  case h_11 => cases h
  all_goals
    cases h
    exact BitVec.eq_of_toNat_eq ‹_›

/-- A word that decodes has its reserved bits clear, and its low byte is the command's opcode (R86). -/
theorem fields_of_decode_eq_ok {w : CmdWord} {i : Instr} (h : decode w = .ok i) :
    fieldRsv w = 0 ∧ fieldOpc w = opcode i := by
  by_cases hrsv : fieldRsv w = 0
  · rw [decode_of_fieldRsv_eq_zero hrsv] at h
    cases hmap : decodeOpc (fieldOpc w) with
    | none => rw [hmap] at h; cases h
    | some j =>
      rw [hmap] at h
      cases h
      exact ⟨hrsv, eq_opcode_of_decodeOpc hmap⟩
  · rw [decode_of_fieldRsv_ne_zero hrsv] at h
    cases h

/-- The two fields make up the word (R85). -/
theorem cmdWord_ext {w w' : CmdWord} (hrsv : fieldRsv w = fieldRsv w') (hopc : fieldOpc w = fieldOpc w') : w = w' := by
  have hhigh := congrArg BitVec.toNat hrsv
  have hlow := congrArg BitVec.toNat hopc
  simp only [fieldRsv_toNat, fieldOpc_toNat] at hhigh hlow
  exact BitVec.eq_of_toNat_eq (by omega)

/-- Settles O2: both words have the reserved field 0 and the command's opcode. -/
theorem encodeAndDecodeAgree : Obligations.EncodeAndDecodeAgree := by
  refine ⟨fun i _ => decode_encode i, fun w i h => ?_⟩
  obtain ⟨hrsv, hopc⟩ := fields_of_decode_eq_ok h
  obtain ⟨hrsv', hopc'⟩ := fields_of_decode_eq_ok (decode_encode i)
  exact cmdWord_ext (hrsv'.trans hrsv.symm) (hopc'.trans hopc.symm)

end Sys2Proof

namespace Sys2Proof.Machine

/-! ### The register map (10_state.md R20) -/

theorem ofOffset_offset (r : Reg) : Reg.ofOffset r.offset = some r := by
  cases r <;> rfl

/-- Settles O5: the table row by row. -/
theorem registerMapIsTheTable : Obligations.RegisterMapIsTheTable := ⟨rfl, ofOffset_offset⟩

/-- The offsets of the map are the first twenty multiples of 8 (R20, R61). -/
theorem ofOffset_isSome_iff (off : Nat) : (Reg.ofOffset off).isSome = true ↔ ∃ n < 20, off = 8 * n := by
  constructor
  · intro h
    refine ⟨off / 8, ?_⟩
    unfold Reg.ofOffset at h
    split at h
    case h_21 => cases h
    all_goals decide
  · rintro ⟨n, hn, rfl⟩
    interval_cases n <;> rfl

/-! ### The step of one host action (20_memory.md R61, R62, R74) -/

theorem step_of_host_nil {s : State} (h : s.host = []) : step s = .next s := by
  rw [step, hostStep, h]

theorem step_of_host_cons {s : State} {a : HostAction} {rest : List HostAction} (h : s.host = a :: rest) :
    step s = performAction a { s with host := rest } := by
  rw [step, hostStep, h]

theorem performAction_regRead (s : State) (r : Reg) :
    performAction (.regRead r.offset) s = .next { s with dataOut := s.regRead r } := by
  rw [performAction, ofOffset_offset]

theorem performAction_regWrite {r : Reg} (h : r ≠ .cmd) (s : State) (v : Word64) :
    performAction (.regWrite r.offset v) s = .next (s.regWrite r v) := by
  rw [performAction, ofOffset_offset]
  cases r
  case cmd => exact absurd rfl h
  all_goals rfl

theorem performAction_bufRead {s : State} {sp : Space} {a : Nat} (h : a < depthOf s.params sp) :
    performAction (.bufRead sp a) s = .next { s with dataOut := s.hostRead sp a } :=
  if_pos h

theorem performAction_bufWrite {s : State} {sp : Space} {a : Nat} (h : a < depthOf s.params sp) (v : Word64) :
    performAction (.bufWrite sp a v) s = .next (s.hostWrite sp a v) :=
  if_pos h

/-- A legal word runs its command (R21, R86). -/
theorem runCommand_of_decode_ok {s : State} {i : Instr} (h : decode s.cmd = .ok i) : runCommand s = exec i s := by
  rw [runCommand, h]

/-- Settles O3: the stored word decodes, so the step is its command from the state of the `CMD` write. -/
theorem cmdWriteRunsTheDecodedCommand : Obligations.CmdWriteRunsTheDecodedCommand := by
  intro s v rest i hhost hword
  have hcmd : decode (State.startCommand { s with host := rest } v).cmd = .ok i := hword
  rw [step_cmdWrite hhost, runCommand_of_decode_ok hcmd]
  rfl

/-- Settles O10: no action is taken from the queue. -/
theorem engineIdlesWithoutHostAction : Obligations.EngineIdlesWithoutHostAction := fun _ => step_of_host_nil

/-! ### Register accesses (R20, R71) -/

/-- A register reads as written, its width's low bits of the value; a read-only one as before (R20). -/
theorem regRead_regWrite_same (s : State) (r : Reg) (v : Word64) : ((s.regWrite r v).regRead r).toNat =
    if r.readOnly then (s.regRead r).toNat else v.toNat % 2 ^ r.width := by
  have h := v.isLt
  cases r <;> simp [State.regWrite, State.regRead, Reg.readOnly, Reg.width] <;> omega

/-- Every other register reads as before (R71). -/
theorem regRead_regWrite_of_ne (s : State) {r r' : Reg} (v : Word64) (h : r' ≠ r) :
    (s.regWrite r v).regRead r' = s.regRead r' := by
  cases r <;> cases r' <;> simp [State.regWrite, State.regRead] at h ⊢

/-- A register write changes nothing but the fields of the writable registers (R20, R71). -/
theorem regWrite_frame (s : State) {r : Reg} (v : Word64) (h : r ≠ .cmd) :
    s.regWrite r v = { s with ctrl := (s.regWrite r v).ctrl, bpp := (s.regWrite r v).bpp,
                              nsamp := (s.regWrite r v).nsamp, paylen := (s.regWrite r v).paylen,
                              frmlen := (s.regWrite r v).frmlen, bitlen := (s.regWrite r v).bitlen,
                              bitpos := (s.regWrite r v).bitpos, cnt := (s.regWrite r v).cnt,
                              dlen := (s.regWrite r v).dlen, metadata := (s.regWrite r v).metadata } := by
  cases r
  case cmd => exact absurd rfl h
  all_goals rfl

/-- A register read depends neither on the host's queue nor on the last read. -/
theorem regRead_host_irrelevant (s : State) (q : List HostAction) (d : Word64) (r : Reg) :
    State.regRead { s with host := q, dataOut := d } r = s.regRead r := by
  cases r <;> rfl

/-- Settles O6: the action is a `RegWrite` that starts no command. -/
theorem hostRegisterWriteStoresItsLowBits : Obligations.HostRegisterWriteStoresItsLowBits := by
  intro s r v rest hr hhost
  refine ⟨_, (step_of_host_cons hhost).trans (performAction_regWrite hr _ v), ?_, fun r' hr' => ?_, ?_⟩
  · rw [regRead_regWrite_same, regRead_host_irrelevant s rest s.dataOut]
  · rw [regRead_regWrite_of_ne _ v hr', regRead_host_irrelevant s rest s.dataOut]
  · exact regWrite_frame _ v hr

/-- Zeros above: a value read into a slot stays below its register's range (R20). -/
theorem toNat_setWidth_lt {w : Nat} (x : BitVec w) (h : w ≤ 64) : (x.setWidth 64).toNat < 2 ^ w := by
  rw [BitVec.toNat_setWidth_of_le h]
  exact x.isLt

/-- The value of a register fits its width (R20). -/
theorem regRead_lt (s : State) (r : Reg) : (s.regRead r).toNat < 2 ^ r.width := by
  cases r
  case cmd | status | result | ctrl | config | bpp | dlen | metadata | hbpp => exact toNat_setWidth_lt _ (by decide)
  all_goals exact BitVec.isLt _

/-- `STATUS` as a number: its flags at their bits (R22). -/
theorem Status.toWord_toNat (st : Status) :
    st.toWord.toNat = st.done.toNat + 2 * st.err.toNat + 4 * st.busy.toNat := by
  obtain ⟨done, err, busy⟩ := st
  cases done <;> cases err <;> cases busy <;> rfl

/-! ### Buffer accesses (20_memory.md R62) -/

/-- One entry of a buffer after a write of one entry. -/
theorem getD_lookup_memWrite_one {α : Type} (m : List (Nat × α)) (a : Nat) (x : α) (k : Nat) (d : α) :
    (lookup (memWrite m a [x]) k).getD d = if k = a then x else (lookup m k).getD d := by
  rw [getD_lookup_memWrite]
  by_cases h : k = a
  · simp [h]
  · rw [if_neg h, dif_neg (by simp only [List.length_singleton]; omega)]

/-- The written entry reads as the value's low bits (R62). -/
theorem hostRead_hostWrite_same (s : State) (sp : Space) (a : Nat) (v : Word64) :
    ((s.hostWrite sp a v).hostRead sp a).toNat = if sp = .bits then v.toNat % 2 else v.toNat % 256 := by
  cases sp
  case bits =>
    have hbit : (BitVec.ofBool (v.getLsbD 0)).toNat = v.toNat % 2 := by
      rw [BitVec.toNat_ofBool, BitVec.getLsbD, Nat.toNat_testBit, Nat.pow_zero, Nat.div_one]
    simp only [State.hostWrite, State.hostRead, State.readBit, getD_lookup_memWrite_one, if_true]
    rw [BitVec.toNat_setWidth_of_le (by decide), hbit]
  all_goals
    simp only [State.hostWrite, State.hostRead, State.readPix, State.readPay, State.readFrm, getD_lookup_memWrite_one,
      if_true]
    rw [BitVec.toNat_setWidth_of_le (by decide), BitVec.toNat_setWidth]
    rfl

/-- Every other entry of every buffer reads as before (R62). -/
theorem hostRead_hostWrite_of_ne (s : State) {sp sp' : Space} {a a' : Nat} (v : Word64) (h : ¬ (sp' = sp ∧ a' = a)) :
    (s.hostWrite sp a v).hostRead sp' a' = s.hostRead sp' a' := by
  by_cases hsp : sp' = sp
  · subst hsp
    have ha : a' ≠ a := fun ha => h ⟨rfl, ha⟩
    cases sp' <;> simp [State.hostWrite, State.hostRead, State.readPix, State.readPay, State.readFrm, State.readBit,
      getD_lookup_memWrite_one, ha]
  · cases sp <;> cases sp' <;> simp [State.hostWrite, State.hostRead, State.readPix, State.readPay, State.readFrm,
      State.readBit] at hsp ⊢

/-- A buffer write changes no register (R62). -/
theorem hostWrite_frame (s : State) (sp : Space) (a : Nat) (v : Word64) :
    s.hostWrite sp a v = { s with pix := (s.hostWrite sp a v).pix, pay := (s.hostWrite sp a v).pay,
                                  frm := (s.hostWrite sp a v).frm, bits := (s.hostWrite sp a v).bits } := by
  cases sp <;> rfl

end Sys2Proof.Machine

namespace Sys2Proof.Machine

/-- A buffer read does not depend on the host's queue. -/
theorem hostRead_host_irrelevant (s : State) (q : List HostAction) (sp : Space) (a : Nat) :
    State.hostRead { s with host := q } sp a = s.hostRead sp a := by
  cases sp <;> rfl

/-- Settles O7: reads are steps of their own that touch only the port; a slot holds a register's value unchanged. -/
theorem hostReadsReturnTheValueAndChangeNothing : Obligations.HostReadsReturnTheValueAndChangeNothing := by
  refine ⟨fun s r rest hhost => ⟨regRead_lt s r, ?regRead⟩, fun s sp a rest hhost ha => ?bufRead, fun s a => ?entries,
    fun s r => ?registers⟩
  case regRead =>
    rw [step_of_host_cons hhost, performAction_regRead, regRead_host_irrelevant s rest s.dataOut]
  case bufRead =>
    rw [step_of_host_cons hhost, performAction_bufRead (s := { s with host := rest }) ha, hostRead_host_irrelevant]
  case entries =>
    have slot {w : Nat} (x : BitVec w) (h : w ≤ 64) : (x.setWidth 64).toNat = x.toNat := BitVec.toNat_setWidth_of_le h
    exact ⟨slot _ (by decide), slot _ (by decide), slot _ (by decide),
      (slot _ (by decide)).trans (BitVec.toNat_ofBool _)⟩
  case registers =>
    cases r
    case status => exact (BitVec.toNat_setWidth_of_le (by decide)).trans s.status.toWord_toNat
    case config => exact (BitVec.toNat_setWidth_of_le (by decide)).trans (BitVec.toNat_ofBool _)
    case cmd | result | ctrl | bpp | dlen | metadata | hbpp => exact BitVec.toNat_setWidth_of_le (by decide)
    all_goals rfl

/-- Settles O8: the depth alone decides whether the write is admitted. -/
theorem hostBufferWriteStoresOneEntry : Obligations.HostBufferWriteStoresOneEntry := by
  intro s sp a v rest hhost
  rw [step_of_host_cons hhost]
  refine ⟨fun ha => ⟨_, performAction_bufWrite (s := { s with host := rest }) ha v, hostRead_hostWrite_same _ sp a v,
    fun sp' a' hne => ?_, hostWrite_frame _ sp a v⟩, fun ha => if_neg (Nat.not_lt.mpr ha)⟩
  rw [hostRead_hostWrite_of_ne _ v hne, hostRead_host_irrelevant]

/-! ### What a command means, for all ten at once -/

/-- The state a command leaves: the function behind its meaning, with the block's codec (R18). -/
def meaning : Instr → State → State
  | .b2bits => b2bits
  | .bits2b => bits2b
  | .capq => capq
  | .fbuild => fbuild Config.codec
  | .fparse => fparse
  | .fbody => fbody Config.codec
  | .lsbw => lsbw
  | .lsbr => lsbr
  | .embed => embed Config.codec
  | .extract => extract Config.codec

/-- Every command is total: it answers a next state (R18, R200). -/
theorem exec_eq (i : Instr) (s : State) : exec i s = .next (meaning i s) := by
  cases i <;> rfl

theorem exec_eq_next_iff {i : Instr} {s t : State} : exec i s = .next t ↔ meaning i s = t := by
  rw [exec_eq, Host.Outcome.next.injEq]

/-- A `CMD` write ends its command, or `IllegalCommand` has ended it (R21, R86). -/
theorem runCommand_cases (s : State) :
    (∃ i, runCommand s = .next (meaning i s)) ∨ runCommand s = .next (s.raise .illegalCommand) := by
  cases hword : decode s.cmd with
  | ok i => exact .inl ⟨i, (runCommand_of_decode_ok hword).trans (exec_eq i s)⟩
  | error e => exact .inr (runCommand_of_decode_error hword)

/-! ### What the step can do (R61, R62, R230; U3) -/

/-- An action off the map or past a depth is refused by name. -/
theorem performAction_regRead_none {off : Nat} (h : Reg.ofOffset off = none) (s : State) :
    performAction (.regRead off) s = .refused (.noSuchRegister off) := by
  rw [performAction, h]

theorem performAction_regWrite_none {off : Nat} (h : Reg.ofOffset off = none) (s : State) (v : Word64) :
    performAction (.regWrite off v) s = .refused (.noSuchRegister off) := by
  rw [performAction, h]

/-- An offset the map answers on is the answer's (R20). -/
theorem eq_offset_of_ofOffset {off : Nat} {r : Reg} (h : Reg.ofOffset off = some r) : off = r.offset := by
  obtain ⟨n, hn, rfl⟩ := (ofOffset_isSome_iff off).mp (by rw [h]; rfl)
  interval_cases n <;> cases h <;> rfl

/-- One host action: what it can do when the spec gives it a meaning. -/
theorem performAction_cases_of_wf {a : HostAction} {s : State} (h : a.wf s.params = true) :
    (∃ d, performAction a s = .next { s with dataOut := d }) ∨
    (∃ v i, performAction a s = .next (meaning i (s.startCommand v))) ∨
    (∃ v, performAction a s = .next ((s.startCommand v).raise .illegalCommand)) ∨
    (∃ r v, r ≠ .cmd ∧ performAction a s = .next (s.regWrite r v)) ∨
    (∃ sp i v, i < depthOf s.params sp ∧ performAction a s = .next (s.hostWrite sp i v)) ∨
    (a = .reset ∧ performAction a s = .next s.assertReset) := by
  cases a with
  | regRead off =>
    obtain ⟨r, hr⟩ := Option.isSome_iff_exists.mp h
    cases eq_offset_of_ofOffset hr
    exact .inl ⟨_, performAction_regRead s r⟩
  | regWrite off v =>
    obtain ⟨r, hr⟩ := Option.isSome_iff_exists.mp h
    cases eq_offset_of_ofOffset hr
    by_cases hcmd : r = .cmd
    · subst hcmd
      rcases runCommand_cases (s.startCommand v) with ⟨i, hrun⟩ | hrun
      · exact .inr (.inl ⟨v, i, hrun⟩)
      · exact .inr (.inr (.inl ⟨v, hrun⟩))
    · exact .inr (.inr (.inr (.inl ⟨r, v, hcmd, performAction_regWrite hcmd s v⟩)))
  | bufRead sp i => exact .inl ⟨_, performAction_bufRead (of_decide_eq_true h)⟩
  | bufWrite sp i v =>
    exact .inr (.inr (.inr (.inr (.inl ⟨sp, i, v, of_decide_eq_true h, performAction_bufWrite (of_decide_eq_true h) v⟩))))
  | reset => exact .inr (.inr (.inr (.inr (.inr ⟨rfl, rfl⟩))))

/-- An action the spec gives no meaning is refused under its register offset or its buffer and index (U3). -/
theorem performAction_of_not_wf {a : HostAction} {s : State} (h : ¬ a.wf s.params = true) :
    (∃ off, performAction a s = .refused (.noSuchRegister off)) ∨
    (∃ sp i, performAction a s = .refused (.noSuchEntry sp i)) := by
  cases a with
  | regRead off => exact .inl ⟨off, performAction_regRead_none (Option.not_isSome_iff_eq_none.mp h) s⟩
  | regWrite off v => exact .inl ⟨off, performAction_regWrite_none (Option.not_isSome_iff_eq_none.mp h) s v⟩
  | bufRead sp i => exact .inr ⟨sp, i, if_neg (fun hi => h (decide_eq_true hi))⟩
  | bufWrite sp i v => exact .inr ⟨sp, i, if_neg (fun hi => h (decide_eq_true hi))⟩
  | reset => exact absurd rfl h

/-- One host action is performed exactly when the spec gives it a meaning (U3). -/
theorem performAction_next_iff (a : HostAction) (s : State) :
    (∃ t, performAction a s = .next t) ↔ a.wf s.params = true := by
  constructor
  · rintro ⟨t, ht⟩
    by_contra h
    rcases performAction_of_not_wf h with ⟨off, href⟩ | ⟨sp, i, href⟩ <;> cases ht.symm.trans href
  · intro h
    rcases performAction_cases_of_wf h with ⟨_, hnext⟩ | ⟨_, _, hnext⟩ | ⟨_, hnext⟩ | ⟨_, _, _, hnext⟩ |
      ⟨_, _, _, _, hnext⟩ | ⟨_, hnext⟩
    all_goals exact ⟨_, hnext⟩

/-- The step answers a next state exactly when no action waits or the next one has a meaning (U3). -/
theorem step_next_iff (s : State) :
    (∃ t, step s = .next t) ↔ s.host = [] ∨ ∃ a rest, s.host = a :: rest ∧ a.wf s.params = true := by
  cases hhost : s.host with
  | nil => exact ⟨fun _ => .inl rfl, fun _ => ⟨s, step_of_host_nil hhost⟩⟩
  | cons a rest =>
    rw [step_of_host_cons hhost, performAction_next_iff]
    constructor
    · exact fun h => .inr ⟨a, rest, rfl, h⟩
    · rintro (hnil | ⟨a', rest', hcons, hwf⟩)
      · cases hnil
      · cases hcons
        exact hwf

/-- The actions with a meaning, spelt out (R61, R62, R230). -/
theorem hostAction_wf_iff (p : Params) (a : HostAction) : a.wf p = true ↔
    (∃ off v, (a = .regRead off ∨ a = .regWrite off v) ∧ ∃ n < 20, off = 8 * n) ∨
    (∃ sp i v, (a = .bufRead sp i ∨ a = .bufWrite sp i v) ∧ i < depthOf p sp) ∨ a = .reset := by
  cases a with
  | regRead off => simp [HostAction.wf, ofOffset_isSome_iff, and_comm]
  | regWrite off v => simp [HostAction.wf, ofOffset_isSome_iff, and_comm]
  | bufRead sp i => simp [HostAction.wf]
  | bufWrite sp i v => simp [HostAction.wf]
  | reset => simp [HostAction.wf]

theorem ofOffset_eq_none {off : Nat} (h : ∀ n, n < 20 → off ≠ 8 * n) : Reg.ofOffset off = none := by
  rw [← Option.not_isSome_iff_eq_none, ofOffset_isSome_iff]
  rintro ⟨n, hn, hoff⟩
  exact h n hn hoff

/-- Settles O9: the actions with a meaning are performed, every other one is refused under its own name. -/
theorem stepRefusesExactlyTheMeaninglessActions : Obligations.StepRefusesExactlyTheMeaninglessActions := by
  refine ⟨fun s => ?performed, fun s hstop => ?refused, fun s off v rest hhost hoff => ?register,
    fun s sp a v rest hhost ha => ?entry⟩
  case performed =>
    rw [step_next_iff]
    constructor
    · rintro (hnil | ⟨a, rest, hcons, hwf⟩)
      · exact .inl hnil
      · rcases (hostAction_wf_iff s.params a).mp hwf with
          ⟨off, v, rfl | rfl, hoff⟩ | ⟨sp, i, v, rfl | rfl, hi⟩ | rfl
        · exact .inr (.inl ⟨off, v, rest, .inl hcons, hoff⟩)
        · exact .inr (.inl ⟨off, v, rest, .inr hcons, hoff⟩)
        · exact .inr (.inr (.inl ⟨sp, i, v, rest, .inl hcons, hi⟩))
        · exact .inr (.inr (.inl ⟨sp, i, v, rest, .inr hcons, hi⟩))
        · exact .inr (.inr (.inr ⟨rest, hcons⟩))
    · have wf {a : HostAction} := (hostAction_wf_iff s.params a).mpr
      rintro (hnil | ⟨off, v, rest, hhost | hhost, hoff⟩ | ⟨sp, i, v, rest, hhost | hhost, hi⟩ | ⟨rest, hhost⟩)
      · exact .inl hnil
      · exact .inr ⟨_, rest, hhost, wf (.inl ⟨off, v, .inl rfl, hoff⟩)⟩
      · exact .inr ⟨_, rest, hhost, wf (.inl ⟨off, v, .inr rfl, hoff⟩)⟩
      · exact .inr ⟨_, rest, hhost, wf (.inr (.inl ⟨sp, i, v, .inl rfl, hi⟩))⟩
      · exact .inr ⟨_, rest, hhost, wf (.inr (.inl ⟨sp, i, v, .inr rfl, hi⟩))⟩
      · exact .inr ⟨_, rest, hhost, wf (.inr (.inr rfl))⟩
  case refused =>
    cases hhost : s.host with
    | nil => exact absurd (step_of_host_nil hhost) (hstop s)
    | cons a rest =>
      rw [step_of_host_cons hhost] at hstop ⊢
      refine performAction_of_not_wf (fun hwf => ?_)
      obtain ⟨t, ht⟩ := (performAction_next_iff a _).mpr hwf
      exact hstop t ht
  case register =>
    rcases hhost with hhost | hhost <;> rw [step_of_host_cons hhost]
    · exact performAction_regRead_none (ofOffset_eq_none hoff) _
    · exact performAction_regWrite_none (ofOffset_eq_none hoff) _ v
  case entry =>
    rcases hhost with hhost | hhost <;> rw [step_of_host_cons hhost] <;> exact if_neg (Nat.not_lt.mpr ha)

/-! ### Reset (10_state.md R52; 70_reset_and_hazards.md R230, R231) -/

/-- What the registers read right after reset (R52). -/
theorem regRead_resetWith (p : Params) (r : Reg) : ((State.resetWith p).regRead r).toNat =
    if r = .hdrbits then 40 else if r = .config then p.deflatePresent.toNat else 0 := by
  cases r
  case config => exact (BitVec.toNat_setWidth_of_le (by decide)).trans (BitVec.toNat_ofBool _)
  all_goals rfl

/-- Settles O11: no entry has been written yet. -/
theorem resetLeavesTheTableValues : Obligations.ResetLeavesTheTableValues :=
  ⟨regRead_resetWith, fun _ _ => ⟨rfl, rfl, rfl, rfl⟩, rfl⟩

/-- The reset input leaves the registers of a fresh reset (R231). -/
theorem regRead_assertReset (s : State) (r : Reg) : s.assertReset.regRead r = (State.resetWith s.params).regRead r := by
  cases r <;> rfl

/-- Settles O12: the reset input empties the buffers and starts a new epoch. -/
theorem resetActionGivesTheResetState : Obligations.ResetActionGivesTheResetState := by
  intro s rest hhost
  refine ⟨_, step_of_host_cons hhost, fun r => ?_, fun a => ⟨rfl, rfl, rfl, rfl⟩, rfl, rfl, rfl⟩
  rw [regRead_assertReset]
  exact regRead_resetWith s.params r

/-- The invariant holds right after reset: no command has completed and no entry has been written (R52). -/
theorem inv_resetWith {p : Params} (hp : p.wf = true) : (State.resetWith p).Inv where
  paramsWf := hp
  memoryWf := memory_wf_resetWith p
  notBusy := rfl
  errIffResult := by simp [State.resetWith]
  resultIsCode := by simp [State.resetWith]
  errOnlyWhenDone := fun h => absurd rfl h
  capbytesOfCapbits := by simp [State.resetWith]

/-- Settles O51: the model's own parameters are R7's upper bounds. -/
theorem resetSatisfiesTheMachineInvariant : Obligations.ResetSatisfiesTheMachineInvariant :=
  ⟨fun _ => inv_resetWith, inv_resetWith ((paramsWf_iff Config.params).mpr (by simp [Config.params]))⟩

end Sys2Proof.Machine

namespace Sys2Proof.Machine

/-! ### What a command writes, named

The composites perform the primitives' writes one after another (R180, R181), so each write is named once here. -/

/-- What the block's compression stage makes of the secret: the body and the flag (R170). -/
def State.staged (s : State) : Bytes × Bool := compressStage Config.codec s.params.deflatePresent s.secret s.cdis

/-- The frame of the staged secret in `FRM`, with its registers (R130; step 2 of R180). -/
def State.framed (s : State) : State :=
  { s.putFrm (packHeader (BitVec.ofNat 32 s.staged.1.length) s.staged.2 s.bpp ++ s.staged.1) with
      dlen := BitVec.ofNat 32 s.staged.1.length, metadata := metadataByte s.staged.2 s.bpp }

/-- The stream of `FRM[0..FRMLEN)` in `BITS` (R113; step 3 of R180). -/
def State.streamed (s : State) : State := s.putBits (bytesToBits (s.frmBytes s.frmlen.toNat))

/-- The usable capacity in `CAPBITS` and `CAPBYTES` (R121; step 4 of R180). -/
def State.capReported (s : State) : State :=
  { s with capbits := capRegister s.nsamp s.bpp, capbytes := BitVec.ofNat 64 ((capRegister s.nsamp s.bpp).toNat / 8) }

/-- What `EMBED` has written when it compares the stream with the image (steps 2 to 4 of R180). -/
def State.prepared (s : State) : State := s.framed.streamed.capReported

/-- The report of a frame larger than the image (R39, R40). -/
def State.shortReported (s : State) : State := { s with avail := s.capbytes, req := s.dlen.setWidth 64 }

/-- `BITS[0..n)` in the slots from position `p` on (R152; step 5 of R180). -/
def State.imaged (p n : Nat) (s : State) : State :=
  { writeBits s.bpp.toNat p (s.stream n) s with bitpos := BitVec.ofNat 64 (p + n) }

/-- The `n` bits at the positions from `p` on in `BITS` (R153; steps 1 and 3 of R181). -/
def State.latched (p n : Nat) (s : State) : State := latchBits (readBits s.bpp.toNat p n s) p s

/-- The header found at the image's first forty positions (R181). -/
def State.header (s : State) : Header := parseHeader (readBits s.bpp.toNat 0 40 s)

/-- A header's fields in `DLEN`, `META` and `HBPP` (R131; step 2 of R181). -/
def State.withHeader (h : Header) (s : State) : State :=
  { s with dlen := h.len, metadata := h.metadata, hbpp := h.hbpp }

/-- `EXTRACT` after its step 2: the image's header read and parsed (R181). -/
def State.headerParsed (s : State) : State := (s.latched 0 40).withHeader s.header

/-- `EXTRACT` after its step 3: the body's bits read (R181). -/
def State.bodyRead (s : State) : State := s.headerParsed.latched 40 (8 * s.header.len.toNat)

/-- The bytes of the body in the image, packed from its bits (R181). -/
def State.imageBody (s : State) : Bytes :=
  bitsToBytes (readBits s.bpp.toNat 40 (8 * s.header.len.toNat) s.headerParsed)

/-- `EXTRACT` after its step 4: the body's bytes in `FRM` (R181). -/
def State.bodyPacked (s : State) : State := s.bodyRead.putFrm s.imageBody

/-- What `FBODY` makes of the first `n` bytes of `FRM` (R132, R174). -/
def State.payload (n : Nat) (s : State) : Option Bytes :=
  decompressStage Config.codec s.params.deflatePresent (s.frmBytes n) s.metaC

/-! ### How a command ends -/

/-- The entry tests the commands on samples share: `BPP` and `NSAMP` are legal (R201, R210). -/
def ImageLegal (s : State) : Prop := s.BppIs123 ∧ s.nsamp.toNat ≤ s.params.pixDepth

/-- The depth tests of `FBUILD` (R130). -/
def FrameFits (s : State) : Prop := s.paylen.toNat ≤ s.params.payDepth ∧ 5 + s.staged.1.length ≤ s.params.frmDepth

/-- The tests of `EXTRACT` before it reads the body (R181). -/
structure BodyReadable (s : State) : Prop where
  legal : ImageLegal s
  samples : 40 ≤ s.nsamp.toNat
  len : s.header.len.toNat ≤ 10000000
  inImage : 40 + 8 * s.header.len.toNat ≤ s.slots
  inBits : 8 * s.header.len.toNat ≤ s.params.bitDepth

/-- The errors a command raises before it has written anything, with the tests that lead to them. -/
def FailsAtOnce (s : State) (k : ErrorKind) : Instr → Prop
  | .b2bits => k = .resourceExceeded ∧ (s.frmlen.toNat > s.params.frmDepth ∨ 8 * s.frmlen.toNat > s.params.bitDepth)
  | .bits2b => k = .resourceExceeded ∧ (s.bitlen.toNat > s.params.bitDepth ∨ ceil8 s.bitlen.toNat > s.params.frmDepth)
  | .capq => k = .invalidParameter ∧ ¬ s.BppIs123 ∨ k = .imageDecodeError ∧ s.BppIs123 ∧ s.nsamp = 0
  | .fbuild => k = .resourceExceeded ∧ ¬ FrameFits s
  | .fparse => k = .resourceExceeded ∧ s.bitlen.toNat > s.params.bitDepth ∨
      s.bitlen.toNat ≤ s.params.bitDepth ∧ (k = .corruptHeader ∧ s.bitlen.toNat < 40 ∨
        k = .invalidDataLength ∧ 40 ≤ s.bitlen.toNat ∧ (parseHeader (s.stream 40)).len.toNat > 10000000)
  | .fbody => k = .resourceExceeded ∧ s.frmlen.toNat > s.params.frmDepth ∨
      s.frmlen.toNat ≤ s.params.frmDepth ∧
        (k = .decompressionError ∧ s.payload (min s.frmlen.toNat s.dlen.toNat) = none ∨
          k = .resourceExceeded ∧
            ∃ out, s.payload (min s.frmlen.toNat s.dlen.toNat) = some out ∧ out.length > s.params.payDepth)
  | .lsbw => k = .invalidParameter ∧ ¬ s.BppIs123 ∨
      s.BppIs123 ∧ (k = .resourceExceeded ∧ (s.nsamp.toNat > s.params.pixDepth ∨ s.bitlen.toNat > s.params.bitDepth) ∨
        k = .capacityExceeded ∧ s.nsamp.toNat ≤ s.params.pixDepth ∧ s.bitlen.toNat ≤ s.params.bitDepth ∧
          s.bitpos.toNat + s.bitlen.toNat > s.slots)
  | .lsbr => k = .invalidParameter ∧ ¬ s.BppIs123 ∨
      s.BppIs123 ∧ (k = .resourceExceeded ∧ (s.nsamp.toNat > s.params.pixDepth ∨ s.cnt.toNat > s.params.bitDepth) ∨
        k = .insufficientData ∧ s.nsamp.toNat ≤ s.params.pixDepth ∧ s.cnt.toNat ≤ s.params.bitDepth ∧
          s.bitpos.toNat + s.cnt.toNat > s.slots)
  | .embed => k = .invalidParameter ∧ ¬ s.BppIs123 ∨
      k = .resourceExceeded ∧ s.BppIs123 ∧ (s.nsamp.toNat > s.params.pixDepth ∨ ¬ FrameFits s)
  | .extract => k = .invalidParameter ∧ ¬ s.BppIs123 ∨
      s.BppIs123 ∧ (k = .resourceExceeded ∧ s.nsamp.toNat > s.params.pixDepth ∨
        k = .insufficientData ∧ s.nsamp.toNat ≤ s.params.pixDepth ∧ s.nsamp.toNat < 40)

/-- `Ends s i t`: from `s` the command `i` ends in `t`. One constructor per place where the pseudocode ends, with the
tests that lead there; a composite's error after its first write keeps what it has written (R214). -/
inductive Ends (s : State) : Instr → State → Prop
  | failsAtOnce {i : Instr} {k : ErrorKind} (h : FailsAtOnce s k i) : Ends s i (s.raise k)
  | b2bits (hfrm : s.frmlen.toNat ≤ s.params.frmDepth) (hbits : 8 * s.frmlen.toNat ≤ s.params.bitDepth) :
      Ends s .b2bits s.streamed.succeed
  | bits2b (hbits : s.bitlen.toNat ≤ s.params.bitDepth) (hfrm : ceil8 s.bitlen.toNat ≤ s.params.frmDepth) :
      Ends s .bits2b (s.putFrm (bitsToBytes (s.stream s.bitlen.toNat))).succeed
  | capq (hbpp : s.BppIs123) (hsamples : s.nsamp ≠ 0) : Ends s .capq s.capReported.succeed
  | fbuild (hfits : FrameFits s) : Ends s .fbuild s.framed.succeed
  | fparse (hbits : s.bitlen.toNat ≤ s.params.bitDepth) (hheader : 40 ≤ s.bitlen.toNat)
      (hlen : (parseHeader (s.stream 40)).len.toNat ≤ 10000000) :
      Ends s .fparse (s.withHeader (parseHeader (s.stream 40))).succeed
  | fbody {out : Bytes} (hfrm : s.frmlen.toNat ≤ s.params.frmDepth)
      (hout : s.payload (min s.frmlen.toNat s.dlen.toNat) = some out) (hpay : out.length ≤ s.params.payDepth) :
      Ends s .fbody (s.putPay out).succeed
  | lsbw (hlegal : ImageLegal s) (hbits : s.bitlen.toNat ≤ s.params.bitDepth)
      (hroom : s.bitpos.toNat + s.bitlen.toNat ≤ s.slots) :
      Ends s .lsbw (s.imaged s.bitpos.toNat s.bitlen.toNat).succeed
  | lsbr (hlegal : ImageLegal s) (hbits : s.cnt.toNat ≤ s.params.bitDepth)
      (hroom : s.bitpos.toNat + s.cnt.toNat ≤ s.slots) : Ends s .lsbr (s.latched s.bitpos.toNat s.cnt.toNat).succeed
  | embedTooDeep (hlegal : ImageLegal s) (hfits : FrameFits s) (hdeep : 8 * s.framed.frmlen.toNat > s.params.bitDepth) :
      Ends s .embed (s.framed.raise .resourceExceeded)
  | embedNoSamples (hlegal : ImageLegal s) (hfits : FrameFits s)
      (hbits : 8 * s.framed.frmlen.toNat ≤ s.params.bitDepth) (hzero : s.nsamp = 0) :
      Ends s .embed (s.framed.streamed.raise .imageDecodeError)
  | embedNoRoom (hlegal : ImageLegal s) (hfits : FrameFits s) (hbits : 8 * s.framed.frmlen.toNat ≤ s.params.bitDepth)
      (hsamples : s.nsamp ≠ 0) (hover : s.prepared.bitlen.toNat > s.slots) :
      Ends s .embed (s.prepared.shortReported.raise .capacityExceeded)
  | embed (hlegal : ImageLegal s) (hfits : FrameFits s) (hbits : 8 * s.framed.frmlen.toNat ≤ s.params.bitDepth)
      (hsamples : s.nsamp ≠ 0) (hroom : s.prepared.bitlen.toNat ≤ s.slots) :
      Ends s .embed (s.prepared.imaged 0 s.prepared.bitlen.toNat).succeed
  | extractBadLength (hlegal : ImageLegal s) (hsamples : 40 ≤ s.nsamp.toNat) (hbad : s.header.len.toNat > 10000000) :
      Ends s .extract ((s.latched 0 40).raise .invalidDataLength)
  | extractNoBody {k : ErrorKind} (hlegal : ImageLegal s) (hsamples : 40 ≤ s.nsamp.toNat)
      (hlen : s.header.len.toNat ≤ 10000000)
      (hwhy : k = .insufficientData ∧ 40 + 8 * s.header.len.toNat > s.slots ∨
        k = .resourceExceeded ∧ 40 + 8 * s.header.len.toNat ≤ s.slots ∧ 8 * s.header.len.toNat > s.params.bitDepth) :
      Ends s .extract (s.headerParsed.raise k)
  | extractTooDeep (hread : BodyReadable s) (hdeep : s.header.len.toNat > s.params.frmDepth) :
      Ends s .extract (s.bodyRead.raise .resourceExceeded)
  | extractNoPayload {k : ErrorKind} (hread : BodyReadable s) (hfrm : s.header.len.toNat ≤ s.params.frmDepth)
      (hwhy : k = .decompressionError ∧ s.bodyPacked.payload s.header.len.toNat = none ∨
        k = .resourceExceeded ∧
          ∃ out, s.bodyPacked.payload s.header.len.toNat = some out ∧ out.length > s.params.payDepth) :
      Ends s .extract (s.bodyPacked.raise k)
  | extract {out : Bytes} (hread : BodyReadable s) (hfrm : s.header.len.toNat ≤ s.params.frmDepth)
      (hout : s.bodyPacked.payload s.header.len.toNat = some out) (hpay : out.length ≤ s.params.payDepth) :
      Ends s .extract (s.bodyPacked.putPay out).succeed

/-! ### The operands the named states keep -/

section
variable (s : State)
@[simp] theorem framed_params : s.framed.params = s.params := by simp [State.framed]
@[simp] theorem framed_bpp : s.framed.bpp = s.bpp := by simp [State.framed]
@[simp] theorem framed_nsamp : s.framed.nsamp = s.nsamp := by simp [State.framed]
@[simp] theorem framed_pix : s.framed.pix = s.pix := by simp [State.framed]
@[simp] theorem framed_epoch : s.framed.epoch = s.epoch := by simp [State.framed]
@[simp] theorem streamed_params : s.streamed.params = s.params := rfl
@[simp] theorem streamed_bpp : s.streamed.bpp = s.bpp := rfl
@[simp] theorem streamed_nsamp : s.streamed.nsamp = s.nsamp := rfl
@[simp] theorem streamed_pix : s.streamed.pix = s.pix := rfl
@[simp] theorem streamed_epoch : s.streamed.epoch = s.epoch := rfl
@[simp] theorem prepared_params : s.prepared.params = s.params := by simp [State.prepared, State.capReported]
@[simp] theorem prepared_bpp : s.prepared.bpp = s.bpp := by simp [State.prepared, State.capReported]
@[simp] theorem prepared_nsamp : s.prepared.nsamp = s.nsamp := by simp [State.prepared, State.capReported]
@[simp] theorem prepared_pix : s.prepared.pix = s.pix := by simp [State.prepared, State.capReported]
@[simp] theorem prepared_epoch : s.prepared.epoch = s.epoch := by simp [State.prepared, State.capReported]
@[simp] theorem prepared_slots : s.prepared.slots = s.slots := by simp [State.slots]
@[simp] theorem headerParsed_params : s.headerParsed.params = s.params := by
  simp [State.headerParsed, State.withHeader, State.latched]
@[simp] theorem headerParsed_bpp : s.headerParsed.bpp = s.bpp := by
  simp [State.headerParsed, State.withHeader, State.latched]
@[simp] theorem headerParsed_nsamp : s.headerParsed.nsamp = s.nsamp := by
  simp [State.headerParsed, State.withHeader, State.latched]
@[simp] theorem headerParsed_slots : s.headerParsed.slots = s.slots := by simp [State.slots]
@[simp] theorem headerParsed_dlen : s.headerParsed.dlen = s.header.len := by
  simp [State.headerParsed, State.withHeader]
end

theorem ImageLegal.prepared {s : State} (h : ImageLegal s) : ImageLegal s.prepared := by
  simpa [ImageLegal, State.BppIs123] using h

/-! ### The shared operations on the named states -/

theorem buildFrame_of_fits {s : State} (h : FrameFits s) : buildFrame Config.codec s = .goOn s.framed := by
  rcases buildFrame_cases Config.codec s with ⟨herr, -⟩ | ⟨-, -, hflow⟩
  · obtain ⟨hpay, hfrm⟩ := h
    rw [State.staged] at hfrm
    omega
  · exact hflow _ _ rfl

theorem buildFrame_of_not_fits {s : State} (h : ¬ FrameFits s) :
    buildFrame Config.codec s = .ended (s.raise .resourceExceeded) := by
  rcases buildFrame_cases Config.codec s with ⟨-, hflow⟩ | ⟨hpay, hfrm, -⟩
  · exact hflow
  · exact absurd ⟨hpay, hfrm⟩ h

theorem frameToBits_of_le {s : State} (h : 8 * s.frmlen.toNat ≤ s.params.bitDepth) :
    frameToBits s = .goOn s.streamed := if_neg (Nat.not_lt.mpr h)

theorem frameToBits_of_gt {s : State} (h : 8 * s.frmlen.toNat > s.params.bitDepth) :
    frameToBits s = .ended (s.raise .resourceExceeded) := if_pos h

theorem reportCapacity_of_zero {s : State} (h : s.nsamp = 0) :
    reportCapacity s = .ended (s.raise .imageDecodeError) := if_pos h

theorem reportCapacity_of_ne {s : State} (h : s.nsamp ≠ 0) : reportCapacity s = .goOn s.capReported := if_neg h

theorem checkFits_of_gt {s : State} (h : s.bitlen.toNat > s.slots) :
    checkFits s = .ended (s.shortReported.raise .capacityExceeded) := if_pos h

theorem checkFits_of_le {s : State} (h : s.bitlen.toNat ≤ s.slots) : checkFits s = .goOn s := if_neg (Nat.not_lt.mpr h)

theorem readBody_of_gt {s : State} (h : 40 + 8 * s.dlen.toNat > s.slots) :
    readBody s = .ended (s.raise .insufficientData) := if_pos h

theorem readBody_of_bitDepth {s : State} (h : 40 + 8 * s.dlen.toNat ≤ s.slots)
    (hdeep : 8 * s.dlen.toNat > s.params.bitDepth) : readBody s = .ended (s.raise .resourceExceeded) :=
  (if_neg (Nat.not_lt.mpr h)).trans (if_pos hdeep)

theorem readBody_of_frmDepth {s : State} (h : 40 + 8 * s.dlen.toNat ≤ s.slots)
    (hbits : 8 * s.dlen.toNat ≤ s.params.bitDepth) (hdeep : s.dlen.toNat > s.params.frmDepth) :
    readBody s = .ended ((s.latched 40 (8 * s.dlen.toNat)).raise .resourceExceeded) :=
  ((if_neg (Nat.not_lt.mpr h)).trans (if_neg (Nat.not_lt.mpr hbits))).trans (if_pos hdeep)

/-- `EMBED` past its entry tests and its frame (R180). -/
theorem embed_of_fits {s : State} (hlegal : ImageLegal s) (hfits : FrameFits s) : embed Config.codec s =
    ((((frameToBits s.framed).andThen reportCapacity).andThen checkFits).andThen writeFrame).finish := by
  obtain ⟨hbpp, hn⟩ := hlegal
  rcases embed_cases Config.codec s with ⟨hbad, -⟩ | ⟨-, hdeep, -⟩ | ⟨-, -, hrun⟩
  · exact absurd hbpp hbad
  · omega
  · rw [hrun, buildFrame_of_fits hfits, Flow.andThen_goOn]

/-- `EMBED` up to its comparison (R180). -/
theorem embed_of_prepared {s : State} (hlegal : ImageLegal s) (hfits : FrameFits s)
    (hbits : 8 * s.framed.frmlen.toNat ≤ s.params.bitDepth) (hsamples : s.nsamp ≠ 0) :
    embed Config.codec s = ((checkFits s.prepared).andThen writeFrame).finish := by
  rw [embed_of_fits hlegal hfits, frameToBits_of_le (by rwa [framed_params]), Flow.andThen_goOn,
    reportCapacity_of_ne (by rwa [streamed_nsamp, framed_nsamp]), Flow.andThen_goOn]
  rfl

/-- Step 5 of `EMBED` is `LSBW` from position 0: `BITPOS` receives `BITLEN` (R180). -/
theorem writeFrame_eq (s : State) : writeFrame s = .goOn (s.imaged 0 s.bitlen.toNat) := by
  have hpos : BitVec.ofNat 64 (0 + s.bitlen.toNat) = s.bitlen := by rw [Nat.zero_add, BitVec.ofNat_toNat]; simp
  rw [writeFrame, State.imaged, hpos]

/-- `EXTRACT` past its entry tests (R181). -/
theorem extract_of_samples {s : State} (hlegal : ImageLegal s) (hsamples : 40 ≤ s.nsamp.toNat) :
    extract Config.codec s = (((latchHeader (readBits s.bpp.toNat 0 40 s) (s.latched 0 40)).andThen readBody).andThen
      (finishBody Config.codec)).finish := by
  obtain ⟨hbpp, hn⟩ := hlegal
  rcases extract_cases Config.codec s with ⟨hbad, -⟩ | ⟨-, hdeep, -⟩ | ⟨-, -, hshort, -⟩ | ⟨-, -, -, hrun⟩
  · exact absurd hbpp hbad
  · omega
  · omega
  · exact hrun

/-- `EXTRACT` past its parse (R181). -/
theorem extract_of_parsed {s : State} (hlegal : ImageLegal s) (hsamples : 40 ≤ s.nsamp.toNat)
    (hlen : s.header.len.toNat ≤ 10000000) :
    extract Config.codec s = ((readBody s.headerParsed).andThen (finishBody Config.codec)).finish := by
  rw [extract_of_samples hlegal hsamples]
  rcases latchHeader_cases (readBits s.bpp.toNat 0 40 s) (s.latched 0 40) with ⟨hbad, -⟩ | ⟨-, hflow⟩
  · rw [State.header] at hlen
    omega
  · rw [hflow, Flow.andThen_goOn]
    rfl

/-- `EXTRACT` past its body's bytes (R181). -/
theorem extract_of_readable {s : State} (hread : BodyReadable s) (hfrm : s.header.len.toNat ≤ s.params.frmDepth) :
    extract Config.codec s = (deliverBody Config.codec s.header.len.toNat s.bodyPacked).finish := by
  obtain ⟨hlegal, hsamples, hlen, hroom, hbits⟩ := hread
  rw [extract_of_parsed hlegal hsamples hlen]
  have hcases := readBody_cases s.headerParsed
  simp only [headerParsed_dlen, headerParsed_slots, headerParsed_params] at hcases
  rcases hcases with ⟨hover, -⟩ | ⟨-, hdeep, -⟩ | ⟨-, -, hdeep, -⟩ | ⟨-, -, -, hflow⟩
  · exact absurd hroom (Nat.not_le.mpr hover)
  · exact absurd hbits (Nat.not_le.mpr hdeep)
  · exact absurd hfrm (Nat.not_le.mpr hdeep)
  · rw [hflow, Flow.andThen_goOn]
    rfl

end Sys2Proof.Machine

namespace Sys2Proof.Machine

/-! ### A command ends in the state of its meaning, and in no other -/

theorem FailsAtOnce.meaning_eq {s : State} {k : ErrorKind} {i : Instr} (h : FailsAtOnce s k i) :
    meaning i s = s.raise k := by
  cases i
  case b2bits =>
    obtain ⟨rfl, herr⟩ := h
    rcases b2bits_cases s with ⟨-, hrun⟩ | ⟨hfrm, hbits, -⟩
    · exact hrun
    · omega
  case bits2b =>
    obtain ⟨rfl, herr⟩ := h
    rcases bits2b_cases s with ⟨-, hrun⟩ | ⟨hbits, hfrm, -⟩
    · exact hrun
    · omega
  case capq =>
    rcases capq_cases s with ⟨hbad, hrun⟩ | ⟨hbpp, hzero, hrun⟩ | ⟨hbpp, hsome, -⟩ <;>
      rcases h with ⟨rfl, h⟩ | ⟨rfl, h, h0⟩
    · exact hrun
    · exact absurd h hbad
    · exact absurd hbpp h
    · exact hrun
    · exact absurd hbpp h
    · exact absurd h0 hsome
  case fbuild =>
    obtain ⟨rfl, hfits⟩ := h
    exact congrArg Flow.finish (buildFrame_of_not_fits hfits)
  case fparse =>
    rcases fparse_cases s with ⟨hdeep, hrun⟩ | ⟨hdepth, hshort, hrun⟩ | ⟨hdepth, hlong, hrun⟩ <;>
      rcases h with ⟨rfl, h⟩ | ⟨h, ⟨rfl, h'⟩ | ⟨rfl, h', hbad⟩⟩
    case inr.inr.inr.inr =>
      rcases latchHeader_cases (s.stream 40) s with ⟨-, hflow⟩ | ⟨hgood, -⟩
      · exact hrun.trans (congrArg Flow.finish hflow)
      · omega
    case inl.inl | inr.inl.inr.inl => exact hrun
    all_goals omega
  case fbody =>
    rcases fbody_cases Config.codec s with ⟨hdeep, hrun⟩ | ⟨hdepth, hrun⟩ <;>
      rcases h with ⟨rfl, h⟩ | ⟨h, ⟨rfl, hnone⟩ | ⟨rfl, out, hout, hlong⟩⟩
    case inr.inr.inl => exact hrun.trans (congrArg Flow.finish (deliverBody_of_none hnone))
    case inr.inr.inr =>
      rcases deliverBody_cases_of_some hout with ⟨-, hflow⟩ | ⟨hfits, -⟩
      · exact hrun.trans (congrArg Flow.finish hflow)
      · omega
    case inl.inl => exact hrun
    all_goals omega
  case lsbw =>
    have clauses := clauses_of_sampleTests (k := .capacityExceeded) (Success := True) (lsbw_cases s) (by simp)
    obtain ⟨hparam, hdeep, hover, -⟩ := clauses
    rcases h with ⟨rfl, h⟩ | ⟨hbpp, ⟨rfl, h⟩ | ⟨rfl, hn, hbits, h⟩⟩
    · exact hparam h
    · exact hdeep hbpp h
    · exact hover hbpp hn hbits h
  case lsbr =>
    have clauses := clauses_of_sampleTests (k := .insufficientData) (Success := True) (lsbr_cases s) (by simp)
    obtain ⟨hparam, hdeep, hover, -⟩ := clauses
    rcases h with ⟨rfl, h⟩ | ⟨hbpp, ⟨rfl, h⟩ | ⟨rfl, hn, hbits, h⟩⟩
    · exact hparam h
    · exact hdeep hbpp h
    · exact hover hbpp hn hbits h
  case embed =>
    rcases embed_cases Config.codec s with ⟨hbad, hrun⟩ | ⟨hbpp, hdeep, hrun⟩ | ⟨hbpp, hn, hrun⟩ <;>
      rcases h with ⟨rfl, h⟩ | ⟨rfl, h, hwhy⟩
    case inr.inr.inr =>
      have hfits : ¬ FrameFits s := hwhy.resolve_left (Nat.not_lt.mpr hn)
      rw [meaning, hrun, buildFrame_of_not_fits hfits]
      rfl
    case inl.inl | inr.inl.inr => exact hrun
    case inl.inr => exact absurd h hbad
    all_goals exact absurd hbpp h
  case extract =>
    rcases extract_cases Config.codec s with ⟨hbad, hrun⟩ | ⟨hbpp, hdeep, hrun⟩ | ⟨hbpp, hn, hshort, hrun⟩ |
        ⟨hbpp, hn, hsamples, -⟩ <;>
      rcases h with ⟨rfl, h⟩ | ⟨h, ⟨rfl, h'⟩ | ⟨rfl, h', h40⟩⟩
    case inl.inl | inr.inl.inr.inl | inr.inr.inl.inr.inr => exact hrun
    case inl.inr.inl | inl.inr.inr => exact absurd h hbad
    case inr.inl.inl | inr.inr.inl.inl | inr.inr.inr.inl => exact absurd hbpp h
    all_goals omega

end Sys2Proof.Machine

namespace Sys2Proof.Machine

/-- What `Ends` says, the command's meaning does. -/
theorem Ends.meaning_eq {s t : State} {i : Instr} (h : Ends s i t) : meaning i s = t := by
  cases h with
  | failsAtOnce h => exact h.meaning_eq
  | b2bits hfrm hbits =>
    rcases b2bits_cases s with ⟨herr, -⟩ | ⟨-, -, hrun⟩
    · omega
    · exact hrun
  | bits2b hbits hfrm =>
    rcases bits2b_cases s with ⟨herr, -⟩ | ⟨-, -, hrun⟩
    · omega
    · exact hrun
  | capq hbpp hsamples =>
    rcases capq_cases s with ⟨hbad, -⟩ | ⟨-, hzero, -⟩ | ⟨-, -, hrun⟩
    · exact absurd hbpp hbad
    · exact absurd hzero hsamples
    · exact hrun
  | fbuild hfits => exact congrArg Flow.finish (buildFrame_of_fits hfits)
  | fparse hbits hheader hlen =>
    rcases fparse_cases s with ⟨hdeep, -⟩ | ⟨-, hshort, -⟩ | ⟨-, -, hrun⟩
    · omega
    · omega
    · rcases latchHeader_cases (s.stream 40) s with ⟨hbad, -⟩ | ⟨-, hflow⟩
      · omega
      · exact hrun.trans (congrArg Flow.finish hflow)
  | fbody hfrm hout hpay =>
    rcases fbody_cases Config.codec s with ⟨hdeep, -⟩ | ⟨-, hrun⟩
    · omega
    · rcases deliverBody_cases_of_some hout with ⟨hlong, -⟩ | ⟨-, hflow⟩
      · omega
      · exact hrun.trans (congrArg Flow.finish hflow)
  | lsbw hlegal hbits hroom =>
    obtain ⟨-, -, -, hsuccess⟩ := clauses_of_sampleTests (lsbw_cases s) (fun _ _ _ hrun => hrun)
    exact hsuccess hlegal.1 hlegal.2 hbits hroom
  | lsbr hlegal hbits hroom =>
    obtain ⟨-, -, -, hsuccess⟩ := clauses_of_sampleTests (lsbr_cases s) (fun _ _ _ hrun => hrun)
    exact hsuccess hlegal.1 hlegal.2 hbits hroom
  | embedTooDeep hlegal hfits hdeep =>
    rw [meaning, embed_of_fits hlegal hfits, frameToBits_of_gt (by rwa [framed_params])]
    rfl
  | embedNoSamples hlegal hfits hbits hzero =>
    rw [meaning, embed_of_fits hlegal hfits, frameToBits_of_le (by rwa [framed_params]), Flow.andThen_goOn,
      reportCapacity_of_zero (by rwa [streamed_nsamp, framed_nsamp])]
    rfl
  | embedNoRoom hlegal hfits hbits hsamples hover =>
    rw [meaning, embed_of_prepared hlegal hfits hbits hsamples, checkFits_of_gt (by rwa [prepared_slots])]
    rfl
  | embed hlegal hfits hbits hsamples hroom =>
    rw [meaning, embed_of_prepared hlegal hfits hbits hsamples, checkFits_of_le (by rwa [prepared_slots]),
      Flow.andThen_goOn, writeFrame_eq]
    rfl
  | extractBadLength hlegal hsamples hbad =>
    rw [meaning, extract_of_samples hlegal hsamples]
    rcases latchHeader_cases (readBits s.bpp.toNat 0 40 s) (s.latched 0 40) with ⟨-, hflow⟩ | ⟨hgood, -⟩
    · rw [hflow]
      rfl
    · exact absurd hbad (Nat.not_lt.mpr hgood)
  | extractNoBody hlegal hsamples hlen hwhy =>
    rw [meaning, extract_of_parsed hlegal hsamples hlen]
    rcases hwhy with ⟨rfl, hover⟩ | ⟨rfl, hroom, hdeep⟩
    · rw [readBody_of_gt (by rwa [headerParsed_dlen, headerParsed_slots])]
      rfl
    · rw [readBody_of_bitDepth (by rwa [headerParsed_dlen, headerParsed_slots])
        (by rwa [headerParsed_dlen, headerParsed_params])]
      rfl
  | extractTooDeep hread hdeep =>
    rw [meaning, extract_of_parsed hread.legal hread.samples hread.len,
      readBody_of_frmDepth
      (by simpa using hread.inImage) (by simpa using hread.inBits) (by simpa using hdeep), headerParsed_dlen]
    rfl
  | extractNoPayload hread hfrm hwhy =>
    rw [meaning, extract_of_readable hread hfrm]
    rcases hwhy with ⟨rfl, hnone⟩ | ⟨rfl, out, hout, hlong⟩
    · exact congrArg Flow.finish (deliverBody_of_none hnone)
    · rcases deliverBody_cases_of_some hout with ⟨-, hflow⟩ | ⟨hfits, -⟩
      · exact congrArg Flow.finish hflow
      · exact absurd hlong (Nat.not_lt.mpr hfits)
  | extract hread hfrm hout hpay =>
    rw [meaning, extract_of_readable hread hfrm]
    rcases deliverBody_cases_of_some hout with ⟨hlong, -⟩ | ⟨-, hflow⟩
    · exact absurd hlong (Nat.not_lt.mpr hpay)
    · exact congrArg Flow.finish hflow

/-- Every test of the pseudocode passes or fails, so some constructor of `Ends` applies. -/
theorem exists_ends_embed (s : State) : ∃ t, Ends s .embed t := by
  by_cases hbpp : s.BppIs123
  swap; · exact ⟨_, .failsAtOnce (.inl ⟨rfl, hbpp⟩)⟩
  by_cases hn : s.nsamp.toNat ≤ s.params.pixDepth
  swap; · exact ⟨_, .failsAtOnce (.inr ⟨rfl, hbpp, .inl (Nat.lt_of_not_le hn)⟩)⟩
  by_cases hfits : FrameFits s
  swap; · exact ⟨_, .failsAtOnce (.inr ⟨rfl, hbpp, .inr hfits⟩)⟩
  by_cases hbits : 8 * s.framed.frmlen.toNat ≤ s.params.bitDepth
  swap; · exact ⟨_, .embedTooDeep ⟨hbpp, hn⟩ hfits (Nat.lt_of_not_le hbits)⟩
  by_cases hzero : s.nsamp = 0
  · exact ⟨_, .embedNoSamples ⟨hbpp, hn⟩ hfits hbits hzero⟩
  by_cases hroom : s.prepared.bitlen.toNat ≤ s.slots
  · exact ⟨_, .embed ⟨hbpp, hn⟩ hfits hbits hzero hroom⟩
  · exact ⟨_, .embedNoRoom ⟨hbpp, hn⟩ hfits hbits hzero (Nat.lt_of_not_le hroom)⟩

theorem exists_ends_extract (s : State) : ∃ t, Ends s .extract t := by
  by_cases hbpp : s.BppIs123
  swap; · exact ⟨_, .failsAtOnce (.inl ⟨rfl, hbpp⟩)⟩
  by_cases hn : s.nsamp.toNat ≤ s.params.pixDepth
  swap; · exact ⟨_, .failsAtOnce (.inr ⟨hbpp, .inl ⟨rfl, Nat.lt_of_not_le hn⟩⟩)⟩
  by_cases hsamples : 40 ≤ s.nsamp.toNat
  swap; · exact ⟨_, .failsAtOnce (.inr ⟨hbpp, .inr ⟨rfl, hn, Nat.lt_of_not_le hsamples⟩⟩)⟩
  by_cases hlen : s.header.len.toNat ≤ 10000000
  swap; · exact ⟨_, .extractBadLength ⟨hbpp, hn⟩ hsamples (Nat.lt_of_not_le hlen)⟩
  by_cases hroom : 40 + 8 * s.header.len.toNat ≤ s.slots
  swap; · exact ⟨_, .extractNoBody ⟨hbpp, hn⟩ hsamples hlen (.inl ⟨rfl, Nat.lt_of_not_le hroom⟩)⟩
  by_cases hbits : 8 * s.header.len.toNat ≤ s.params.bitDepth
  swap; · exact ⟨_, .extractNoBody ⟨hbpp, hn⟩ hsamples hlen (.inr ⟨rfl, hroom, Nat.lt_of_not_le hbits⟩)⟩
  have hread : BodyReadable s := ⟨⟨hbpp, hn⟩, hsamples, hlen, hroom, hbits⟩
  by_cases hfrm : s.header.len.toNat ≤ s.params.frmDepth
  swap; · exact ⟨_, .extractTooDeep hread (Nat.lt_of_not_le hfrm)⟩
  cases hout : s.bodyPacked.payload s.header.len.toNat with
  | none => exact ⟨_, .extractNoPayload hread hfrm (.inl ⟨rfl, hout⟩)⟩
  | some out =>
    by_cases hpay : out.length ≤ s.params.payDepth
    · exact ⟨_, .extract hread hfrm hout hpay⟩
    · exact ⟨_, .extractNoPayload hread hfrm (.inr ⟨rfl, out, hout, Nat.lt_of_not_le hpay⟩)⟩

theorem exists_ends (i : Instr) (s : State) : ∃ t, Ends s i t := by
  cases i
  case b2bits =>
    rcases b2bits_cases s with ⟨herr, -⟩ | ⟨hfrm, hbits, -⟩
    · exact ⟨_, .failsAtOnce ⟨rfl, herr⟩⟩
    · exact ⟨_, .b2bits hfrm hbits⟩
  case bits2b =>
    rcases bits2b_cases s with ⟨herr, -⟩ | ⟨hbits, hfrm, -⟩
    · exact ⟨_, .failsAtOnce ⟨rfl, herr⟩⟩
    · exact ⟨_, .bits2b hbits hfrm⟩
  case capq =>
    rcases capq_cases s with ⟨hbad, -⟩ | ⟨hbpp, hzero, -⟩ | ⟨hbpp, hsamples, -⟩
    · exact ⟨_, .failsAtOnce (.inl ⟨rfl, hbad⟩)⟩
    · exact ⟨_, .failsAtOnce (.inr ⟨rfl, hbpp, hzero⟩)⟩
    · exact ⟨_, .capq hbpp hsamples⟩
  case fbuild =>
    by_cases hfits : FrameFits s
    · exact ⟨_, .fbuild hfits⟩
    · exact ⟨_, .failsAtOnce ⟨rfl, hfits⟩⟩
  case fparse =>
    rcases fparse_cases s with ⟨hdeep, -⟩ | ⟨hbits, hshort, -⟩ | ⟨hbits, hheader, -⟩
    · exact ⟨_, .failsAtOnce (.inl ⟨rfl, hdeep⟩)⟩
    · exact ⟨_, .failsAtOnce (.inr ⟨hbits, .inl ⟨rfl, hshort⟩⟩)⟩
    · rcases latchHeader_cases (s.stream 40) s with ⟨hbad, -⟩ | ⟨hlen, -⟩
      · exact ⟨_, .failsAtOnce (.inr ⟨hbits, .inr ⟨rfl, hheader, hbad⟩⟩)⟩
      · exact ⟨_, .fparse hbits hheader hlen⟩
  case fbody =>
    rcases fbody_cases Config.codec s with ⟨hdeep, -⟩ | ⟨hfrm, -⟩
    · exact ⟨_, .failsAtOnce (.inl ⟨rfl, hdeep⟩)⟩
    · rcases deliverBody_cases Config.codec (min s.frmlen.toNat s.dlen.toNat) s with
        ⟨hnone, -⟩ | ⟨out, hout, ⟨hlong, -⟩ | ⟨hpay, -⟩⟩
      · exact ⟨_, .failsAtOnce (.inr ⟨hfrm, .inl ⟨rfl, hnone⟩⟩)⟩
      · exact ⟨_, .failsAtOnce (.inr ⟨hfrm, .inr ⟨rfl, out, hout, hlong⟩⟩)⟩
      · exact ⟨_, .fbody hfrm hout hpay⟩
  case lsbw =>
    rcases lsbw_cases s with
      ⟨hbad, -⟩ | ⟨hbpp, hdeep, -⟩ | ⟨hbpp, hn, hbits, hover, -⟩ | ⟨hbpp, hn, hbits, hroom, -⟩
    · exact ⟨_, .failsAtOnce (.inl ⟨rfl, hbad⟩)⟩
    · exact ⟨_, .failsAtOnce (.inr ⟨hbpp, .inl ⟨rfl, hdeep⟩⟩)⟩
    · exact ⟨_, .failsAtOnce (.inr ⟨hbpp, .inr ⟨rfl, hn, hbits, hover⟩⟩)⟩
    · exact ⟨_, .lsbw ⟨hbpp, hn⟩ hbits hroom⟩
  case lsbr =>
    rcases lsbr_cases s with
      ⟨hbad, -⟩ | ⟨hbpp, hdeep, -⟩ | ⟨hbpp, hn, hbits, hover, -⟩ | ⟨hbpp, hn, hbits, hroom, -⟩
    · exact ⟨_, .failsAtOnce (.inl ⟨rfl, hbad⟩)⟩
    · exact ⟨_, .failsAtOnce (.inr ⟨hbpp, .inl ⟨rfl, hdeep⟩⟩)⟩
    · exact ⟨_, .failsAtOnce (.inr ⟨hbpp, .inr ⟨rfl, hn, hbits, hover⟩⟩)⟩
    · exact ⟨_, .lsbr ⟨hbpp, hn⟩ hbits hroom⟩
  case embed => exact exists_ends_embed s
  case extract => exact exists_ends_extract s

/-- `Ends` is the meaning of the commands, said case by case. -/
theorem ends_iff {s t : State} {i : Instr} : Ends s i t ↔ exec i s = .next t := by
  rw [exec_eq_next_iff]
  refine ⟨Ends.meaning_eq, ?_⟩
  rintro rfl
  obtain ⟨t, h⟩ := exists_ends i s
  rwa [h.meaning_eq]

theorem ends_meaning (i : Instr) (s : State) : Ends s i (meaning i s) := ends_iff.mpr (exec_eq i s)

end Sys2Proof.Machine

namespace Sys2Proof.Machine

/-! ### How every command leaves `STATUS` and `RESULT` (60_exceptions.md R200, R210, R215) -/

theorem ErrorKind.code_ne_zero (k : ErrorKind) : k.code ≠ 0 := by
  cases k <;> decide

theorem ErrorKind.code_toNat_le (k : ErrorKind) : k.code.toNat ≤ 9 := by
  cases k <;> decide

/-- The two ways a command's pseudocode comes to its end: a success or a `raise`, from some state (R215). -/
theorem Ends.succeed_or_raise {s t : State} {i : Instr} (h : Ends s i t) :
    (∃ u : State, t = u.succeed) ∨ ∃ (u : State) (k : ErrorKind), t = u.raise k := by
  cases h with
  | failsAtOnce | embedTooDeep | embedNoSamples | embedNoRoom | extractBadLength | extractNoBody | extractTooDeep
  | extractNoPayload => exact .inr ⟨_, _, rfl⟩
  | b2bits | bits2b | capq | fbuild | fparse | fbody | lsbw | lsbr | embed | extract => exact .inl ⟨_, rfl⟩

/-- The flags an end leaves agree with its code (R22, R215). -/
theorem Ends.flags {s t : State} {i : Instr} (h : Ends s i t) :
    t.status.done = true ∧ t.status.busy = false ∧ (t.status.err = true ↔ t.result ≠ 0) := by
  rcases h.succeed_or_raise with ⟨u, rfl⟩ | ⟨u, k, rfl⟩
  · simp [Status.success]
  · exact ⟨rfl, rfl, iff_of_true rfl k.code_ne_zero⟩

/-- The rows of R210: the codes a command may end with. -/
def allowedCodes : Instr → List Nat
  | .b2bits | .bits2b | .fbuild => [0, 9]
  | .capq => [0, 1, 2]
  | .fparse => [0, 4, 5, 9]
  | .fbody => [0, 7, 9]
  | .lsbw => [0, 1, 3, 9]
  | .lsbr => [0, 1, 6, 9]
  | .embed => [0, 1, 2, 3, 9]
  | .extract => [0, 1, 5, 6, 7, 9]

theorem FailsAtOnce.code_mem {s : State} {k : ErrorKind} {i : Instr} (h : FailsAtOnce s k i) :
    k.code.toNat ∈ allowedCodes i := by
  cases i
  case b2bits | bits2b | fbuild =>
    obtain ⟨rfl, -⟩ := h
    decide
  case capq | embed => rcases h with ⟨rfl, -⟩ | ⟨rfl, -⟩ <;> decide
  case fparse | fbody | lsbw | lsbr | extract => rcases h with ⟨rfl, -⟩ | ⟨-, ⟨rfl, -⟩ | ⟨rfl, -⟩⟩ <;> decide

theorem Ends.code_mem {s t : State} {i : Instr} (h : Ends s i t) : t.result.toNat ∈ allowedCodes i := by
  cases h with
  | failsAtOnce h => exact h.code_mem
  | extractNoBody _ _ _ hwhy | extractNoPayload _ _ hwhy =>
    rcases hwhy with ⟨rfl, -⟩ | ⟨rfl, -⟩ <;> simp [allowedCodes, ErrorKind.code]
  | _ => simp [allowedCodes, ErrorKind.code]

/-- Settles O44: the codes are those of the places where the pseudocode ends. -/
theorem everyCommandEndsWithAnAllowedCode : Obligations.EveryCommandEndsWithAnAllowedCode := by
  intro i s
  have h := ends_meaning i s
  obtain ⟨hdone, hbusy, herr⟩ := h.flags
  have hcode := h.code_mem
  refine ⟨_, exec_eq i s, hdone, hbusy, herr, ?_⟩
  cases i <;> exact hcode

/-- Settles O45: a primitive raises before it writes (R214). -/
theorem failingPrimitiveChangesOnlyStatusAndResult : Obligations.FailingPrimitiveChangesOnlyStatusAndResult := by
  intro i s t hembed hextract hrun hres
  cases ends_iff.mpr hrun with
  | failsAtOnce => rfl
  | b2bits | bits2b | capq | fbuild | fparse | fbody | lsbw | lsbr => exact absurd rfl hres
  | embedTooDeep | embedNoSamples | embedNoRoom | embed => exact absurd rfl hembed
  | extractBadLength | extractNoBody | extractTooDeep | extractNoPayload | extract => exact absurd rfl hextract

/-! ### What each command may write (10_state.md R20, 20_memory.md R73) -/

@[simp] theorem State.imaged_eq (p n : Nat) (s : State) : s.imaged p n =
    { s with pix := (writeBits s.bpp.toNat p (s.stream n) s).pix, bitpos := BitVec.ofNat 64 (p + n) } := by
  rw [State.imaged, writeBits_frame]

/-- Settles O46: each end names its writes. -/
theorem commandsWriteOnlyTheirRegisters : Obligations.CommandsWriteOnlyTheirRegisters := by
  intro i s t hrun
  cases ends_iff.mpr hrun with
  | failsAtOnce => simp
  | b2bits => simp [State.streamed]
  | bits2b => simp
  | capq => simp [State.capReported]
  | fbuild => simp [State.framed]
  | fparse => simp [State.withHeader]
  | fbody => simp
  | lsbw => simp
  | lsbr => simp [State.latched]
  | embedTooDeep => simp [State.framed, ErrorKind.code]
  | embedNoSamples => simp [State.framed, State.streamed, ErrorKind.code]
  | embedNoRoom => simp [State.prepared, State.framed, State.streamed, State.capReported, State.shortReported, ErrorKind.code]
  | embed => simp [State.prepared, State.framed, State.streamed, State.capReported]
  | extractBadLength => simp [State.latched]
  | extractNoBody => simp [State.headerParsed, State.withHeader, State.latched]
  | extractTooDeep => simp [State.bodyRead, State.headerParsed, State.withHeader, State.latched]
  | extractNoPayload | extract => simp [State.bodyPacked, State.bodyRead, State.headerParsed, State.withHeader, State.latched]

/-- Settles O40: both commands write `PIX` last, when nothing can fail any more (R184). -/
theorem failingEmbedLeavesTheImageIntact : Obligations.FailingEmbedLeavesTheImageIntact := by
  rintro s t (hrun | hrun) hres
  · cases ends_iff.mpr hrun with
    | failsAtOnce => simp
    | embedTooDeep => simp [State.framed]
    | embedNoSamples => simp [State.framed, State.streamed]
    | embedNoRoom => simp [State.prepared, State.framed, State.streamed, State.capReported, State.shortReported]
    | embed => exact absurd rfl hres
  · cases ends_iff.mpr hrun with
    | failsAtOnce => simp
    | lsbw => exact absurd rfl hres

/-- Settles O41: the command delivers last, when nothing can fail any more (R185). -/
theorem failingExtractDeliversNoPayload : Obligations.FailingExtractDeliversNoPayload := by
  intro s t hrun hres
  cases ends_iff.mpr hrun with
  | failsAtOnce => simp
  | extractBadLength => simp [State.latched]
  | extractNoBody => simp [State.headerParsed, State.withHeader, State.latched]
  | extractTooDeep => simp [State.bodyRead, State.headerParsed, State.withHeader, State.latched]
  | extractNoPayload => simp [State.bodyPacked, State.bodyRead, State.headerParsed, State.withHeader, State.latched]
  | extract => exact absurd rfl hres

/-- No command changes the parameters (R7). -/
theorem Ends.params_eq {s t : State} {i : Instr} (h : Ends s i t) : t.params = s.params := by
  obtain ⟨-, -, -, -, -, hparams, -⟩ := commandsWriteOnlyTheirRegisters i s t (ends_iff.mp h)
  exact hparams

end Sys2Proof.Machine

namespace Sys2Proof.Machine

/-! ### What a step can do -/

/-- One host action performed: what it can leave. -/
theorem performAction_cases {a : HostAction} {s t : State} (h : performAction a s = .next t) :
    (∃ d, t = { s with dataOut := d }) ∨
    (∃ v i, Ends (s.startCommand v) i t) ∨
    (∃ v, t = (s.startCommand v).raise .illegalCommand) ∨
    (∃ r v, r ≠ .cmd ∧ t = s.regWrite r v) ∨
    (∃ sp i v, i < depthOf s.params sp ∧ t = s.hostWrite sp i v) ∨
    (a = .reset ∧ t = s.assertReset) := by
  rcases performAction_cases_of_wf ((performAction_next_iff a s).mp ⟨t, h⟩) with
      ⟨d, hnext⟩ | ⟨v, i, hnext⟩ | ⟨v, hnext⟩ | ⟨r, v, hr, hnext⟩ | ⟨sp, i, v, hi, hnext⟩ | ⟨ha, hnext⟩ <;>
    cases h.symm.trans hnext
  · exact .inl ⟨d, rfl⟩
  · exact .inr (.inl ⟨v, i, ends_meaning i _⟩)
  · exact .inr (.inr (.inl ⟨v, rfl⟩))
  · exact .inr (.inr (.inr (.inl ⟨r, v, hr, rfl⟩)))
  · exact .inr (.inr (.inr (.inr (.inl ⟨sp, i, v, hi, rfl⟩))))
  · exact .inr (.inr (.inr (.inr (.inr ⟨ha, rfl⟩))))

/-- A step: nothing waits, or the next action is performed (R74, R232). -/
theorem step_cases {s t : State} (h : step s = .next t) :
    (s.host = [] ∧ t = s) ∨ ∃ a rest, s.host = a :: rest ∧ performAction a { s with host := rest } = .next t := by
  cases hhost : s.host with
  | nil =>
    rw [step_of_host_nil hhost, Host.Outcome.next.injEq] at h
    exact .inl ⟨rfl, h.symm⟩
  | cons a rest => exact .inr ⟨a, rest, rfl, (step_of_host_cons hhost).symm.trans h⟩

/-! ### `DONE` (10_state.md R22) -/

theorem regWrite_status {r : Reg} (h : r ≠ .cmd) (s : State) (v : Word64) : (s.regWrite r v).status = s.status := by
  rw [regWrite_frame s v h]

theorem hostWrite_status (s : State) (sp : Space) (i : Nat) (v : Word64) :
    (s.hostWrite sp i v).status = s.status := by
  rw [hostWrite_frame]

/-- An action other than reset leaves `DONE` set (R22). -/
theorem performAction_keeps_done {a : HostAction} {s t : State} (h : performAction a s = .next t) (ha : a ≠ .reset)
    (hdone : s.status.done = true) : t.status.done = true := by
  rcases performAction_cases h with
    ⟨d, rfl⟩ | ⟨v, i, hends⟩ | ⟨v, rfl⟩ | ⟨r, v, hr, rfl⟩ | ⟨sp, i, v, -, rfl⟩ | ⟨hreset, -⟩
  · exact hdone
  · exact hends.flags.1
  · rfl
  · rwa [regWrite_status hr]
  · rwa [hostWrite_status]
  · exact absurd hreset ha

/-- Settles O50: a command that ends sets `DONE`, and nothing but reset clears it. -/
theorem doneIsClearedOnlyByReset : Obligations.DoneIsClearedOnlyByReset := by
  intro s t hstep hdone hreset
  rcases step_cases hstep with ⟨-, rfl⟩ | ⟨a, rest, hhost, hact⟩
  · exact hdone
  · exact performAction_keeps_done hact (fun ha => hreset rest (ha ▸ hhost)) hdone

/-! ### The buffers keep their canonical form (Laws/Memory.lean) -/

theorem length_frame (s : State) : (packHeader (BitVec.ofNat 32 s.staged.1.length) s.staged.2 s.bpp ++
    s.staged.1).length = 5 + s.staged.1.length := by
  rw [List.length_append, length_packHeader]

theorem memory_wf_framed {s : State} (h : Memory.wf s = true) (hfits : FrameFits s) : Memory.wf s.framed = true := by
  refine memory_wf_congr (memory_wf_putFrm h ?_) rfl rfl rfl rfl rfl
  rw [length_frame]
  exact hfits.2

theorem memory_wf_streamed {s : State} (h : Memory.wf s = true) (hbits : 8 * s.frmlen.toNat ≤ s.params.bitDepth) :
    Memory.wf s.streamed = true :=
  memory_wf_putBits h (by rwa [length_bytesToBits, length_frmBytes])

theorem memory_wf_imaged {s : State} {p n : Nat} (h : Memory.wf s = true) (hlegal : ImageLegal s)
    (hroom : p + n ≤ s.slots) : Memory.wf (s.imaged p n) = true :=
  memory_wf_congr (memory_wf_writeBits h hlegal.1 hlegal.2 (by rwa [length_stream])) rfl rfl rfl rfl rfl

theorem memory_wf_latched {s : State} {p n : Nat} (h : Memory.wf s = true) (hbits : n ≤ s.params.bitDepth) :
    Memory.wf (s.latched p n) = true :=
  memory_wf_latchBits h (by rwa [length_readBits])

/-- R7 makes `BITS` deep enough for the forty bits of a header. -/
theorem memory_wf_headerRead {s : State} (h : Memory.wf s = true) (hwf : s.params.wf = true) :
    Memory.wf (s.latched 0 40) = true := by
  obtain ⟨-, -, -, -, -, hdepth, -⟩ := (paramsWf_iff s.params).mp hwf
  exact memory_wf_latched h hdepth

theorem memory_wf_headerParsed {s : State} (h : Memory.wf s = true) (hwf : s.params.wf = true) :
    Memory.wf s.headerParsed = true :=
  memory_wf_congr (memory_wf_headerRead h hwf) rfl rfl rfl rfl rfl

theorem memory_wf_bodyRead {s : State} (h : Memory.wf s = true) (hwf : s.params.wf = true) (hread : BodyReadable s) :
    Memory.wf s.bodyRead = true :=
  memory_wf_latched (memory_wf_headerParsed h hwf) hread.inBits

theorem length_imageBody (s : State) : s.imageBody.length = s.header.len.toNat := by
  rw [State.imageBody, length_bitsToBytes, length_readBits, ceil8_eight_mul]

theorem memory_wf_bodyPacked {s : State} (h : Memory.wf s = true) (hwf : s.params.wf = true) (hread : BodyReadable s)
    (hfrm : s.header.len.toNat ≤ s.params.frmDepth) : Memory.wf s.bodyPacked = true :=
  memory_wf_putFrm (memory_wf_bodyRead h hwf hread) (by rwa [length_imageBody])

/-- A command's end keeps the canonical form: each of its writes is within the depth its test compared. -/
theorem Ends.memory_wf {s t : State} {i : Instr} (hends : Ends s i t) (hwf : s.params.wf = true)
    (h : Memory.wf s = true) : Memory.wf t = true := by
  have hframed (hfits : FrameFits s) := memory_wf_framed h hfits
  have hstreamed (hfits : FrameFits s) (hbits : 8 * s.framed.frmlen.toNat ≤ s.params.bitDepth) :=
    memory_wf_streamed (hframed hfits) hbits
  have hprepared (hfits : FrameFits s) (hbits : 8 * s.framed.frmlen.toNat ≤ s.params.bitDepth) :
      Memory.wf s.prepared = true := memory_wf_congr (hstreamed hfits hbits) rfl rfl rfl rfl rfl
  cases hends with
  | failsAtOnce => exact h
  | b2bits _ hbits => exact (memory_wf_succeed _).trans (memory_wf_streamed h hbits)
  | bits2b _ hfrm => exact (memory_wf_succeed _).trans (memory_wf_putFrm h (by rwa [length_bitsToBytes, length_stream]))
  | capq => exact (memory_wf_succeed _).trans (memory_wf_congr h rfl rfl rfl rfl rfl)
  | fbuild hfits => exact (memory_wf_succeed _).trans (hframed hfits)
  | fparse => exact (memory_wf_succeed _).trans (memory_wf_congr h rfl rfl rfl rfl rfl)
  | fbody _ _ hpay => exact (memory_wf_succeed _).trans (memory_wf_putPay h hpay)
  | lsbw hlegal _ hroom => exact (memory_wf_succeed _).trans (memory_wf_imaged h hlegal hroom)
  | lsbr _ hbits => exact (memory_wf_succeed _).trans (memory_wf_latched h hbits)
  | embedTooDeep _ hfits => exact (memory_wf_raise _ _).trans (hframed hfits)
  | embedNoSamples _ hfits hbits => exact (memory_wf_raise _ _).trans (hstreamed hfits hbits)
  | embedNoRoom _ hfits hbits =>
    exact (memory_wf_raise _ _).trans (memory_wf_congr (hprepared hfits hbits) rfl rfl rfl rfl rfl)
  | embed hlegal hfits hbits _ hroom =>
    exact (memory_wf_succeed _).trans
      (memory_wf_imaged (hprepared hfits hbits) hlegal.prepared (by rwa [Nat.zero_add, prepared_slots]))
  | extractBadLength => exact (memory_wf_raise _ _).trans (memory_wf_headerRead h hwf)
  | extractNoBody => exact (memory_wf_raise _ _).trans (memory_wf_headerParsed h hwf)
  | extractTooDeep hread => exact (memory_wf_raise _ _).trans (memory_wf_bodyRead h hwf hread)
  | extractNoPayload hread hfrm => exact (memory_wf_raise _ _).trans (memory_wf_bodyPacked h hwf hread hfrm)
  | extract hread hfrm _ hpay =>
    exact (memory_wf_succeed _).trans (memory_wf_putPay (memory_wf_bodyPacked h hwf hread hfrm) hpay)

end Sys2Proof.Machine

namespace Sys2Proof.Machine

/-! ### The machine invariant (10_state.md R22, R37; 60_exceptions.md R210) -/

/-- `CAPBYTES` is `CAPBITS div 8` (R37). -/
def CapacityAgrees (s : State) : Prop := s.capbytes.toNat = s.capbits.toNat / 8

theorem capacityAgrees_capReported (s : State) : CapacityAgrees s.capReported :=
  capBytesRegister_toNat (capRegister s.nsamp s.bpp)

theorem CapacityAgrees.congr {s t : State} (h : CapacityAgrees s) (hbits : t.capbits = s.capbits)
    (hbytes : t.capbytes = s.capbytes) : CapacityAgrees t := by
  rw [CapacityAgrees, hbits, hbytes]
  exact h

/-- Only `CAPQ` and `EMBED` write the capacity registers (R20). -/
theorem Ends.capacity_eq {s t : State} {i : Instr} (hends : Ends s i t) (hi : i ∉ [.capq, .embed]) :
    t.capbits = s.capbits ∧ t.capbytes = s.capbytes := by
  obtain ⟨-, -, -, -, -, -, -, -, -, -, -, -, -, -, -, hcap, -⟩ :=
    commandsWriteOnlyTheirRegisters i s t (ends_iff.mp hends)
  exact hcap hi

/-- A command that writes the two capacity registers writes both. -/
theorem Ends.capacityAgrees {s t : State} {i : Instr} (hends : Ends s i t) (h : CapacityAgrees s) :
    CapacityAgrees t := by
  have hkept := hends.capacity_eq
  cases hends with
  | capq => exact (capacityAgrees_capReported s).congr rfl rfl
  | embedNoRoom => exact (capacityAgrees_capReported s.framed.streamed).congr rfl rfl
  | embed =>
    exact (capacityAgrees_capReported s.framed.streamed).congr (by simp [State.prepared]) (by simp [State.prepared])
  | embedTooDeep => exact h.congr (by simp [State.framed]) (by simp [State.framed])
  | embedNoSamples => exact h.congr (by simp [State.framed, State.streamed]) (by simp [State.framed, State.streamed])
  | failsAtOnce => exact h.congr rfl rfl
  | _ =>
    obtain ⟨hbits, hbytes⟩ := hkept (by decide)
    exact h.congr hbits hbytes

/-- A command ends in a state that meets the invariant, whatever `STATUS` and `RESULT` were at its start. -/
theorem Ends.inv {s t : State} {i : Instr} (hends : Ends s i t) (hwf : s.params.wf = true) (hmem : Memory.wf s = true)
    (hcap : CapacityAgrees s) : t.Inv := by
  obtain ⟨hdone, hbusy, herr⟩ := hends.flags
  refine ⟨hends.params_eq ▸ hwf, hends.memory_wf hwf hmem, hbusy, herr, ?code, fun _ => hdone, hends.capacityAgrees hcap⟩
  rcases hends.succeed_or_raise with ⟨u, rfl⟩ | ⟨u, k, rfl⟩
  · exact Nat.zero_le 9
  · exact k.code_toNat_le

/-- The invariant speaks of no field a host access writes but the buffers (R61, R62). -/
theorem State.Inv.congr {s t : State} (h : s.Inv) (hmem : Memory.wf t = true) (hparams : t.params = s.params)
    (hstatus : t.status = s.status) (hresult : t.result = s.result) (hbits : t.capbits = s.capbits)
    (hbytes : t.capbytes = s.capbytes) : t.Inv where
  paramsWf := by rw [hparams]; exact h.paramsWf
  memoryWf := hmem
  notBusy := by rw [hstatus]; exact h.notBusy
  errIffResult := by rw [hstatus, hresult]; exact h.errIffResult
  resultIsCode := by rw [hresult]; exact h.resultIsCode
  errOnlyWhenDone := by rw [hstatus, hresult]; exact h.errOnlyWhenDone
  capbytesOfCapbits := by rw [hbits, hbytes]; exact h.capbytesOfCapbits

theorem inv_regWrite {s : State} (h : s.Inv) {r : Reg} (hr : r ≠ .cmd) (v : Word64) : (s.regWrite r v).Inv := by
  rw [regWrite_frame s v hr]
  exact h.congr (memory_wf_congr h.memoryWf rfl rfl rfl rfl rfl) rfl rfl rfl rfl rfl

theorem inv_hostWrite {s : State} (h : s.Inv) {sp : Space} {i : Nat} (hi : i < depthOf s.params sp) (v : Word64) :
    (s.hostWrite sp i v).Inv := by
  have hmem := memory_wf_hostWrite (v := v) h.memoryWf hi
  rw [hostWrite_frame] at hmem ⊢
  exact h.congr hmem rfl rfl rfl rfl rfl

theorem inv_illegalCommand {s : State} (h : s.Inv) (v : Word64) : ((s.startCommand v).raise .illegalCommand).Inv where
  paramsWf := h.paramsWf
  memoryWf := h.memoryWf
  notBusy := rfl
  errIffResult := iff_of_true rfl ErrorKind.illegalCommand.code_ne_zero
  resultIsCode := ErrorKind.illegalCommand.code_toNat_le
  errOnlyWhenDone := fun _ => rfl
  capbytesOfCapbits := h.capbytesOfCapbits

theorem inv_assertReset {s : State} (h : s.Inv) : s.assertReset.Inv :=
  (inv_resetWith h.paramsWf).congr (memory_wf_assertReset s) rfl rfl rfl rfl rfl

/-- One host action keeps the invariant and the parameters. -/
theorem performAction_keeps_inv {a : HostAction} {s t : State} (h : s.Inv) (hact : performAction a s = .next t) :
    t.Inv ∧ t.params = s.params := by
  rcases performAction_cases hact with
    ⟨d, rfl⟩ | ⟨v, i, hends⟩ | ⟨v, rfl⟩ | ⟨r, v, hr, rfl⟩ | ⟨sp, i, v, hi, rfl⟩ | ⟨-, rfl⟩
  · exact ⟨h.congr h.memoryWf rfl rfl rfl rfl rfl, rfl⟩
  · exact ⟨hends.inv h.paramsWf h.memoryWf h.capbytesOfCapbits, hends.params_eq⟩
  · exact ⟨inv_illegalCommand h v, rfl⟩
  · exact ⟨inv_regWrite h hr v, by rw [regWrite_frame s v hr]⟩
  · exact ⟨inv_hostWrite h hi v, by rw [hostWrite_frame]⟩
  · exact ⟨inv_assertReset h, rfl⟩

/-- Settles O52: an idle step changes nothing, and any action keeps the invariant. -/
theorem everyStepKeepsTheMachineInvariant : Obligations.EveryStepKeepsTheMachineInvariant := by
  intro s t hinv hstep
  rcases step_cases hstep with ⟨-, rfl⟩ | ⟨a, rest, -, hact⟩
  · exact ⟨hinv, rfl⟩
  · have hstart : State.Inv { s with host := rest } := hinv.congr hinv.memoryWf rfl rfl rfl rfl rfl
    obtain ⟨hinv', hparams⟩ := performAction_keeps_inv hstart hact
    exact ⟨hinv', hparams⟩

end Sys2Proof.Machine

namespace Sys2Proof.Machine

/-! ### The bounds of what a command writes (10_state.md R41) -/

/-- A register never holds more than the number stored in it. -/
theorem toNat_ofNat_le (w n : Nat) : (BitVec.ofNat w n).toNat ≤ n := by
  rw [BitVec.toNat_ofNat]
  exact Nat.mod_le n (2 ^ w)

/-- The bounds R41 derives, each for a register that is not as it was. -/
structure WritesWithin (s t : State) : Prop where
  paylen : t.paylen = s.paylen ∨ t.paylen.toNat ≤ s.params.payDepth
  frmlen : t.frmlen = s.frmlen ∨ t.frmlen.toNat ≤ s.params.frmDepth
  bitlen : t.bitlen = s.bitlen ∨ t.bitlen.toNat ≤ s.params.bitDepth
  bitpos : t.bitpos = s.bitpos ∨ t.bitpos.toNat ≤ 3 * s.params.pixDepth
  dlen : t.dlen = s.dlen ∨ t.dlen.toNat ≤ s.params.payDepth ∨ t.dlen.toNat ≤ 10000000
  hbpp : t.hbpp = s.hbpp ∨ t.hbpp.toNat = 1 ∨ t.hbpp.toNat = 2 ∨ t.hbpp.toNat = 3
  capacity : s.nsamp.toNat ≤ s.params.pixDepth →
    (t.capbits = s.capbits ∨ t.capbits.toNat ≤ 3 * s.params.pixDepth) ∧
    (t.capbytes = s.capbytes ∨ t.capbytes.toNat ≤ 3 * s.params.pixDepth / 8)
  avail : t.avail = s.avail ∨ t.avail.toNat ≤ 3 * s.params.pixDepth / 8
  req : t.req = s.req ∨ t.req.toNat ≤ s.params.payDepth

theorem WritesWithin.refl (s : State) : WritesWithin s s :=
  ⟨.inl rfl, .inl rfl, .inl rfl, .inl rfl, .inl rfl, .inl rfl, fun _ => ⟨.inl rfl, .inl rfl⟩, .inl rfl, .inl rfl⟩

section
variable {s u : State} (h : WritesWithin s u)
include h

theorem WritesWithin.succeed : WritesWithin s u.succeed := { h with }

theorem WritesWithin.raise (k : ErrorKind) : WritesWithin s (u.raise k) := { h with }

theorem WritesWithin.putPay {v : Bytes} (hv : v.length ≤ s.params.payDepth) : WritesWithin s (u.putPay v) :=
  { h with paylen := .inr ((toNat_ofNat_le _ _).trans hv) }

theorem WritesWithin.putFrm {v : Bytes} (hv : v.length ≤ s.params.frmDepth) : WritesWithin s (u.putFrm v) :=
  { h with frmlen := .inr ((toNat_ofNat_le _ _).trans hv) }

theorem WritesWithin.putBits {v : Bits} (hv : v.length ≤ s.params.bitDepth) : WritesWithin s (u.putBits v) :=
  { h with bitlen := .inr ((toNat_ofNat_le _ _).trans hv) }

theorem WritesWithin.latched {p n : Nat} (hn : n ≤ s.params.bitDepth) (hpos : p + n ≤ 3 * s.params.pixDepth) :
    WritesWithin s (u.latched p n) := by
  have hlen := length_readBits u.bpp.toNat p n u
  refine { h with bitlen := .inr ?_, bitpos := .inr ?_ } <;>
    refine (toNat_ofNat_le _ _).trans ?_ <;> rwa [hlen]

theorem WritesWithin.withHeader {head : Header} (hlen : head.len.toNat ≤ 10000000)
    (hbpp : head.hbpp.toNat = 1 ∨ head.hbpp.toNat = 2 ∨ head.hbpp.toNat = 3) :
    WritesWithin s (u.withHeader head) :=
  { h with dlen := .inr (.inr hlen), hbpp := .inr hbpp }

theorem WritesWithin.shortReported (havail : u.capbytes.toNat ≤ 3 * s.params.pixDepth / 8)
    (hreq : u.dlen.toNat ≤ s.params.payDepth) : WritesWithin s u.shortReported :=
  { h with avail := .inr havail,
           req := .inr (by rwa [State.shortReported, BitVec.toNat_setWidth_of_le (by decide)]) }

theorem WritesWithin.imaged {p n : Nat} (hpos : p + n ≤ 3 * s.params.pixDepth) : WritesWithin s (u.imaged p n) := by
  rw [State.imaged_eq]
  exact { h with bitpos := .inr ((toNat_ofNat_le _ _).trans hpos) }

end

/-- A legal image has at most `PIX_DEPTH` samples of at most three slots each (R26, R27). -/
theorem mul_bpp_le {s : State} (hlegal : ImageLegal s) : s.nsamp.toNat * s.bpp.toNat ≤ 3 * s.params.pixDepth := by
  rw [Nat.mul_comm]
  exact Nat.mul_le_mul (bpp_bounds hlegal.1).2 hlegal.2

theorem capRegister_le {s : State} (hlegal : ImageLegal s) :
    (capRegister s.nsamp s.bpp).toNat ≤ 3 * s.params.pixDepth :=
  calc (capRegister s.nsamp s.bpp).toNat ≤ s.nsamp.toNat * s.bpp.toNat - hdrBits := toNat_ofNat_le _ _
    _ ≤ s.nsamp.toNat * s.bpp.toNat := Nat.sub_le _ _
    _ ≤ 3 * s.params.pixDepth := mul_bpp_le hlegal

theorem capBytesRegister_le {s : State} (hlegal : ImageLegal s) :
    (BitVec.ofNat 64 ((capRegister s.nsamp s.bpp).toNat / 8)).toNat ≤ 3 * s.params.pixDepth / 8 :=
  (toNat_ofNat_le _ _).trans (Nat.div_le_div_right (capRegister_le hlegal))

theorem WritesWithin.capReported {s u : State} (h : WritesWithin s u) (hnsamp : u.nsamp = s.nsamp) (hbpp : u.bpp = s.bpp)
    (hlegal : ImageLegal s) : WritesWithin s u.capReported := by
  rw [State.capReported, hnsamp, hbpp]
  exact { h with capacity := fun _ => ⟨.inr (capRegister_le hlegal), .inr (capBytesRegister_le hlegal)⟩ }

/-- The staged body is no longer than the secret, so within `PAY_DEPTH` (R172). -/
theorem length_staged_le {s : State} (hfits : FrameFits s) : s.staged.1.length ≤ s.params.payDepth := by
  have hle : s.staged.1.length ≤ s.secret.length := compressStage_length rfl
  rw [length_secret] at hle
  exact hle.trans hfits.1

theorem fallbackBpp_cases (m : Byte) : fallbackBpp m = 1 ∨ fallbackBpp m = 2 ∨ fallbackBpp m = 3 := by
  rw [fallbackBpp]
  split
  · assumption
  · exact .inl rfl

/-- A parsed header's bits-per-pixel field is legal (R96, R97). -/
theorem parseHeader_hbpp (b : Bits) : (parseHeader b).hbpp.toNat = 1 ∨ (parseHeader b).hbpp.toNat = 2 ∨
    (parseHeader b).hbpp.toNat = 3 := by
  have hbpp : (parseHeader b).hbpp.toNat = fallbackBpp (parseHeader b).metadata := headerBpp_toNat _
  rw [hbpp]
  exact fallbackBpp_cases _

theorem writesWithin_framed {s : State} (hfits : FrameFits s) : WritesWithin s s.framed := by
  have hframe : WritesWithin s (s.putFrm (packHeader (BitVec.ofNat 32 s.staged.1.length) s.staged.2 s.bpp ++ s.staged.1)) :=
    (WritesWithin.refl s).putFrm (by rw [length_frame]; exact hfits.2)
  exact { hframe with dlen := .inr (.inl ((toNat_ofNat_le _ _).trans (length_staged_le hfits))) }

theorem writesWithin_streamed {s : State} (hfits : FrameFits s)
    (hbits : 8 * s.framed.frmlen.toNat ≤ s.params.bitDepth) : WritesWithin s s.framed.streamed :=
  (writesWithin_framed hfits).putBits (by rwa [length_bytesToBits, length_frmBytes])

theorem writesWithin_prepared {s : State} (hlegal : ImageLegal s) (hfits : FrameFits s)
    (hbits : 8 * s.framed.frmlen.toNat ≤ s.params.bitDepth) : WritesWithin s s.prepared :=
  (writesWithin_streamed hfits hbits).capReported (by simp) (by simp) hlegal

theorem capbytes_prepared_le {s : State} (hlegal : ImageLegal s) :
    s.prepared.capbytes.toNat ≤ 3 * s.params.pixDepth / 8 := by
  have hle := capBytesRegister_le hlegal
  simpa [State.prepared, State.capReported] using hle

/-- The length field `REQ` reports is that of a body no longer than the secret (R40). -/
theorem dlen_prepared_le {s : State} (hfits : FrameFits s) : s.prepared.dlen.toNat ≤ s.params.payDepth := by
  have hdlen : s.prepared.dlen = BitVec.ofNat 32 s.staged.1.length := by
    simp [State.prepared, State.capReported, State.streamed, State.framed]
  rw [hdlen]
  exact (toNat_ofNat_le _ _).trans (length_staged_le hfits)

theorem writesWithin_headerRead {s : State} (hwf : s.params.wf = true) (hlegal : ImageLegal s)
    (hsamples : 40 ≤ s.nsamp.toNat) : WritesWithin s (s.latched 0 40) := by
  obtain ⟨-, -, -, -, -, hdepth, -⟩ := (paramsWf_iff s.params).mp hwf
  have hn := hlegal.2
  exact (WritesWithin.refl s).latched hdepth (by omega)

theorem writesWithin_headerParsed {s : State} (hwf : s.params.wf = true) (hlegal : ImageLegal s)
    (hsamples : 40 ≤ s.nsamp.toNat) (hlen : s.header.len.toNat ≤ 10000000) : WritesWithin s s.headerParsed :=
  (writesWithin_headerRead hwf hlegal hsamples).withHeader hlen (parseHeader_hbpp _)

theorem writesWithin_bodyRead {s : State} (hwf : s.params.wf = true) (hread : BodyReadable s) :
    WritesWithin s s.bodyRead :=
  (writesWithin_headerParsed hwf hread.legal hread.samples hread.len).latched hread.inBits
    (hread.inImage.trans (mul_bpp_le hread.legal))

theorem writesWithin_bodyPacked {s : State} (hwf : s.params.wf = true) (hread : BodyReadable s)
    (hfrm : s.header.len.toNat ≤ s.params.frmDepth) : WritesWithin s s.bodyPacked :=
  (writesWithin_bodyRead hwf hread).putFrm (by rwa [length_imageBody])

/-- Every write is within the depth, or the image, its command has tested (R41). -/
theorem Ends.writesWithin {s t : State} {i : Instr} (hends : Ends s i t) (hwf : s.params.wf = true) :
    WritesWithin s t := by
  cases hends with
  | failsAtOnce => exact (WritesWithin.refl s).raise _
  | b2bits _ hbits => exact ((WritesWithin.refl s).putBits (by rwa [length_bytesToBits, length_frmBytes])).succeed
  | bits2b _ hfrm => exact ((WritesWithin.refl s).putFrm (by rwa [length_bitsToBytes, length_stream])).succeed
  | capq hbpp =>
    exact { WritesWithin.refl s with
      capacity := fun hn => ⟨.inr (capRegister_le ⟨hbpp, hn⟩), .inr (capBytesRegister_le ⟨hbpp, hn⟩)⟩ }
  | fbuild hfits => exact (writesWithin_framed hfits).succeed
  | fparse _ _ hlen => exact ((WritesWithin.refl s).withHeader hlen (parseHeader_hbpp _)).succeed
  | fbody _ _ hpay => exact ((WritesWithin.refl s).putPay hpay).succeed
  | lsbw hlegal _ hroom => exact ((WritesWithin.refl s).imaged (hroom.trans (mul_bpp_le hlegal))).succeed
  | lsbr hlegal hbits hroom => exact ((WritesWithin.refl s).latched hbits (hroom.trans (mul_bpp_le hlegal))).succeed
  | embedTooDeep _ hfits => exact (writesWithin_framed hfits).raise _
  | embedNoSamples _ hfits hbits => exact (writesWithin_streamed hfits hbits).raise _
  | embedNoRoom hlegal hfits hbits =>
    exact ((writesWithin_prepared hlegal hfits hbits).shortReported (capbytes_prepared_le hlegal)
      (dlen_prepared_le hfits)).raise _
  | embed hlegal hfits hbits _ hroom =>
    have hpos : 0 + s.prepared.bitlen.toNat ≤ 3 * s.params.pixDepth := by
      rw [Nat.zero_add]
      exact hroom.trans (mul_bpp_le hlegal)
    exact ((writesWithin_prepared hlegal hfits hbits).imaged hpos).succeed
  | extractBadLength hlegal hsamples => exact (writesWithin_headerRead hwf hlegal hsamples).raise _
  | extractNoBody hlegal hsamples hlen => exact (writesWithin_headerParsed hwf hlegal hsamples hlen).raise _
  | extractTooDeep hread => exact (writesWithin_bodyRead hwf hread).raise _
  | extractNoPayload hread hfrm => exact (writesWithin_bodyPacked hwf hread hfrm).raise _
  | extract hread hfrm _ hpay => exact ((writesWithin_bodyPacked hwf hread hfrm).putPay hpay).succeed

/-- Settles O53: the bounds hold of every end. -/
theorem engineWritesStayWithinTheirBounds : Obligations.EngineWritesStayWithinTheirBounds := by
  intro i s t hwf hrun
  obtain ⟨hpay, hfrm, hbits, hpos, hdlen, hhbpp, hcap, havail, hreq⟩ := (ends_iff.mpr hrun).writesWithin hwf
  exact ⟨hpay, hfrm, hbits, hpos, hdlen, hhbpp, hcap, havail, hreq⟩

end Sys2Proof.Machine

namespace Sys2Proof.Machine

/-! ### What `EMBED` leaves (45_orchestration.md R180, R183) -/

/-- The stage's answer, in the terms of the statements. -/
theorem staged_eq {s : State} {body : Bytes} {c : Bool}
    (hstage : compressStage Config.codec s.params.deflatePresent ((List.range s.paylen.toNat).map s.readPay)
      (s.ctrl == 1) = (body, c)) : s.staged = (body, c) := by
  rw [State.staged, secret_eq, cdis_eq, hstage]

/-- A frame held is held wherever `FRM`, `FRMLEN`, `DLEN` and `META` are kept. -/
theorem FrameHeld.congr {body : Bytes} {c : Bool} {s t t' : State} (h : FrameHeld body c s t) (hfrm : t'.frm = t.frm)
    (hepoch : t'.epoch = t.epoch) (hfrmlen : t'.frmlen = t.frmlen) (hdlen : t'.dlen = t.dlen)
    (hmeta : t'.metadata = t.metadata) : FrameHeld body c s t' := by
  have hread := State.readFrm_congr hfrm hepoch
  constructor <;> simp only [hread, hfrmlen, hdlen, hmeta]
  exacts [h.frmlen, h.dlen, h.metadata, h.length3, h.length2, h.length1, h.length0, h.metaByte, h.bodyBytes, h.stale]

/-- A stream held is held wherever `BITS`, `BITLEN`, `FRM` and `FRMLEN` are kept. -/
theorem StreamHeld.congr {s t t' : State} (h : StreamHeld s t) (hbits : t'.bits = t.bits) (hfrm : t'.frm = t.frm)
    (hepoch : t'.epoch = t.epoch) (hbitlen : t'.bitlen = t.bitlen) (hfrmlen : t'.frmlen = t.frmlen) :
    StreamHeld s t' := by
  have hreadFrm := State.readFrm_congr hfrm hepoch
  have hreadBit := State.readBit_congr hbits hepoch
  constructor <;> simp only [hreadFrm, hreadBit, hbitlen, hfrmlen]
  exacts [h.bitlen, h.streamBits, h.stale]

theorem FrameHeld.raise {body : Bytes} {c : Bool} {s t : State} (h : FrameHeld body c s t) (k : ErrorKind) :
    FrameHeld body c s (t.raise k) :=
  h.congr rfl rfl rfl rfl rfl

theorem FrameHeld.streamed {body : Bytes} {c : Bool} {s t : State} (h : FrameHeld body c s t) :
    FrameHeld body c s t.streamed :=
  h.congr rfl rfl rfl rfl rfl

theorem FrameHeld.capReported {body : Bytes} {c : Bool} {s t : State} (h : FrameHeld body c s t) :
    FrameHeld body c s t.capReported :=
  h.congr rfl rfl rfl rfl rfl

theorem FrameHeld.shortReported {body : Bytes} {c : Bool} {s t : State} (h : FrameHeld body c s t) :
    FrameHeld body c s t.shortReported :=
  h.congr rfl rfl rfl rfl rfl

theorem FrameHeld.imaged {body : Bytes} {c : Bool} {s t : State} (h : FrameHeld body c s t) (p n : Nat) :
    FrameHeld body c s (t.imaged p n) := by
  rw [State.imaged_eq]
  exact h.congr rfl rfl rfl rfl rfl

theorem StreamHeld.succeed {s t : State} (h : StreamHeld s t) : StreamHeld s t.succeed := h.congr rfl rfl rfl rfl rfl

theorem StreamHeld.raise {s t : State} (h : StreamHeld s t) (k : ErrorKind) : StreamHeld s (t.raise k) :=
  h.congr rfl rfl rfl rfl rfl

theorem StreamHeld.capReported {s t : State} (h : StreamHeld s t) : StreamHeld s t.capReported :=
  h.congr rfl rfl rfl rfl rfl

theorem StreamHeld.shortReported {s t : State} (h : StreamHeld s t) : StreamHeld s t.shortReported :=
  h.congr rfl rfl rfl rfl rfl

theorem StreamHeld.imaged {s t : State} (h : StreamHeld s t) (p n : Nat) : StreamHeld s (t.imaged p n) := by
  rw [State.imaged_eq]
  exact h.congr rfl rfl rfl rfl rfl

section
variable {s : State} (hwf : s.params.wf = true) (hfits : FrameFits s)
include hwf hfits

/-- R7 keeps the body of a frame that fits below 2^32 bytes, so its length field is exact. -/
theorem frameHeld_framed : FrameHeld s.staged.1 s.staged.2 s s.framed := by
  obtain ⟨-, -, -, -, hdepth, -, -⟩ := (paramsWf_iff s.params).mp hwf
  obtain ⟨-, hfrm⟩ := hfits
  exact frameHeld_build s _ _ (by omega)

theorem frmlen_framed : s.framed.frmlen.toNat = 5 + s.staged.1.length := (frameHeld_framed hwf hfits).frmlen

theorem frameHeld_prepared : FrameHeld s.staged.1 s.staged.2 s s.prepared :=
  (frameHeld_framed hwf hfits).streamed.capReported

variable (hbits : 8 * (5 + s.staged.1.length) ≤ s.params.bitDepth)
include hbits

/-- R7 keeps the stream of a frame that fits below 2^64 bits, so `BITLEN` is exact. -/
theorem streamHeld_streamed : StreamHeld s s.framed.streamed := by
  obtain ⟨-, -, -, -, -, -, hdepth⟩ := (paramsWf_iff s.params).mp hwf
  have held : StreamHeld s.framed s.framed.streamed :=
    streamHeld_putBits s.framed (by rw [frmlen_framed hwf hfits]; omega)
  have hread := State.readBit_congr (s := s.framed) (t := s) (by simp [State.framed]) (by simp [State.framed])
  exact ⟨held.bitlen, held.streamBits, fun k hk => (held.stale k hk).trans (hread k)⟩

theorem streamHeld_prepared : StreamHeld s s.prepared :=
  (streamHeld_streamed hwf hfits hbits).capReported

theorem bitlen_prepared : s.prepared.bitlen.toNat = 8 * (5 + s.staged.1.length) := by
  rw [(streamHeld_prepared hwf hfits hbits).bitlen, (frameHeld_prepared hwf hfits).frmlen]

end

/-- The capacity of a legal image fits its register (R41). -/
theorem capbits_prepared {s : State} (hwf : s.params.wf = true) (hlegal : ImageLegal s) :
    s.prepared.capbits.toNat = s.nsamp.toNat * s.bpp.toNat - 40 := by
  have hslots := slots_lt hwf hlegal.1 hlegal.2
  rw [State.slots] at hslots
  have hcap : s.prepared.capbits = capRegister s.nsamp s.bpp := by
    simp [State.prepared, State.capReported, State.streamed, State.framed]
  rw [hcap, capRegister_toNat (by rw [capBits]; omega)]
  rfl

theorem capbytes_prepared (s : State) : s.prepared.capbytes.toNat = s.prepared.capbits.toNat / 8 :=
  capacityAgrees_capReported _

/-- Settles O33: each failing test ends the command in the state its earlier steps have left. -/
theorem embedFailsInOrderKeepingEarlierSteps : Obligations.EmbedFailsInOrderKeepingEarlierSteps := by
  intro s body c hwf hstage
  have hstaged := staged_eq hstage
  obtain ⟨rfl, rfl⟩ : s.staged.1 = body ∧ s.staged.2 = c := by simp [hstaged]
  have ends {t : State} (h : Ends s .embed t) : exec .embed s = .next t := ends_iff.mp h
  refine ⟨fun hbad => ends (t := s.raise .invalidParameter) (.failsAtOnce (.inl ⟨rfl, hbad⟩)), fun hbpp hdeep => ?entry,
    fun hbpp hn hpay hfrm hdeep => ?tooDeep, fun hbpp hzero hpay hfrm hbits => ?noSamples,
    fun hbpp hsamples hn hpay hfrm hbits hover => ?noRoom⟩
  case entry =>
    refine ends (t := s.raise .resourceExceeded) (.failsAtOnce (.inr ⟨rfl, hbpp, hdeep.imp_right (fun hdeep hfits => ?_)⟩))
    obtain ⟨hpay, hfrm⟩ := hfits
    omega
  case tooDeep =>
    have hdeep' : 8 * s.framed.frmlen.toNat > s.params.bitDepth := by rwa [frmlen_framed hwf ⟨hpay, hfrm⟩]
    refine ⟨_, ends (.embedTooDeep ⟨hbpp, hn⟩ ⟨hpay, hfrm⟩ hdeep'), ?_, (frameHeld_framed hwf ⟨hpay, hfrm⟩).raise _⟩
    simp [State.raise, ErrorKind.code, Status.error, State.framed]
  case noSamples =>
    have hlegal : ImageLegal s := ⟨hbpp, by simp [hzero]⟩
    have hbits' : 8 * s.framed.frmlen.toNat ≤ s.params.bitDepth := by rwa [frmlen_framed hwf ⟨hpay, hfrm⟩]
    refine ⟨_, ends (.embedNoSamples hlegal ⟨hpay, hfrm⟩ hbits' hzero), ?_,
      (frameHeld_framed hwf ⟨hpay, hfrm⟩).streamed.raise _, (streamHeld_streamed hwf ⟨hpay, hfrm⟩ hbits).raise _⟩
    simp [State.raise, ErrorKind.code, Status.error, State.framed, State.streamed]
  case noRoom =>
    have hfits : FrameFits s := ⟨hpay, hfrm⟩
    have hbits' : 8 * s.framed.frmlen.toNat ≤ s.params.bitDepth := by rwa [frmlen_framed hwf hfits]
    have hover' : s.prepared.bitlen.toNat > s.slots := by rwa [bitlen_prepared hwf hfits hbits]
    have hcap := capbits_prepared hwf ⟨hbpp, hn⟩
    have hdlen := (frameHeld_prepared hwf hfits).dlen
    refine ⟨_, ends (.embedNoRoom ⟨hbpp, hn⟩ hfits hbits' hsamples hover'), ?_,
      (frameHeld_prepared hwf hfits).shortReported.raise _, (streamHeld_prepared hwf hfits hbits).shortReported.raise _, ?_⟩
    · simp [State.raise, ErrorKind.code, Status.error, State.shortReported, State.prepared, State.framed, State.streamed,
        State.capReported]
    simp only [State.raise_capbits, State.raise_capbytes, State.raise_avail, State.raise_req, State.shortReported]
    exact ⟨hcap.trans (by omega), capbytes_prepared s, trivial, (BitVec.toNat_setWidth_of_le (by decide)).trans hdlen⟩

/-- What the slots hold depends on the samples before and after alone. -/
theorem SlotsHold.congr_states {bpp p n : Nat} {bit : Nat → Bool} {s s' t t' : State} (h : SlotsHold bpp p n bit s t)
    (hs : ∀ q, s'.readPix q = s.readPix q) (ht : ∀ q, t'.readPix q = t.readPix q) : SlotsHold bpp p n bit s' t' := by
  intro q u hu
  rw [hs, ht]
  exact h q u hu

/-- The slots `LSBW`'s write fills hold `BITS[0..n)` (R152, R154). -/
theorem slotsHold_imaged {s : State} (hlegal : ImageLegal s) (p n : Nat) :
    SlotsHold s.bpp.toNat p n (s.imaged p n).succeed.readBit s (s.imaged p n).succeed := by
  obtain ⟨hb, hb3⟩ := bpp_bounds hlegal.1
  have hread : ∀ k, s.readBit k = (s.imaged p n).succeed.readBit k :=
    State.readBit_congr (by rw [State.imaged_eq]; rfl) (by rw [State.imaged_eq]; rfl)
  exact (slotsHold_writeBits_stream hb (by omega) p n s).congr (fun k _ => hread k)

/-- Settles O34: every test passes, and the slots hold the prepared stream. -/
theorem embedWritesTheFrameIntoTheImage : Obligations.EmbedWritesTheFrameIntoTheImage := by
  intro s body c hwf hstage hbpp hn hpay hfrm hbits hroom
  have hstaged := staged_eq hstage
  obtain ⟨rfl, rfl⟩ : s.staged.1 = body ∧ s.staged.2 = c := by simp [hstaged]
  have hfits : FrameFits s := ⟨hpay, hfrm⟩
  have hlegal : ImageLegal s := ⟨hbpp, hn⟩
  have hbits' : 8 * s.framed.frmlen.toNat ≤ s.params.bitDepth := by rwa [frmlen_framed hwf hfits]
  have hroom' : s.prepared.bitlen.toNat ≤ s.slots := by rwa [bitlen_prepared hwf hfits hbits]
  have hsamples : s.nsamp ≠ 0 := by
    rintro hzero
    simp [hzero] at hroom
  have hpos : BitVec.ofNat 64 (0 + s.prepared.bitlen.toNat) = s.prepared.bitlen := by
    rw [Nat.zero_add, BitVec.ofNat_toNat, BitVec.setWidth_eq]
  refine ⟨_, ends_iff.mp (.embed hlegal hfits hbits' hsamples hroom'), ?frame,
    ((frameHeld_prepared hwf hfits).imaged _ _).succeed, ((streamHeld_prepared hwf hfits hbits).imaged _ _).succeed, ?rest⟩
  case frame =>
    simp [State.succeed, Status.success, State.prepared, State.framed, State.streamed, State.capReported]
  case rest =>
    have hslots := slotsHold_imaged hlegal.prepared 0 s.prepared.bitlen.toNat
    rw [prepared_bpp] at hslots
    have hread := State.readPix_congr (prepared_pix s).symm (prepared_epoch s).symm
    simp only [State.imaged_eq, State.succeed_capbits, State.succeed_capbytes, State.succeed_bitpos,
      State.succeed_bitlen] at hslots ⊢
    exact ⟨capbits_prepared hwf hlegal, capbytes_prepared s, hpos, hslots.congr_states hread (fun _ => rfl)⟩

/-- A stored body is the secret itself (R170, R173). -/
theorem staged_of_flag_false {s : State} (h : s.staged.2 = false) : s.staged.1 = s.secret := by
  obtain ⟨-, -, -, hstored, -⟩ :=
    compressionIsUsedOnlyWhenStrictlySmaller Config.codec s.params.deflatePresent s.secret s.cdis
  exact hstored h

/-- Settles O39: the test on bits is the test on bytes, and it is the only one left to fail. -/
theorem embedSucceedsUpToTheCapacity : Obligations.EmbedSucceedsUpToTheCapacity := by
  intro s body c hwf hstage hbpp hn hpay hfrm hbits hheader
  have hbytes := bitTestAgreesWithByteTest s.nsamp.toNat s.bpp.toNat body.length
  have hstored : c = false → body.length = s.paylen.toNat := by
    have hstaged := staged_eq hstage
    obtain ⟨rfl, rfl⟩ : s.staged.1 = body ∧ s.staged.2 = c := by simp [hstaged]
    intro hflag
    rw [staged_of_flag_false hflag, length_secret]
  by_cases hroom : 8 * (5 + body.length) ≤ s.nsamp.toNat * s.bpp.toNat
  · obtain ⟨t, hrun, hframe, -⟩ :=
      embedWritesTheFrameIntoTheImage s body c hwf hstage hbpp hn hpay hfrm hbits hroom
    exact ⟨t, hrun, hstored, fun _ => by rw [hframe], fun hover => by omega⟩
  · have hsamples : s.nsamp ≠ 0 := by
      rintro hzero
      simp [hzero] at hheader
    obtain ⟨-, -, -, -, hover⟩ := embedFailsInOrderKeepingEarlierSteps s body c hwf hstage
    obtain ⟨t, hrun, hframe, -, -, hcapbits, hcapbytes, havail, hreq⟩ :=
      hover hbpp hsamples hn hpay hfrm hbits (Nat.lt_of_not_le hroom)
    have hcap : t.avail.toNat = capBytes s.nsamp.toNat s.bpp.toNat := by
      rw [havail, hcapbytes, hcapbits, capBytes, capBits, hdrBits]
      omega
    exact ⟨t, hrun, hstored, fun hle => by omega, fun _ => ⟨by rw [hframe], hcap, hreq⟩⟩

end Sys2Proof.Machine

namespace Sys2Proof.Machine

/-! ### What a command does not read (10_state.md R35, R44, R45, R49, R78)

Two runs of a command are compared that start in states with the same operands: everything is equal but the registers no
command reads, the entries of `PAY` past `PAYLEN` and those of `PIX` past `NSAMP`. -/

/-- `WriteBits` computes `PIX` from `PIX` alone. -/
theorem writeBits_pix_congr (bpp p : Nat) (v : Bits) {s s' : State} (hpix : s'.pix = s.pix) (hepoch : s'.epoch = s.epoch) :
    (writeBits bpp p v s').pix = (writeBits bpp p v s).pix := by
  induction v generalizing p s s' with
  | nil => exact hpix
  | cons b v ih =>
    rw [writeBits_cons, writeBits_cons]
    refine ih (p + 1) ?_ hepoch
    rw [State.writePix_pix, State.writePix_pix, hpix, State.readPix_congr hpix hepoch]

/-- `ReadBits` within the image depends on the image's samples alone (R98, R151). -/
theorem readBits_congr_below {bpp p n N : Nat} {s s' : State} (hb : 0 < bpp) (hroom : p + n ≤ N * bpp)
    (h : ∀ q < N, s'.readPix q = s.readPix q) : readBits bpp p n s' = readBits bpp p n s := by
  refine memRead_congr (fun j hj => ?_)
  have hq : (p + j) / bpp < N := (Nat.div_lt_iff_lt_mul hb).mpr (by omega)
  rw [State.readSlot, State.readSlot, slotAddr]
  dsimp only
  rw [h _ hq]

/-- `s` with the registers no command reads, and the buffers `PAY` and `PIX`, of `m`. -/
def State.masked (s m : State) : State :=
  { s with cmd := m.cmd, status := m.status, result := m.result, hbpp := m.hbpp, capbits := m.capbits,
           capbytes := m.capbytes, avail := m.avail, req := m.req, pay := m.pay, pix := m.pix }

/-- Two runs of one command, begun in `s` and in `s.masked m`, have come to `u` and `u'`. -/
structure Matched (s m u u' : State) : Prop where
  same : u' = u.masked u'
  nsamp : u.nsamp = s.nsamp
  bpp : u.bpp = s.bpp
  epoch : u.epoch = s.epoch
  cmd : u'.cmd = m.cmd ∧ u.cmd = s.cmd
  hbpp : u'.hbpp = u.hbpp ∨ u'.hbpp = m.hbpp ∧ u.hbpp = s.hbpp
  capbits : u'.capbits = u.capbits ∨ u'.capbits = m.capbits ∧ u.capbits = s.capbits
  capbytes : u'.capbytes = u.capbytes ∨ u'.capbytes = m.capbytes ∧ u.capbytes = s.capbytes
  avail : u'.avail = u.avail ∨ u'.avail = m.avail ∧ u.avail = s.avail
  req : u'.req = u.req ∨ u'.req = m.req ∧ u.req = s.req
  pay : (u'.pay = m.pay ∧ u.pay = s.pay) ∨ m.pay = s.pay ∧ u'.pay = u.pay
  pix : m.pix = s.pix → u'.pix = u.pix
  below : ∀ q < s.nsamp.toNat, u'.readPix q = u.readPix q
  above : ∀ q, s.nsamp.toNat ≤ q → u.readPix q = s.readPix q ∧ u'.readPix q = (s.masked m).readPix q

/-- Both runs have ended, with one code. -/
structure MatchedEnd (s m t t' : State) : Prop extends Matched s m t t' where
  status : t'.status = t.status
  result : t'.result = t.result

/-- The samples of the image are the same at the start of both runs. -/
abbrev SamplesAgree (s m : State) : Prop := ∀ q < s.nsamp.toNat, (s.masked m).readPix q = s.readPix q

theorem Matched.start {s m : State} (hsamples : SamplesAgree s m) : Matched s m s (s.masked m) where
  same := rfl
  nsamp := rfl
  bpp := rfl
  epoch := rfl
  cmd := ⟨rfl, rfl⟩
  hbpp := .inr ⟨rfl, rfl⟩
  capbits := .inr ⟨rfl, rfl⟩
  capbytes := .inr ⟨rfl, rfl⟩
  avail := .inr ⟨rfl, rfl⟩
  req := .inr ⟨rfl, rfl⟩
  pay := .inl ⟨rfl, rfl⟩
  pix := id
  below := hsamples
  above := fun _ _ => ⟨rfl, rfl⟩

section
variable {s m u u' : State} (h : Matched s m u u')
include h

theorem Matched.succeed : MatchedEnd s m u.succeed u'.succeed :=
  { h with same := by rw [h.same]; rfl, status := rfl, result := rfl }

theorem Matched.raise (k : ErrorKind) : MatchedEnd s m (u.raise k) (u'.raise k) :=
  { h with same := by rw [h.same]; rfl, status := rfl, result := rfl }

theorem Matched.params_eq : u'.params = u.params := by
  rw [h.same]
  rfl

theorem Matched.frmlen_eq : u'.frmlen = u.frmlen := by
  rw [h.same]
  rfl

theorem Matched.bitlen_eq : u'.bitlen = u.bitlen := by
  rw [h.same]
  rfl

theorem Matched.payload_eq (n : Nat) : u'.payload n = u.payload n := by
  rw [h.same]
  rfl

theorem Matched.putFrm (v : Bytes) : Matched s m (u.putFrm v) (u'.putFrm v) :=
  { h with same := by rw [h.same]; rfl }

theorem Matched.putPay (hpay : m.pay = s.pay) (v : Bytes) : Matched s m (u.putPay v) (u'.putPay v) := by
  have heq : u'.pay = u.pay := by
    rcases h.pay with ⟨hm, hs⟩ | ⟨-, heq⟩
    · exact (hm.trans hpay).trans hs.symm
    · exact heq
  have hwritten : (u'.putPay v).pay = (u.putPay v).pay := by rw [State.putPay_pay, State.putPay_pay, heq]
  exact { h with same := by rw [h.same]; rfl, pay := .inr ⟨hpay, hwritten⟩ }

theorem Matched.withFrameRegisters (d : BitVec 32) (b : Byte) :
    Matched s m { u with dlen := d, metadata := b } { u' with dlen := d, metadata := b } :=
  { h with same := by rw [h.same]; rfl }

theorem Matched.framed (hsecret : u'.secret = u.secret) : Matched s m u.framed u'.framed := by
  have hstaged : u'.staged = u.staged := by
    rw [State.staged, State.staged, hsecret, h.same]
    rfl
  have hbpp : u'.bpp = u.bpp := by rw [h.same]; rfl
  rw [State.framed, State.framed, hstaged, hbpp]
  exact (h.putFrm _).withFrameRegisters _ _

theorem Matched.streamed : Matched s m u.streamed u'.streamed :=
  { h with same := by rw [h.same]; rfl }

theorem Matched.capReported : Matched s m u.capReported u'.capReported := by
  have hcap : capRegister u'.nsamp u'.bpp = capRegister u.nsamp u.bpp := by rw [h.same]; rfl
  exact { h with same := by rw [h.same]; rfl, capbits := .inl hcap, capbytes := .inl (by rw [State.capReported, hcap]; rfl) }

/-- The report is of the capacity both runs have just written. -/
theorem Matched.shortReported (hcap : u'.capbytes = u.capbytes) : Matched s m u.shortReported u'.shortReported :=
  { h with same := by rw [h.same]; rfl, avail := .inl hcap, req := .inl (by rw [State.shortReported, h.same]; rfl) }

theorem Matched.withHeader (head : Header) : Matched s m (u.withHeader head) (u'.withHeader head) :=
  { h with same := by rw [h.same]; rfl, hbpp := .inl rfl }

/-- Bits at positions within the image are the same in both runs. -/
theorem Matched.readBits {p n : Nat} (hbpp : s.BppIs123) (hroom : p + n ≤ s.slots) :
    readBits u'.bpp.toNat p n u' = readBits u.bpp.toNat p n u := by
  have hbpp' : u'.bpp = u.bpp := by rw [h.same]; rfl
  rw [hbpp', h.bpp]
  exact readBits_congr_below (bpp_bounds hbpp).1 hroom h.below

theorem Matched.latched {p n : Nat} (hbpp : s.BppIs123) (hroom : p + n ≤ s.slots) :
    Matched s m (u.latched p n) (u'.latched p n) := by
  have hread := h.readBits hbpp hroom
  rw [State.latched, State.latched, hread]
  exact { h with same := by rw [h.same]; rfl }

/-- A write of `PIX` and `BITPOS` alone. -/
theorem Matched.withPix {px px' : List Host.Cell} (b : Word64) (hpix : m.pix = s.pix → px' = px)
    (hbelow : ∀ q < s.nsamp.toNat, State.readPix { u' with pix := px' } q = State.readPix { u with pix := px } q)
    (habove : ∀ q, s.nsamp.toNat ≤ q → State.readPix { u with pix := px } q = u.readPix q ∧
      State.readPix { u' with pix := px' } q = u'.readPix q) :
    Matched s m { u with pix := px, bitpos := b } { u' with pix := px', bitpos := b } :=
  { h with
    same := by rw [h.same]; rfl
    pix := hpix
    below := hbelow
    above := fun q hq => ⟨(habove q hq).1.trans (h.above q hq).1, (habove q hq).2.trans (h.above q hq).2⟩ }

/-- A write within the image puts the same bits into the same slots in both runs, and leaves the samples past it. -/
theorem Matched.imaged {p n : Nat} (hbpp : s.BppIs123) (hroom : p + n ≤ s.slots) :
    Matched s m (u.imaged p n) (u'.imaged p n) := by
  obtain ⟨hb, hb3⟩ := bpp_bounds hbpp
  have hb8 : s.bpp.toNat ≤ 8 := by omega
  have hbpp' : u'.bpp = s.bpp := by rw [h.same]; exact h.bpp
  have hepoch : u'.epoch = u.epoch := by rw [h.same]; rfl
  have hstream : u'.stream n = u.stream n := by rw [h.same]; rfl
  have hpix : (writeBits u.bpp.toNat p (u.stream n) u).pix = (writeBits s.bpp.toNat p (u.stream n) u).pix := by
    rw [h.bpp]
  have hpix' : (writeBits u'.bpp.toNat p (u'.stream n) u').pix = (writeBits s.bpp.toNat p (u.stream n) u').pix := by
    rw [hbpp', hstream]
  rw [State.imaged_eq, State.imaged_eq, hpix, hpix']
  have hwritten (w : State) (q : Nat) : State.readPix { w with pix := (writeBits s.bpp.toNat p (u.stream n) w).pix } q =
      (writeBits s.bpp.toNat p (u.stream n) w).readPix q :=
    congrArg (State.readPix · q) (writeBits_frame _ _ _ _).symm
  refine h.withPix _ (fun hsame => ?pix) (fun q hq => ?below) (fun q hq => ?above)
  case pix => exact writeBits_pix_congr _ _ _ (h.pix hsame) hepoch
  case below =>
    rw [hwritten, hwritten]
    refine BitVec.eq_of_getLsbD_eq (fun t ht => ?_)
    rw [readPix_writeBits hb hb8 _ _ _ _ _ ht, readPix_writeBits hb hb8 _ _ _ _ _ ht, h.below q hq]
  case above =>
    have houtside (w : State) : (writeBits s.bpp.toNat p (u.stream n) w).readPix q = w.readPix q := by
      refine readPix_writeBits_of_outside hb hb8 _ _ _ (fun t _ hin => ?_)
      rw [length_stream] at hin
      rw [State.slots] at hroom
      have := Nat.mul_le_mul_right s.bpp.toNat hq
      omega
    rw [hwritten, hwritten, houtside, houtside]
    exact ⟨rfl, rfl⟩

end

end Sys2Proof.Machine

namespace Sys2Proof.Machine

section
variable {s m : State}

theorem staged_masked (hsecret : (s.masked m).secret = s.secret) : (s.masked m).staged = s.staged := by
  rw [State.staged, hsecret]
  rfl

theorem frameFits_masked (hsecret : (s.masked m).secret = s.secret) : FrameFits (s.masked m) ↔ FrameFits s := by
  rw [FrameFits, staged_masked hsecret]
  rfl

/-- The tests of the first errors read operands only. -/
theorem FailsAtOnce.masked {k : ErrorKind} {i : Instr} (h : FailsAtOnce s k i)
    (hsecret : (s.masked m).secret = s.secret) : FailsAtOnce (s.masked m) k i := by
  cases i
  case fbuild => exact h.imp_right (mt (frameFits_masked hsecret).mp)
  case embed => exact h.imp_right (And.imp_right (And.imp_right (Or.imp_right (mt (frameFits_masked hsecret).mp))))
  all_goals exact h

/-- The header's forty positions are within an image of at least forty samples. -/
theorem header_inImage (hlegal : ImageLegal s) (hn : 40 ≤ s.nsamp.toNat) : 0 + 40 ≤ s.slots :=
  calc 0 + 40 ≤ s.nsamp.toNat * 1 := by omega
    _ ≤ s.slots := Nat.mul_le_mul_left _ (bpp_bounds hlegal.1).1

variable (hsamples : SamplesAgree s m)
include hsamples

theorem header_masked (hlegal : ImageLegal s) (hn : 40 ≤ s.nsamp.toNat) : (s.masked m).header = s.header :=
  congrArg parseHeader ((Matched.start hsamples).readBits hlegal.1 (header_inImage hlegal hn))

theorem headerRead_matched (hlegal : ImageLegal s) (hn : 40 ≤ s.nsamp.toNat) :
    Matched s m (s.latched 0 40) ((s.masked m).latched 0 40) :=
  (Matched.start hsamples).latched hlegal.1 (header_inImage hlegal hn)

theorem headerParsed_matched (hlegal : ImageLegal s) (hn : 40 ≤ s.nsamp.toNat) :
    Matched s m s.headerParsed (s.masked m).headerParsed := by
  rw [State.headerParsed, State.headerParsed, header_masked hsamples hlegal hn]
  exact (headerRead_matched hsamples hlegal hn).withHeader _

theorem BodyReadable.masked (h : BodyReadable s) : BodyReadable (s.masked m) := by
  obtain ⟨hlegal, hn, hlen, hroom, hbits⟩ := h
  have hheader := header_masked hsamples hlegal hn
  exact ⟨hlegal, hn, by rwa [hheader], by rw [hheader]; exact hroom, by rw [hheader]; exact hbits⟩

theorem bodyRead_matched (h : BodyReadable s) : Matched s m s.bodyRead (s.masked m).bodyRead := by
  rw [State.bodyRead, State.bodyRead, header_masked hsamples h.legal h.samples]
  exact (headerParsed_matched hsamples h.legal h.samples).latched h.legal.1 h.inImage

theorem imageBody_masked (h : BodyReadable s) : (s.masked m).imageBody = s.imageBody := by
  have hbits := (headerParsed_matched hsamples h.legal h.samples).readBits h.legal.1 h.inImage
  rw [headerParsed_bpp, headerParsed_bpp] at hbits
  rw [State.imageBody, State.imageBody, header_masked hsamples h.legal h.samples, hbits]

theorem bodyPacked_matched (h : BodyReadable s) : Matched s m s.bodyPacked (s.masked m).bodyPacked := by
  rw [State.bodyPacked, State.bodyPacked, imageBody_masked hsamples h]
  exact (bodyRead_matched hsamples h).putFrm _

/-- The end of a command is one of its operands alone: in the other run it ends at the same place, in a matching
state. `FBODY` and `EXTRACT` keep the entries of `PAY` past what they deliver, so for them `PAY` has to be equal. -/
theorem Ends.matched {t : State} {i : Instr} (hends : Ends s i t) (hsecret : (s.masked m).secret = s.secret)
    (hpay : i ∈ [.fbody, .extract] → m.pay = s.pay) : ∃ t', Ends (s.masked m) i t' ∧ MatchedEnd s m t t' := by
  have hstart := Matched.start hsamples
  have hfits := frameFits_masked hsecret
  have hframed := hstart.framed hsecret
  have hprepared : Matched s m s.prepared (s.masked m).prepared := hframed.streamed.capReported
  cases hends with
  | failsAtOnce h => exact ⟨_, .failsAtOnce (h.masked hsecret), hstart.raise _⟩
  | b2bits hfrm hbits => exact ⟨_, .b2bits hfrm hbits, hstart.streamed.succeed⟩
  | bits2b hbits hfrm => exact ⟨_, .bits2b hbits hfrm, (hstart.putFrm _).succeed⟩
  | capq hbpp hn => exact ⟨_, .capq hbpp hn, hstart.capReported.succeed⟩
  | fbuild h => exact ⟨_, .fbuild (hfits.mpr h), hframed.succeed⟩
  | fparse hbits hheader hlen => exact ⟨_, .fparse hbits hheader hlen, (hstart.withHeader _).succeed⟩
  | fbody hfrm hout hfit => exact ⟨_, .fbody hfrm hout hfit, (hstart.putPay (hpay (by decide)) _).succeed⟩
  | lsbw hlegal hbits hroom => exact ⟨_, .lsbw hlegal hbits hroom, (hstart.imaged hlegal.1 hroom).succeed⟩
  | lsbr hlegal hbits hroom => exact ⟨_, .lsbr hlegal hbits hroom, (hstart.latched hlegal.1 hroom).succeed⟩
  | embedTooDeep hlegal h hdeep =>
    exact ⟨_, .embedTooDeep hlegal (hfits.mpr h) (by rwa [hframed.frmlen_eq]), hframed.raise _⟩
  | embedNoSamples hlegal h hbits hzero =>
    exact ⟨_, .embedNoSamples hlegal (hfits.mpr h) (by rwa [hframed.frmlen_eq]) hzero, hframed.streamed.raise _⟩
  | embedNoRoom hlegal h hbits hn hover =>
    have hcap : (s.masked m).prepared.capbytes = s.prepared.capbytes := by
      simp [State.prepared, State.capReported]
      rfl
    exact ⟨_, .embedNoRoom hlegal (hfits.mpr h) (by rwa [hframed.frmlen_eq]) hn (by rwa [hprepared.bitlen_eq]),
      (hprepared.shortReported hcap).raise _⟩
  | embed hlegal h hbits hn hroom =>
    refine ⟨_, .embed hlegal (hfits.mpr h) (by rwa [hframed.frmlen_eq]) hn (by rwa [hprepared.bitlen_eq]), ?_⟩
    rw [hprepared.bitlen_eq]
    exact (hprepared.imaged hlegal.1 (by rwa [Nat.zero_add])).succeed
  | extractBadLength hlegal hn hbad =>
    exact ⟨_, .extractBadLength hlegal hn (by rwa [header_masked hsamples hlegal hn]),
      (headerRead_matched hsamples hlegal hn).raise _⟩
  | extractNoBody hlegal hn hlen hwhy =>
    have hheader := header_masked hsamples hlegal hn
    exact ⟨_, .extractNoBody hlegal hn (by rwa [hheader]) (by rw [hheader]; exact hwhy),
      (headerParsed_matched hsamples hlegal hn).raise _⟩
  | extractTooDeep h hdeep =>
    have hheader := header_masked hsamples h.legal h.samples
    exact ⟨_, .extractTooDeep (h.masked hsamples) (by rwa [hheader]), (bodyRead_matched hsamples h).raise _⟩
  | extractNoPayload h hfrm hwhy =>
    have hheader := header_masked hsamples h.legal h.samples
    have hpayload := (bodyPacked_matched hsamples h).payload_eq s.header.len.toNat
    exact ⟨_, .extractNoPayload (h.masked hsamples) (by rwa [hheader]) (by rw [hheader, hpayload]; exact hwhy),
      (bodyPacked_matched hsamples h).raise _⟩
  | extract h hfrm hout hfit =>
    have hheader := header_masked hsamples h.legal h.samples
    have hpayload := (bodyPacked_matched hsamples h).payload_eq s.header.len.toNat
    exact ⟨_, .extract (h.masked hsamples) (by rwa [hheader]) (by rw [hheader, hpayload]; exact hout) hfit,
      ((bodyPacked_matched hsamples h).putPay (hpay (by decide)) _).succeed⟩

end

end Sys2Proof.Machine

namespace Sys2Proof.Machine

/-! ### What no command reads (R35, R44, R49, R78) -/

/-- A field both runs keep, begun with one value, ends with one value. -/
theorem eq_of_kept {α : Type} {a a' b c : α} (h : a' = a ∨ a' = b ∧ a = c) (hbc : b = c) : a' = a := by
  rcases h with h | ⟨hb, hc⟩
  · exact h
  · exact (hb.trans hbc).trans hc.symm

section
variable {s m t t' : State} (h : MatchedEnd s m t t')
include h

/-- Two matching ends are equal in all fields but those named. -/
theorem MatchedEnd.frame : t' = { t with cmd := m.cmd, hbpp := t'.hbpp, capbits := t'.capbits, capbytes := t'.capbytes,
                                         avail := t'.avail, req := t'.req, pay := t'.pay, pix := t'.pix } := by
  have hsame := h.same
  rw [State.masked, h.cmd.1, h.status, h.result] at hsame
  exact hsame

theorem MatchedEnd.pay_eq (hpay : m.pay = s.pay) : t'.pay = t.pay := by
  rcases h.pay with ⟨hm, hs⟩ | ⟨-, heq⟩
  · exact (hm.trans hpay).trans hs.symm
  · exact heq

/-- Where the result registers are equal at the start of the two runs, they are equal at the end. -/
theorem MatchedEnd.frame_of_results (hhbpp : m.hbpp = s.hbpp) (hcapbits : m.capbits = s.capbits)
    (hcapbytes : m.capbytes = s.capbytes) (havail : m.avail = s.avail) (hreq : m.req = s.req) :
    t' = { t with cmd := m.cmd, pay := t'.pay, pix := t'.pix } := by
  have hframe := h.frame
  rw [eq_of_kept h.hbpp hhbpp, eq_of_kept h.capbits hcapbits, eq_of_kept h.capbytes hcapbytes,
    eq_of_kept h.avail havail, eq_of_kept h.req hreq] at hframe
  exact hframe

end

/-- Settles O47: the fields the two runs may differ in at their start are among those no command reads. -/
theorem commandsDoNotReadStatusOrResult : Obligations.CommandsDoNotReadStatusOrResult := by
  intro i s t st r w hrun
  obtain ⟨t', hends, hmatch⟩ := (ends_iff.mpr hrun).matched (m := { s with status := st, result := r, cmd := w })
    (fun _ _ => rfl) rfl (fun _ => rfl)
  have hframe := hmatch.frame_of_results rfl rfl rfl rfl rfl
  rw [hmatch.pay_eq rfl, hmatch.pix rfl] at hframe
  exact (ends_iff.mp hends).trans (congrArg Host.Outcome.next hframe)

/-- Settles O48: likewise, and each of the five registers is written in both runs or in neither. -/
theorem commandsDoNotReadTheirResultRegisters : Obligations.CommandsDoNotReadTheirResultRegisters := by
  intro i s t hb a b c d hrun
  obtain ⟨t', hends, hmatch⟩ := (ends_iff.mpr hrun).matched
    (m := { s with hbpp := hb, capbits := a, capbytes := b, avail := c, req := d })
    (fun _ _ => rfl) rfl (fun _ => rfl)
  have hframe := hmatch.frame
  have hcmd : s.cmd = t.cmd := hmatch.cmd.2.symm
  rw [hmatch.pay_eq rfl, hmatch.pix rfl, hcmd] at hframe
  exact ⟨t', ends_iff.mp hends, hframe, hmatch.hbpp, hmatch.capbits, hmatch.capbytes, hmatch.avail, hmatch.req⟩

/-! ### Entries past a length register (R45, R49) -/

/-- Other entries of `PAY` past `PAYLEN` leave the secret. -/
theorem secret_congr {s s' : State} (hlen : s'.paylen = s.paylen)
    (h : ∀ j < s.paylen.toNat, s'.readPay j = s.readPay j) : s'.secret = s.secret := by
  rw [State.secret, State.secret, hlen]
  exact memRead_congr (fun j hj => by rw [Nat.zero_add]; exact h j hj)

theorem frmBytes_congr {s s' : State} {n : Nat} (h : ∀ j < n, s'.readFrm j = s.readFrm j) :
    s'.frmBytes n = s.frmBytes n :=
  memRead_congr (fun j hj => by rw [Nat.zero_add]; exact h j hj)

theorem stream_congr {s s' : State} {n : Nat} (h : ∀ j < n, s'.readBit j = s.readBit j) : s'.stream n = s.stream n :=
  memRead_congr (fun j hj => by rw [Nat.zero_add]; exact h j hj)

/-- The commands that read the secret do not see `PAY` past it, and do not write it. -/
theorem exec_withPay {i : Instr} {s t : State} {m : List Host.Cell} (hi : i = .fbuild ∨ i = .embed)
    (hpay : ∀ j < s.paylen.toNat, State.readPay { s with pay := m } j = s.readPay j) (hrun : exec i s = .next t) :
    exec i { s with pay := m } = .next { t with pay := m } := by
  have hwrites : i ∉ [Instr.fbody, .extract] := by rcases hi with rfl | rfl <;> decide
  obtain ⟨t', hends, hmatch⟩ := (ends_iff.mpr hrun).matched (m := { s with pay := m }) (fun _ _ => rfl)
    (secret_congr rfl hpay) (fun hin => absurd hin hwrites)
  obtain ⟨-, -, -, -, -, -, -, -, -, hkept, -⟩ := commandsWriteOnlyTheirRegisters i _ _ (ends_iff.mp hends)
  have hpay' : t'.pay = m := (hkept hwrites).2
  have hframe := hmatch.frame_of_results rfl rfl rfl rfl rfl
  rw [hpay', hmatch.pix rfl, show s.cmd = t.cmd from hmatch.cmd.2.symm] at hframe
  exact (ends_iff.mp hends).trans (congrArg Host.Outcome.next hframe)

/-- The commands that read `FRM[0..FRMLEN)` do not see the entries past it, and do not write `FRM`. -/
theorem exec_withFrm {i : Instr} {s t : State} {m : List Host.Cell} (hi : i = .b2bits ∨ i = .fbody)
    (hfrm : ∀ j < s.frmlen.toNat, State.readFrm { s with frm := m } j = s.readFrm j) (hrun : exec i s = .next t) :
    exec i { s with frm := m } = .next { t with frm := m } := by
  have hbytes : State.frmBytes { s with frm := m } s.frmlen.toNat = s.frmBytes s.frmlen.toNat := frmBytes_congr hfrm
  have hpayload : State.payload (min s.frmlen.toNat s.dlen.toNat) { s with frm := m } =
      s.payload (min s.frmlen.toNat s.dlen.toNat) := by
    rw [State.payload, frmBytes_congr (fun j hj => hfrm j (by omega))]
    rfl
  rcases hi with rfl | rfl <;> refine ends_iff.mp ?_
  · cases ends_iff.mpr hrun with
    | failsAtOnce h => exact .failsAtOnce (s := { s with frm := m }) h
    | b2bits hdepth hbits =>
      have hend : (State.streamed { s with frm := m }).succeed = { s.streamed.succeed with frm := m } := by
        rw [State.streamed, hbytes]
        rfl
      rw [← hend]
      exact .b2bits hdepth hbits
  · cases ends_iff.mpr hrun with
    | failsAtOnce h =>
      refine .failsAtOnce (s := { s with frm := m }) ?_
      rw [FailsAtOnce, hpayload]
      exact h
    | fbody hdepth hout hpay => exact .fbody (s := { s with frm := m }) hdepth (hpayload.trans hout) hpay

theorem imaged_withBits {s : State} {m : List (Nat × Bool)} {p n : Nat}
    (hstream : State.stream { s with bits := m } n = s.stream n) :
    State.imaged p n { s with bits := m } = { s.imaged p n with bits := m } := by
  have hpix : (writeBits s.bpp.toNat p (s.stream n) { s with bits := m }).pix =
      (writeBits s.bpp.toNat p (s.stream n) s).pix := writeBits_pix_congr _ _ _ rfl rfl
  simp only [State.imaged_eq, hstream, hpix]

/-- The commands that read `BITS[0..BITLEN)` do not see the entries past it, and do not write `BITS`. -/
theorem exec_withBits {i : Instr} {s t : State} {m : List (Nat × Bool)} (hi : i = .bits2b ∨ i = .fparse ∨ i = .lsbw)
    (hbit : ∀ j < s.bitlen.toNat, State.readBit { s with bits := m } j = s.readBit j) (hrun : exec i s = .next t) :
    exec i { s with bits := m } = .next { t with bits := m } := by
  have hstream {n : Nat} (hn : n ≤ s.bitlen.toNat) : State.stream { s with bits := m } n = s.stream n :=
    stream_congr (fun j hj => hbit j (by omega))
  rcases hi with rfl | rfl | rfl <;> refine ends_iff.mp ?_
  · cases ends_iff.mpr hrun with
    | failsAtOnce h => exact .failsAtOnce (s := { s with bits := m }) h
    | bits2b hdepth hfrm =>
      have hends := Ends.bits2b (s := { s with bits := m }) hdepth hfrm
      rw [hstream (Nat.le_refl _)] at hends
      exact hends
  · cases ends_iff.mpr hrun with
    | failsAtOnce h =>
      refine .failsAtOnce (s := { s with bits := m }) ?_
      rcases h with h | ⟨hdepth, h | ⟨hk, hheader, hbad⟩⟩
      · exact .inl h
      · exact .inr ⟨hdepth, .inl h⟩
      · exact .inr ⟨hdepth, .inr ⟨hk, hheader, by rwa [hstream hheader]⟩⟩
    | fparse hdepth hheader hlen =>
      have hends := Ends.fparse (s := { s with bits := m }) hdepth hheader (by rwa [hstream hheader])
      rw [hstream hheader] at hends
      exact hends
  · cases ends_iff.mpr hrun with
    | failsAtOnce h => exact .failsAtOnce (s := { s with bits := m }) h
    | lsbw hlegal hdepth hroom =>
      have hends := Ends.lsbw (s := { s with bits := m }) hlegal hdepth hroom
      rw [imaged_withBits (hstream (Nat.le_refl _))] at hends
      exact hends

/-- The commands on samples neither see nor write `PIX` past `NSAMP`. -/
theorem exec_withPix {i : Instr} {s t : State} {m : List Host.Cell}
    (hpix : ∀ q < s.nsamp.toNat, State.readPix { s with pix := m } q = s.readPix q) (hrun : exec i s = .next t) :
    ∃ t', exec i { s with pix := m } = .next t' ∧ t' = { t with pix := t'.pix } ∧
      (∀ q, q < s.nsamp.toNat → t'.readPix q = t.readPix q) ∧
      (∀ q, s.nsamp.toNat ≤ q → t.readPix q = s.readPix q ∧ t'.readPix q = State.readPix { s with pix := m } q) := by
  obtain ⟨t', hends, hmatch⟩ := (ends_iff.mpr hrun).matched (m := { s with pix := m }) hpix rfl (fun _ => rfl)
  have hframe := hmatch.frame_of_results rfl rfl rfl rfl rfl
  rw [hmatch.pay_eq rfl, show s.cmd = t.cmd from hmatch.cmd.2.symm] at hframe
  exact ⟨t', ends_iff.mp hends, hframe, hmatch.below, hmatch.above⟩

/-- Settles O49: buffer by buffer. -/
theorem entriesPastTheLengthAreNotRead : Obligations.EntriesPastTheLengthAreNotRead :=
  ⟨fun _ _ _ _ hi hpay hrun => exec_withPay hi hpay hrun, fun _ _ _ _ hi hfrm hrun => exec_withFrm hi hfrm hrun,
    fun _ _ _ _ hi hbit hrun => exec_withBits hi hbit hrun, fun _ _ _ _ _ hpix hrun => exec_withPix hpix hrun⟩

end Sys2Proof.Machine

namespace Sys2Proof.Machine

/-! ### What `EXTRACT` reads from the image (45_orchestration.md R181) -/

/-- A bit of what `ReadBits` returns is the bit at its position of the image (R151). -/
theorem getD_readBits_bpp {p n k : Nat} (s : State) (hk : k < n) :
    (readBits s.bpp.toNat p n s).getD k false = s.slotBit (p + k) := by
  rw [List.getD_eq_getElem _ _ (by rwa [length_readBits]), getElem_readBits_bpp]

/-- The forty bits at the image's first positions parse to what they spell. -/
theorem header_of_spelt {s : State} {len : BitVec 32} {m : Byte} (h : HeaderSpelt s.slotBit len m) :
    s.header = { len := len, metadata := m, c := m.getLsbD 7, hbpp := headerBpp m } := by
  refine parseHeader_of_spelt (length_readBits _ _ _ _) ⟨fun k hk => ?_, fun k hk => ?_⟩
  · rw [h.len k hk, getD_readBits_bpp s (by omega), Nat.zero_add]
  · rw [h.metadata k hk, getD_readBits_bpp s (by omega), Nat.zero_add]

section
variable (s : State)
@[simp] theorem headerParsed_pix : s.headerParsed.pix = s.pix := by
  simp [State.headerParsed, State.withHeader, State.latched]
@[simp] theorem headerParsed_epoch : s.headerParsed.epoch = s.epoch := by
  simp [State.headerParsed, State.withHeader, State.latched]
@[simp] theorem bodyPacked_params : s.bodyPacked.params = s.params := by
  simp [State.bodyPacked, State.bodyRead, State.latched]
@[simp] theorem bodyPacked_pay : s.bodyPacked.pay = s.pay := by
  simp [State.bodyPacked, State.bodyRead, State.headerParsed, State.withHeader, State.latched]
@[simp] theorem bodyPacked_epoch : s.bodyPacked.epoch = s.epoch := by
  simp [State.bodyPacked, State.bodyRead, State.latched]
@[simp] theorem readBit_withHeader (head : Header) (k : Nat) : (s.withHeader head).readBit k = s.readBit k := rfl
@[simp] theorem readFrm_latched (p n k : Nat) : (s.latched p n).readFrm k = s.readFrm k := rfl
@[simp] theorem readFrm_withHeader (head : Header) (k : Nat) : (s.withHeader head).readFrm k = s.readFrm k := rfl
end

/-- Neither reading nor parsing the header changes the image (R181). -/
theorem slotBit_headerParsed (s : State) (i : Nat) : s.headerParsed.slotBit i = s.slotBit i := by
  rw [State.slotBit, State.slotBit, headerParsed_bpp,
    State.readPix_congr (headerParsed_pix s) (headerParsed_epoch s)]

/-- `BITS` after `n` bits were read from position `p` (R153). -/
theorem readBit_latched (s : State) (p n k : Nat) :
    (s.latched p n).readBit k = if k < n then s.slotBit (p + k) else s.readBit k := by
  rw [State.latched, readBit_latchBits]
  by_cases hk : k < n
  · rw [dif_pos (by rwa [length_readBits]), if_pos hk, getElem_readBits_bpp]
  · rw [dif_neg (by rwa [length_readBits]), if_neg hk]

/-- `BITS` after the header was read: its forty bits. -/
theorem readBit_headerParsed (s : State) (k : Nat) :
    s.headerParsed.readBit k = if k < 40 then s.slotBit k else s.readBit k := by
  rw [State.headerParsed, readBit_withHeader, readBit_latched, Nat.zero_add]

/-- `BITS` after the body was read: its bits, and past them what the header's reading left. -/
theorem readBit_bodyRead (s : State) (k : Nat) : s.bodyRead.readBit k =
    if k < 8 * s.header.len.toNat then s.slotBit (40 + k) else if k < 40 then s.slotBit k else s.readBit k := by
  rw [State.bodyRead, readBit_latched, slotBit_headerParsed, readBit_headerParsed]

theorem bitlen_bodyRead {s : State} (h : BodyReadable s) : s.bodyRead.bitlen.toNat = 8 * s.header.len.toNat := by
  have hlen := h.len
  rw [State.bodyRead, State.latched, State.latchBits_bitlen, length_readBits, BitVec.toNat_ofNat]
  omega

theorem bitpos_bodyRead {s : State} (h : BodyReadable s) : s.bodyRead.bitpos.toNat = 40 + 8 * s.header.len.toNat := by
  have hlen := h.len
  rw [State.bodyRead, State.latched, State.latchBits_bitpos, length_readBits, BitVec.toNat_ofNat]
  omega

/-- The bytes packed from the image are those its bits spell (R65, R111). -/
theorem imageBody_of_spelt {s : State} {body : Bytes} (hlen : body.length = s.header.len.toNat)
    (h : BytesSpelt (fun k => s.slotBit (40 + k)) body) : s.imageBody = body := by
  refine List.ext_getElem ((length_imageBody s).trans hlen.symm) (fun j hj hjb => byte_ext (fun b hb => ?_))
  have hread : (readBits s.bpp.toNat 40 (8 * s.header.len.toNat) s.headerParsed).getD (8 * j + b) false =
      s.slotBit (40 + (8 * j + b)) := by
    rw [← headerParsed_bpp, getD_readBits_bpp s.headerParsed (by omega), slotBit_headerParsed]
  calc s.imageBody[j].getLsbD (7 - b) = _ := getLsbD_getElem_bitsToBytes _ hj hb
    _ = s.slotBit (40 + (8 * j + b)) := hread
    _ = body[j].getLsbD (7 - b) := (h j b hjb hb).symm

theorem frmlen_bodyPacked {s : State} (h : BodyReadable s) : s.bodyPacked.frmlen.toNat = s.header.len.toNat := by
  have hlen := h.len
  rw [State.bodyPacked, State.putFrm_frmlen, length_imageBody, BitVec.toNat_ofNat]
  omega

theorem readFrm_bodyRead (s : State) (j : Nat) : s.bodyRead.readFrm j = s.readFrm j := by
  rw [State.bodyRead, readFrm_latched, State.headerParsed, readFrm_withHeader, readFrm_latched]

theorem readFrm_bodyPacked (s : State) (j : Nat) :
    s.bodyPacked.readFrm j = if h : j < s.imageBody.length then s.imageBody[j] else s.readFrm j := by
  rw [State.bodyPacked, readFrm_putFrm, readFrm_bodyRead]

/-- What is delivered is made of the image's body and the header's flag (R132, R174). -/
theorem payload_bodyPacked (s : State) : s.bodyPacked.payload s.header.len.toNat =
    decompressStage Config.codec s.params.deflatePresent s.imageBody (s.header.metadata.getLsbD 7) := by
  have hbytes : s.bodyPacked.frmBytes s.header.len.toNat = s.imageBody := by
    rw [← length_imageBody]
    exact frmBytes_putFrm s.bodyRead s.imageBody
  have hmeta : s.bodyPacked.metadata = s.header.metadata := by
    simp [State.bodyPacked, State.bodyRead, State.headerParsed, State.withHeader, State.latched]
  rw [State.payload, hbytes, State.metaC, hmeta, bodyPacked_params]

end Sys2Proof.Machine

namespace Sys2Proof.Machine

/-! ### How `EXTRACT` ends (45_orchestration.md R181) -/

/-- The fields of the header the image spells. -/
theorem header_fields {s : State} {len : BitVec 32} {m : Byte} (h : HeaderSpelt s.slotBit len m) :
    s.header.len = len ∧ s.header.metadata = m := by
  simp [header_of_spelt h]

/-- What `HBPP` receives is the metadata byte's own field, with the fallback (R96, R97). -/
theorem header_hbpp (s : State) : s.header.hbpp.toNat = fallbackBpp s.header.metadata := by
  rw [State.header, parseHeader]
  exact headerBpp_toNat _

/-- Settles O35: the header spelt in the image is the one the command parses, and each failing test ends it in the
state the earlier steps have left. -/
theorem extractFailsInOrderBeforeTheBody : Obligations.ExtractFailsInOrderBeforeTheBody := by
  intro s len m hwf hspelt
  obtain ⟨rfl, rfl⟩ := header_fields hspelt
  have ends {t : State} (h : Ends s .extract t) : exec .extract s = .next t := ends_iff.mp h
  refine ⟨fun hbad => ends (t := s.raise .invalidParameter) (.failsAtOnce (.inl ⟨rfl, hbad⟩)),
    fun hbpp hdeep => ends (t := s.raise .resourceExceeded) (.failsAtOnce (.inr ⟨hbpp, .inl ⟨rfl, hdeep⟩⟩)),
    fun hbpp hn hshort => ends (t := s.raise .insufficientData) (.failsAtOnce (.inr ⟨hbpp, .inr ⟨rfl, hn, hshort⟩⟩)),
    fun hbpp hsamples hn hbad => ?badLength, fun hbpp hsamples hn hlen hover => ?noBody⟩
  case badLength =>
    have hread (k : Nat) : ((s.latched 0 40).raise .invalidDataLength).readBit k =
        if k < 40 then s.slotBit k else s.readBit k := by
      rw [readBit_raise, readBit_latched, Nat.zero_add]
    refine ⟨_, ends (.extractBadLength ⟨hbpp, hn⟩ hsamples hbad), ?_, fun k hk => ?_, fun k hk => ?_⟩
    · simp [State.raise, ErrorKind.code, Status.error, State.latched, latchBits, State.putBits, length_readBits]
    · rw [hread, if_pos hk]
    · rw [hread, if_neg (Nat.not_lt.mpr hk)]
  case noBody =>
    have hread (k : ErrorKind) (j : Nat) : (s.headerParsed.raise k).readBit j =
        if j < 40 then s.slotBit j else s.readBit j := by
      rw [readBit_raise, readBit_headerParsed]
    obtain ⟨k, hwhy, hcode⟩ : ∃ k : ErrorKind,
        (k = .insufficientData ∧ 40 + 8 * s.header.len.toNat > s.slots ∨
          k = .resourceExceeded ∧ 40 + 8 * s.header.len.toNat ≤ s.slots ∧ 8 * s.header.len.toNat > s.params.bitDepth) ∧
        k.code = if 40 + 8 * s.header.len.toNat > s.slots then 6 else 9 := by
      by_cases himage : 40 + 8 * s.header.len.toNat > s.slots
      · exact ⟨.insufficientData, .inl ⟨rfl, himage⟩, by rw [if_pos himage]; rfl⟩
      · exact ⟨.resourceExceeded, .inr ⟨rfl, Nat.le_of_not_lt himage, hover.resolve_left himage⟩,
          by rw [if_neg himage]; rfl⟩
    refine ⟨_, ends (.extractNoBody ⟨hbpp, hn⟩ hsamples hlen hwhy), ?_, ?_, fun j hj => ?_, fun j hj => ?_⟩
    · rw [State.slots] at hcode
      simp [State.raise, hcode, Status.error, State.headerParsed, State.withHeader, State.latched, latchBits,
        State.putBits, length_readBits]
    · simp only [State.raise_hbpp, State.headerParsed, State.withHeader, header_hbpp]
    · rw [hread, if_pos hj]
    · rw [hread, if_neg (Nat.not_lt.mpr hj)]

/-- `t` holds the image's header in `HBPP` and the body's bits in `BITS`; past them `BITS` holds what the reading of
the header has left (R46, R49, R181). -/
structure BodyBitsHeld (s t : State) : Prop where
  hbpp : t.hbpp.toNat = fallbackBpp s.header.metadata
  bitlen : t.bitlen.toNat = 8 * s.header.len.toNat
  bitpos : t.bitpos.toNat = 40 + 8 * s.header.len.toNat
  bodyBits : ∀ k, k < 8 * s.header.len.toNat → t.readBit k = s.slotBit (40 + k)
  stale : ∀ k, 8 * s.header.len.toNat ≤ k → t.readBit k = if k < 40 then s.slotBit k else s.readBit k

theorem bodyBitsHeld_bodyRead {s : State} (h : BodyReadable s) : BodyBitsHeld s s.bodyRead where
  hbpp := by simp [State.bodyRead, State.latched, State.headerParsed, State.withHeader, header_hbpp]
  bitlen := bitlen_bodyRead h
  bitpos := bitpos_bodyRead h
  bodyBits k hk := by rw [readBit_bodyRead, if_pos hk]
  stale k hk := by rw [readBit_bodyRead, if_neg (Nat.not_lt.mpr hk)]

theorem BodyBitsHeld.raise {s t : State} (h : BodyBitsHeld s t) (k : ErrorKind) : BodyBitsHeld s (t.raise k) :=
  ⟨h.hbpp, h.bitlen, h.bitpos, h.bodyBits, h.stale⟩

theorem BodyBitsHeld.succeed {s t : State} (h : BodyBitsHeld s t) : BodyBitsHeld s t.succeed :=
  ⟨h.hbpp, h.bitlen, h.bitpos, h.bodyBits, h.stale⟩

theorem BodyBitsHeld.putFrm {s t : State} (h : BodyBitsHeld s t) (v : Bytes) : BodyBitsHeld s (t.putFrm v) :=
  ⟨h.hbpp, h.bitlen, h.bitpos, h.bodyBits, h.stale⟩

theorem BodyBitsHeld.putPay {s t : State} (h : BodyBitsHeld s t) (v : Bytes) : BodyBitsHeld s (t.putPay v) :=
  ⟨h.hbpp, h.bitlen, h.bitpos, h.bodyBits, h.stale⟩

/-- `t` holds the image's body in `FRM`; entries of `FRM` past it are those of `s` (R46, R49, R181). -/
structure BodyBytesHeld (s t : State) : Prop where
  frmlen : t.frmlen.toNat = s.header.len.toNat
  bytes : ∀ j (h : j < s.imageBody.length), t.readFrm j = s.imageBody[j]
  stale : ∀ j, s.imageBody.length ≤ j → t.readFrm j = s.readFrm j

theorem bodyBytesHeld_bodyPacked {s : State} (h : BodyReadable s) : BodyBytesHeld s s.bodyPacked where
  frmlen := frmlen_bodyPacked h
  bytes j hj := by rw [readFrm_bodyPacked, dif_pos hj]
  stale j hj := by rw [readFrm_bodyPacked, dif_neg (Nat.not_lt.mpr hj)]

theorem BodyBytesHeld.raise {s t : State} (h : BodyBytesHeld s t) (k : ErrorKind) : BodyBytesHeld s (t.raise k) :=
  ⟨h.frmlen, h.bytes, h.stale⟩

theorem BodyBytesHeld.succeed {s t : State} (h : BodyBytesHeld s t) : BodyBytesHeld s t.succeed :=
  ⟨h.frmlen, h.bytes, h.stale⟩

theorem BodyBytesHeld.putPay {s t : State} (h : BodyBytesHeld s t) (v : Bytes) : BodyBytesHeld s (t.putPay v) :=
  ⟨h.frmlen, h.bytes, h.stale⟩

theorem bodyBitsHeld_bodyPacked {s : State} (h : BodyReadable s) : BodyBitsHeld s s.bodyPacked :=
  (bodyBitsHeld_bodyRead h).putFrm s.imageBody

/-- Settles O36: the body the image spells is the one the command packs and decompresses. -/
theorem extractFailsInOrderAfterTheBody : Obligations.ExtractFailsInOrderAfterTheBody := by
  intro s len m body hwf hspelt hlength hbody hbpp hsamples hn hlen himage hbits
  obtain ⟨rfl, rfl⟩ := header_fields hspelt
  obtain rfl := imageBody_of_spelt hlength hbody
  have hread : BodyReadable s := ⟨⟨hbpp, hn⟩, hsamples, hlen, himage, hbits⟩
  refine ⟨fun hdeep => ?tooDeep, fun code hfrm hwhy => ?noPayload⟩
  case tooDeep =>
    obtain ⟨hhbpp, hbitlen, hbitpos, hread', hstale⟩ := (bodyBitsHeld_bodyRead hread).raise .resourceExceeded
    refine ⟨_, ends_iff.mp (.extractTooDeep hread hdeep), ?_, hhbpp, hbitlen, hbitpos, hread', hstale⟩
    simp [State.raise, ErrorKind.code, Status.error, State.bodyRead, State.headerParsed, State.withHeader,
      State.latched, latchBits, State.putBits]
  case noPayload =>
    rw [← payload_bodyPacked] at hwhy
    obtain ⟨k, hkind, rfl⟩ : ∃ k : ErrorKind,
        (k = .decompressionError ∧ s.bodyPacked.payload s.header.len.toNat = none ∨
          k = .resourceExceeded ∧
            ∃ out, s.bodyPacked.payload s.header.len.toNat = some out ∧ out.length > s.params.payDepth) ∧
        k.code = code := by
      rcases hwhy with ⟨hnone, rfl⟩ | ⟨out, hout, hdeep, rfl⟩
      · exact ⟨.decompressionError, .inl ⟨rfl, hnone⟩, rfl⟩
      · exact ⟨.resourceExceeded, .inr ⟨rfl, out, hout, hdeep⟩, rfl⟩
    obtain ⟨hhbpp, hbitlen, hbitpos, hread', hstale⟩ := (bodyBitsHeld_bodyPacked hread).raise k
    obtain ⟨hfrmlen, hbytes, hstale'⟩ := (bodyBytesHeld_bodyPacked hread).raise k
    refine ⟨_, ends_iff.mp (.extractNoPayload hread hfrm hkind), ?_, hhbpp, hbitlen, hbitpos, hread', hstale, hfrmlen,
      hbytes, hstale'⟩
    simp [State.raise, Status.error, State.bodyPacked, State.putFrm, State.bodyRead, State.headerParsed,
      State.withHeader, State.latched, latchBits, State.putBits]

/-- Settles O37: every test passes, and what the body decompresses to is in `PAY`. -/
theorem extractDeliversTheBody : Obligations.ExtractDeliversTheBody := by
  intro s len m body out hwf hspelt hlength hbody hbpp hsamples hn hlen himage hbits hfrm hout hpay
  obtain ⟨-, -, hdepth, -⟩ := (paramsWf_iff s.params).mp hwf
  obtain ⟨rfl, rfl⟩ := header_fields hspelt
  obtain rfl := imageBody_of_spelt hlength hbody
  have hread : BodyReadable s := ⟨⟨hbpp, hn⟩, hsamples, hlen, himage, hbits⟩
  rw [← payload_bodyPacked] at hout
  obtain ⟨hhbpp, hbitlen, hbitpos, hread', hstale⟩ := ((bodyBitsHeld_bodyPacked hread).putPay out).succeed
  obtain ⟨hfrmlen, hbytes, hstale'⟩ := ((bodyBytesHeld_bodyPacked hread).putPay out).succeed
  obtain ⟨hpaylen, hpayBytes, hpayStale⟩ := (payloadHeld_putPay s.bodyPacked out (by omega)).succeed
  have hkept := State.readPay_congr (bodyPacked_pay s) (bodyPacked_epoch s)
  refine ⟨_, ends_iff.mp (.extract hread hfrm hout hpay), ?_, hhbpp, hbitlen, hbitpos, hread', hstale, hfrmlen,
    hbytes, hstale', hpaylen, hpayBytes, fun j hj => (hpayStale j hj).trans (hkept j)⟩
  simp [State.succeed, Status.success, State.putPay, State.bodyPacked, State.putFrm, State.bodyRead,
    State.headerParsed, State.withHeader, State.latched, latchBits, State.putBits]

end Sys2Proof.Machine

namespace Sys2Proof.Machine

/-! ### A successful `EMBED` (45_orchestration.md R180) -/

/-- Every test of `EMBED` passes (R180). -/
structure EmbedPasses (s : State) : Prop where
  legal : ImageLegal s
  fits : FrameFits s
  inBits : 8 * s.framed.frmlen.toNat ≤ s.params.bitDepth
  samples : s.nsamp ≠ 0
  room : s.prepared.bitlen.toNat ≤ s.slots

theorem raise_result_ne_zero (s : State) (k : ErrorKind) : (s.raise k).result ≠ 0 := k.code_ne_zero

theorem embedPasses_of_success {s t : State} (hrun : exec .embed s = .next t) (hres : t.result = 0) :
    EmbedPasses s ∧ t = (s.prepared.imaged 0 s.prepared.bitlen.toNat).succeed := by
  cases ends_iff.mpr hrun with
  | embed hlegal hfits hbits hsamples hroom => exact ⟨⟨hlegal, hfits, hbits, hsamples, hroom⟩, rfl⟩
  | failsAtOnce | embedTooDeep | embedNoSamples | embedNoRoom => exact absurd hres (raise_result_ne_zero _ _)

/-! ### `EMBED` as a sequence of primitives (R186)

Each primitive starts where the one before it has succeeded, so its end is said from such a state. -/

theorem ends_b2bits_succeed {s : State} (hfrm : s.frmlen.toNat ≤ s.params.frmDepth)
    (hbits : 8 * s.frmlen.toNat ≤ s.params.bitDepth) : Ends s.succeed .b2bits s.streamed.succeed :=
  .b2bits (s := s.succeed) hfrm hbits

theorem ends_capq_succeed {s : State} (hbpp : s.BppIs123) (hsamples : s.nsamp ≠ 0) :
    Ends s.succeed .capq s.capReported.succeed :=
  .capq (s := s.succeed) hbpp hsamples

/-- `LSBW` from position 0 (R152). -/
theorem ends_lsbw_start {s : State} (hlegal : ImageLegal s) (hbits : s.bitlen.toNat ≤ s.params.bitDepth)
    (hroom : s.bitlen.toNat ≤ s.slots) :
    Ends { s.succeed with bitpos := 0 } .lsbw (s.imaged 0 s.bitlen.toNat).succeed := by
  have hends := Ends.lsbw (s := { s.succeed with bitpos := 0 }) hlegal hbits (by simpa [State.slots] using hroom)
  have hpix : (writeBits s.bpp.toNat 0 (s.stream s.bitlen.toNat) { s.succeed with bitpos := 0 }).pix =
      (writeBits s.bpp.toNat 0 (s.stream s.bitlen.toNat) s).pix := writeBits_pix_congr _ _ _ rfl rfl
  rw [State.imaged_eq] at hends ⊢
  rw [← hpix]
  exact hends

/-- Settles O42: the primitives perform the same writes in the same order, and their tests are among those of `EMBED`. -/
theorem embedIsItsSequenceOfPrimitives : Obligations.EmbedIsItsSequenceOfPrimitives := by
  intro s t hwf hrun hres
  obtain ⟨⟨hlegal, hfits, hbits, hsamples, hroom⟩, rfl⟩ := embedPasses_of_success hrun hres
  have hfrmlen := frmlen_framed hwf hfits
  have hbitlen := bitlen_prepared hwf hfits (by rwa [← hfrmlen])
  refine ⟨s.framed.succeed, s.framed.streamed.succeed, s.prepared.succeed, ends_iff.mp (.fbuild hfits), rfl,
    ends_iff.mp (ends_b2bits_succeed ?frm ?bits), rfl, ends_iff.mp (ends_capq_succeed ?bpp ?samples), rfl,
    ends_iff.mp (ends_lsbw_start hlegal.prepared ?stream ?room)⟩
  case frm =>
    rw [hfrmlen, framed_params]
    exact hfits.2
  case bits => rwa [framed_params]
  case bpp => simpa [State.BppIs123] using hlegal.1
  case samples => simpa using hsamples
  case stream => rwa [hbitlen, prepared_params, ← hfrmlen]
  case room => rwa [prepared_slots]

end Sys2Proof.Machine

namespace Sys2Proof.Machine

/-! ### `EXTRACT` as a sequence of primitives (45_orchestration.md R186)

`LSBR` reads `CNT`, which `EXTRACT` keeps, so each primitive's end is said from a state with another `CNT`. -/

/-- `wr CNT, n` (R20). -/
def State.withCnt (n : Word64) (s : State) : State := { s with cnt := n }

/-- Every test of `EXTRACT` passes, and `out` is delivered (R181). -/
structure ExtractPasses (s : State) (out : Bytes) : Prop where
  readable : BodyReadable s
  inFrm : s.header.len.toNat ≤ s.params.frmDepth
  payload : s.bodyPacked.payload s.header.len.toNat = some out
  inPay : out.length ≤ s.params.payDepth

theorem extractPasses_of_success {s t : State} (hrun : exec .extract s = .next t) (hres : t.result = 0) :
    ∃ out, ExtractPasses s out ∧ t = (s.bodyPacked.putPay out).succeed := by
  cases ends_iff.mpr hrun with
  | extract hread hfrm hout hpay => exact ⟨_, ⟨hread, hfrm, hout, hpay⟩, rfl⟩
  | failsAtOnce | extractBadLength | extractNoBody | extractTooDeep | extractNoPayload =>
    exact absurd hres (raise_result_ne_zero _ _)

section
variable {s : State} {c : Word64}

/-- `LSBR` from the position and for the count just set (R153). -/
theorem ends_lsbr_of {p n : Word64} (hlegal : ImageLegal s) (hbits : n.toNat ≤ s.params.bitDepth)
    (hroom : p.toNat + n.toNat ≤ s.slots) :
    Ends { s with bitpos := p, cnt := n } .lsbr ((s.latched p.toNat n.toNat).withCnt n).succeed :=
  .lsbr (s := { s with bitpos := p, cnt := n }) hlegal hbits hroom

/-- `LSBR` goes on at the position where the read before it has ended. -/
theorem ends_lsbr_resumed {p n : Word64} (hpos : s.bitpos = p) (hlegal : ImageLegal s)
    (hbits : n.toNat ≤ s.params.bitDepth) (hroom : p.toNat + n.toNat ≤ s.slots) :
    Ends { (s.withCnt c).succeed with cnt := n } .lsbr ((s.latched p.toNat n.toNat).withCnt n).succeed := by
  subst hpos
  exact .lsbr (s := { (s.withCnt c).succeed with cnt := n }) hlegal hbits hroom

theorem ends_fparse_withCnt (hbits : s.bitlen.toNat ≤ s.params.bitDepth) (hheader : 40 ≤ s.bitlen.toNat)
    (hlen : (parseHeader (s.stream 40)).len.toNat ≤ 10000000) :
    Ends (s.withCnt c).succeed .fparse ((s.withHeader (parseHeader (s.stream 40))).withCnt c).succeed :=
  .fparse (s := (s.withCnt c).succeed) hbits hheader hlen

theorem ends_bits2b_withCnt (hbits : s.bitlen.toNat ≤ s.params.bitDepth)
    (hfrm : ceil8 s.bitlen.toNat ≤ s.params.frmDepth) :
    Ends (s.withCnt c).succeed .bits2b ((s.putFrm (bitsToBytes (s.stream s.bitlen.toNat))).withCnt c).succeed :=
  .bits2b (s := (s.withCnt c).succeed) hbits hfrm

theorem ends_fbody_withCnt {out : Bytes} (hfrm : s.frmlen.toNat ≤ s.params.frmDepth)
    (hout : s.payload (min s.frmlen.toNat s.dlen.toNat) = some out) (hpay : out.length ≤ s.params.payDepth) :
    Ends (s.withCnt c).succeed .fbody ((s.putPay out).withCnt c).succeed :=
  .fbody (s := (s.withCnt c).succeed) hfrm hout hpay

end

/-- What `LSBR` has latched is the whole of `BITS[0..BITLEN)` (R30, R153). -/
theorem stream_latched (s : State) (p n : Nat) : (s.latched p n).stream n = readBits s.bpp.toNat p n s := by
  have h := stream_putBits s (readBits s.bpp.toNat p n s)
  rw [length_readBits] at h
  exact h

theorem bitlen_latched (s : State) (p n : Nat) : (s.latched p n).bitlen = BitVec.ofNat 64 n := by
  rw [State.latched, State.latchBits_bitlen, length_readBits]

theorem bitpos_headerParsed (s : State) : s.headerParsed.bitpos = 40 := by
  simp [State.headerParsed, State.withHeader, State.latched]

@[simp] theorem bodyPacked_dlen (s : State) : s.bodyPacked.dlen = s.header.len := by
  simp [State.bodyPacked, State.bodyRead, State.latched]

@[simp] theorem bodyPacked_cnt (s : State) : s.bodyPacked.cnt = s.cnt := by
  simp [State.bodyPacked, State.bodyRead, State.headerParsed, State.withHeader, State.latched]

@[simp] theorem bodyRead_params (s : State) : s.bodyRead.params = s.params := by
  simp [State.bodyRead, State.latched]

/-- The body's bits are latched whole, so packing `BITS[0..BITLEN)` gives the image's body (R65). -/
theorem bitsToBytes_stream_bodyRead {s : State} (hread : BodyReadable s) :
    bitsToBytes (s.bodyRead.stream s.bodyRead.bitlen.toNat) = s.imageBody := by
  rw [bitlen_bodyRead hread, State.bodyRead, stream_latched, headerParsed_bpp, State.imageBody]

theorem withCnt_restored {s : State} {c : Word64} (n : Word64) (h : s.cnt = c) :
    { (s.withCnt n).succeed with cnt := c } = s.succeed := by
  subst h
  rfl

section
variable {s : State} (hread : BodyReadable s)
include hread

/-- `wr BITPOS, 0; wr CNT, 40; LSBR` is step 1 of `EXTRACT` (R181). -/
theorem ends_lsbr_header (hdepth : 40 ≤ s.params.bitDepth) :
    Ends { s with bitpos := 0, cnt := 40 } .lsbr ((s.latched 0 40).withCnt 40).succeed :=
  ends_lsbr_of hread.legal hdepth (header_inImage hread.legal hread.samples)

/-- `FPARSE` is step 2. -/
theorem ends_fparse_header (hdepth : 40 ≤ s.params.bitDepth) (c : Word64) :
    Ends ((s.latched 0 40).withCnt c).succeed .fparse (s.headerParsed.withCnt c).succeed := by
  have hheader : parseHeader ((s.latched 0 40).stream 40) = s.header := congrArg parseHeader (stream_latched s 0 40)
  have hbitlen : (s.latched 0 40).bitlen.toNat = 40 := by rw [bitlen_latched]; rfl
  have hends := ends_fparse_withCnt (s := s.latched 0 40) (c := c) (by rwa [hbitlen]) (Nat.le_of_eq hbitlen.symm)
    (by rw [hheader]; exact hread.len)
  rwa [hheader] at hends

/-- `wr CNT, 8*DLEN; LSBR` is step 3. -/
theorem ends_lsbr_body (c : Word64) : Ends { (s.headerParsed.withCnt c).succeed with
      cnt := BitVec.ofNat 64 (8 * s.header.len.toNat) } .lsbr
    (s.bodyRead.withCnt (BitVec.ofNat 64 (8 * s.header.len.toNat))).succeed := by
  have hlegal : ImageLegal s.headerParsed := by simpa [ImageLegal, State.BppIs123] using hread.legal
  have hcount : (BitVec.ofNat 64 (8 * s.header.len.toNat)).toNat = 8 * s.header.len.toNat := by
    have := hread.len
    rw [BitVec.toNat_ofNat]
    omega
  have hends := ends_lsbr_resumed (c := c) (bitpos_headerParsed s) hlegal
    (n := BitVec.ofNat 64 (8 * s.header.len.toNat)) (by rw [hcount, headerParsed_params]; exact hread.inBits)
    (by rw [hcount, headerParsed_slots]; exact hread.inImage)
  rw [hcount] at hends
  exact hends

/-- `BITS2B` is step 4. -/
theorem ends_bits2b_body (hfrm : s.header.len.toNat ≤ s.params.frmDepth) (c : Word64) :
    Ends (s.bodyRead.withCnt c).succeed .bits2b (s.bodyPacked.withCnt c).succeed := by
  have hbitlen := bitlen_bodyRead hread
  have hends := ends_bits2b_withCnt (s := s.bodyRead) (c := c) (by rw [hbitlen, bodyRead_params]; exact hread.inBits)
    (by rwa [hbitlen, ceil8_eight_mul, bodyRead_params])
  rwa [bitsToBytes_stream_bodyRead hread] at hends

/-- `FBODY` is step 5: the whole of `FRM` is the body (R132). -/
theorem ends_fbody_body {out : Bytes} (hpass : ExtractPasses s out) (c : Word64) :
    Ends (s.bodyPacked.withCnt c).succeed .fbody ((s.bodyPacked.putPay out).withCnt c).succeed := by
  have hfrmlen := frmlen_bodyPacked hread
  refine ends_fbody_withCnt ?frm ?payload ?pay
  case frm =>
    rw [hfrmlen, bodyPacked_params]
    exact hpass.inFrm
  case payload =>
    rw [hfrmlen, bodyPacked_dlen, Nat.min_self]
    exact hpass.payload
  case pay =>
    rw [bodyPacked_params]
    exact hpass.inPay

end

/-- Settles O43: the primitives perform the same writes in the same order, and their tests are among those of
`EXTRACT`. -/
theorem extractIsItsSequenceOfPrimitives : Obligations.ExtractIsItsSequenceOfPrimitives := by
  intro s t hwf hrun hres
  obtain ⟨-, -, -, -, -, hdepth, -⟩ := (paramsWf_iff s.params).mp hwf
  obtain ⟨out, hpass, rfl⟩ := extractPasses_of_success hrun hres
  have hread := hpass.readable
  have hbody := ends_lsbr_body hread 40
  rw [← show (s.headerParsed.withCnt 40).succeed.dlen = s.header.len from headerParsed_dlen s] at hbody
  exact ⟨_, _, _, _, _, ends_iff.mp (ends_lsbr_header hread hdepth), rfl,
    ends_iff.mp (ends_fparse_header hread hdepth 40), rfl, ends_iff.mp hbody, rfl,
    ends_iff.mp (ends_bits2b_body hread hpass.inFrm _), rfl, ends_iff.mp (ends_fbody_body hread hpass _),
    withCnt_restored _ (bodyPacked_cnt s)⟩

end Sys2Proof.Machine

namespace Sys2Proof.Machine

/-! ### The round trip (45_orchestration.md R182) -/

theorem memRead_add {α : Type} (rd : Nat → α) (a n k : Nat) :
    memRead rd a (n + k) = memRead rd a n ++ memRead rd (a + n) k := by
  simp [memRead, List.range_add, Nat.add_assoc]

/-- The frame of `s`'s staged secret stands in the slots of `s'` from position 0 on. -/
def Hides (s s' : State) : Prop :=
  readBits s'.bpp.toNat 0 (40 + 8 * s.staged.1.length) s' =
    bytesToBits (packHeader (BitVec.ofNat 32 s.staged.1.length) s.staged.2 s.bpp ++ s.staged.1)

/-- `LSBW`'s write reads back (R157). -/
theorem readBits_imaged {s : State} (hbpp : s.BppIs123) (p n : Nat) :
    readBits s.bpp.toNat p n (s.imaged p n).succeed = s.stream n := by
  obtain ⟨hb, hb3⟩ := bpp_bounds hbpp
  have h := readBits_writeBits hb (by omega) p (s.stream n) s
  rw [length_stream] at h
  exact (readBits_congr (fun _ => rfl)).trans h

theorem frmBytes_framed (s : State) : s.framed.frmBytes (5 + s.staged.1.length) =
    packHeader (BitVec.ofNat 32 s.staged.1.length) s.staged.2 s.bpp ++ s.staged.1 := by
  rw [← length_frame]
  exact frmBytes_putFrm s _

theorem stream_capReported (s : State) (n : Nat) : s.capReported.stream n = s.stream n :=
  stream_congr (fun _ _ => State.readBit_congr rfl rfl _)

theorem stream_streamed (s : State) {n : Nat} (h : s.frmlen.toNat = n) :
    s.streamed.stream (8 * n) = bytesToBits (s.frmBytes n) := by
  have hlen : (bytesToBits (s.frmBytes n)).length = 8 * n := by rw [length_bytesToBits, length_frmBytes]
  rw [State.streamed, h, ← hlen, stream_putBits]

/-- What `EMBED` puts into the slots is the frame, bit by bit (R180). -/
theorem stream_prepared {s : State} (hwf : s.params.wf = true) (hfits : FrameFits s) :
    s.prepared.stream (8 * (5 + s.staged.1.length)) =
      bytesToBits (packHeader (BitVec.ofNat 32 s.staged.1.length) s.staged.2 s.bpp ++ s.staged.1) := by
  rw [State.prepared, stream_capReported, stream_streamed _ (frmlen_framed hwf hfits), frmBytes_framed]

section
variable {s s' : State} (hhides : Hides s s')
include hhides

theorem Hides.readBits_parts :
    readBits s'.bpp.toNat 0 40 s' = bytesToBits (packHeader (BitVec.ofNat 32 s.staged.1.length) s.staged.2 s.bpp) ∧
      readBits s'.bpp.toNat 40 (8 * s.staged.1.length) s' = bytesToBits s.staged.1 := by
  rw [Hides, readBits, memRead_add, bytesToBits_append] at hhides
  exact List.append_inj hhides (by simp)

/-- `EXTRACT` parses the header `EMBED` has packed (R92, R131). -/
theorem Hides.header_eq : s'.header = Header.mk (BitVec.ofNat 32 s.staged.1.length) (metadataByte s.staged.2 s.bpp)
    s.staged.2 (headerBpp (metadataByte s.staged.2 s.bpp)) := by
  rw [State.header, hhides.readBits_parts.1, parseHeader_packHeader]

/-- `EXTRACT` packs the body `EMBED` has staged (R114, R115). -/
theorem Hides.imageBody_eq (hlen : s'.header.len.toNat = s.staged.1.length) : s'.imageBody = s.staged.1 := by
  have hbits : readBits s'.bpp.toNat 40 (8 * s.staged.1.length) s'.headerParsed = bytesToBits s.staged.1 :=
    (readBits_congr (State.readPix_congr (headerParsed_pix s') (headerParsed_epoch s'))).trans hhides.readBits_parts.2
  rw [State.imageBody, hlen, hbits, bitsToBytes_bytesToBits]

/-- What `EXTRACT` delivers is the secret (R176). -/
theorem Hides.payload_eq (hlen : s'.header.len.toNat = s.staged.1.length) (hparams : s'.params = s.params) :
    s'.bodyPacked.payload s'.header.len.toNat = some s.secret := by
  have hflag : s'.header.metadata.getLsbD 7 = s.staged.2 := by rw [hhides.header_eq, metadataByte_flag]
  rw [payload_bodyPacked, hhides.imageBody_eq hlen, hflag, hparams]
  exact decompressStage_compressStage rfl

/-- A hidden secret is extracted when the tests of `EXTRACT` on `NSAMP` and on the length pass. -/
theorem Hides.extract (hpass : EmbedPasses s) (hwf : s.params.wf = true) (hsamples : 40 ≤ s.nsamp.toNat)
    (hlen : s.staged.1.length ≤ 10000000) (hparams : s'.params = s.params) (hbpp : s'.bpp = s.bpp)
    (hnsamp : s'.nsamp = s.nsamp) : Ends s' .extract (s'.bodyPacked.putPay s.secret).succeed := by
  obtain ⟨⟨hbpp123, hn⟩, hfits, hbits, -, hroom⟩ := hpass
  rw [frmlen_framed hwf hfits] at hbits
  rw [bitlen_prepared hwf hfits hbits, State.slots] at hroom
  obtain ⟨hpay, hfrm⟩ := hfits
  have hlen' : s'.header.len.toNat = s.staged.1.length := by
    rw [hhides.header_eq, BitVec.toNat_ofNat]
    omega
  refine .extract ⟨⟨?bpp, ?depth⟩, ?samples, ?len, ?inImage, ?inBits⟩ ?inFrm (hhides.payload_eq hlen' hparams) ?inPay
  case bpp => rwa [State.BppIs123, hbpp]
  case depth => rwa [hnsamp, hparams]
  case samples => rwa [hnsamp]
  case len => rwa [hlen']
  case inImage =>
    rw [hlen', State.slots, hnsamp, hbpp]
    omega
  case inBits =>
    rw [hlen', hparams]
    omega
  case inFrm =>
    rw [hlen', hparams]
    omega
  case inPay => rwa [length_secret, hparams]

end

/-- The image `EMBED` leaves hides the frame, and so does any with the same samples (R180). -/
theorem hides_of_embed {s s' : State} (hwf : s.params.wf = true) (hpass : EmbedPasses s) (hbpp : s'.bpp = s.bpp)
    (hpix : ∀ q < s.nsamp.toNat, s'.readPix q = (s.prepared.imaged 0 s.prepared.bitlen.toNat).succeed.readPix q) :
    Hides s s' := by
  obtain ⟨hlegal, hfits, hbits, -, hroom⟩ := hpass
  rw [frmlen_framed hwf hfits] at hbits
  have hbitlen := bitlen_prepared hwf hfits hbits
  have hcount : 40 + 8 * s.staged.1.length = s.prepared.bitlen.toNat := by omega
  have hread := readBits_imaged hlegal.prepared.1 0 s.prepared.bitlen.toNat
  rw [prepared_bpp] at hread
  rw [Hides, hbpp, hcount, readBits_congr_below (bpp_bounds hlegal.1).1 (by rwa [Nat.zero_add]) hpix, hread, hbitlen,
    stream_prepared hwf hfits]

/-- Settles O38: the samples carry the frame unchanged, and the stage is transparent. -/
theorem extractRecoversWhatEmbedHid : Obligations.ExtractRecoversWhatEmbedHid := by
  intro s t t' hwf hrun hres hsamples hlen hparams hbpp hnsamp hpix
  obtain ⟨-, -, hbpp', hnsamp', -, hparams', -⟩ := commandsWriteOnlyTheirRegisters _ _ _ hrun
  obtain ⟨hpass, rfl⟩ := embedPasses_of_success hrun hres
  have hdlen := ((frameHeld_prepared hwf hpass.fits).imaged 0 s.prepared.bitlen.toNat).succeed.dlen
  rw [hdlen] at hlen
  rw [hnsamp'] at hpix
  have hhides := hides_of_embed hwf hpass (hbpp.trans hbpp') hpix
  have hends := hhides.extract hpass hwf hsamples hlen (hparams.trans hparams') (hbpp.trans hbpp')
    (hnsamp.trans hnsamp')
  refine ⟨_, ends_iff.mp hends, rfl, ?paylen, fun j hj => ?bytes⟩
  case paylen =>
    rw [State.succeed_paylen, State.putPay_paylen, length_secret, BitVec.ofNat_toNat, BitVec.setWidth_eq]
  case bytes =>
    rw [readPay_succeed, readPay_putPay, dif_pos (by rwa [length_secret])]
    simp [State.secret]

end Sys2Proof.Machine
